-- ==== Sys2Proof/Word.lean ====
section
/-! DEFINITION. The words of the block: a wire byte, its six-bit payload, an instruction address. -/

namespace Sys2Proof

/-- One wire byte (20_memory.md R41, 30_encoding.md R61). -/
abbrev Byte := BitVec 8

/-- One payload group, the MDO bits of a wire byte (30_encoding.md R61). -/
abbrev Payload := BitVec 6

/-- `Addr`: an unsigned 64-bit instruction address (00_scope.md R4, 10_state.md R14). -/
abbrev Addr := BitVec 64

end Sys2Proof
end

