-- ==== Sys2Proof/Config.lean ====
section
/-! DEFINITION. The implementation parameters of 00_scope.md R4: widths, the Message Catalog as data with its
default value (30_encoding.md R70 to R72), the error codes (60_exceptions.md R201) and the configuration registers
(10_state.md R22). No free value is needed: the spec leaves no instruction's result undefined. -/

namespace Sys2Proof

/-! ### Widths (00_scope.md R4) -/

/-- `MDO_BITS`: payload bits of a wire byte. -/
def mdoBits : Nat := 6

/-- `ACC_BITS`: width of the framer's field accumulator. -/
def accWidth : Nat := 64

/-- `HIST_BITS`: one stop bit and at most 31 branch bits. -/
def histWidth : Nat := 32

/-- Width of the quantity an address field carries once its untransmitted bit 0 is restored (30_encoding.md R67):
a field value must be below two to this. -/
def addrFieldWidth : Nat := 63

/-! ### The sentinel -/

/-- The concrete encoding of the sentinel `NONE`, 2^64 − 1 (00_scope.md R4, 20_memory.md R52). The model itself
uses an option type and never this word. -/
def noneWord : Addr := BitVec.allOnes 64

/-- An address or `NONE` as an implementation that needs one word would write it (20_memory.md R52). -/
def addrWord : Option Addr → Addr
  | some a => a
  | none => noneWord

/-! ### The Message Catalog (30_encoding.md R70 to R72) -/

/-- The twelve message kinds (30_encoding.md R70). -/
inductive Kind where
  | ownership
  | directBranch
  | indirectBranch
  | error
  | progTraceSync
  | directBranchSync
  | indirectBranchSync
  | resourceFull
  | indirectBranchHist
  | indirectBranchHistSync
  | repeatBranch
  | progTraceCorrelation
  deriving DecidableEq, Repr

/-- The field names of the catalog (30_encoding.md R69, R75). -/
inductive FieldName where
  | TCODE | ICNT | UADDR | FADDR | HIST | SYNC | BTYPE | RCODE | RDATA | HREPEAT | BCNT | EVCODE | CDF | ETYPE | PAD
  | PROCESS | TSTAMP
  deriving DecidableEq, Repr

/-- The three field kinds (30_encoding.md R63). -/
inductive FieldKind where
  | fixed (width : Nat)
  | variable
  | address
  deriving DecidableEq, Repr

/-- A fixed field: its width is known and no marker ends it. -/
def FieldKind.isFixed : FieldKind → Bool
  | .fixed _ => true
  | .variable => false
  | .address => false

/-- One field of a layout. -/
structure FieldSpec where
  name : FieldName
  kind : FieldKind
  deriving DecidableEq, Repr

/-- How a kind's layout goes on after its sub-code (30_encoding.md R71, R72): the sub-code field, the layout for
each value that has one of its own, and the fallback layout of the other values. -/
structure SubLayout where
  field : FieldName
  variants : List (Nat × List FieldSpec)
  otherwise : List FieldSpec
  deriving DecidableEq, Repr

/-- The fields after a sub-code of value `v`. -/
def SubLayout.select (sub : SubLayout) (v : Nat) : List FieldSpec :=
  match sub.variants.find? (fun row => row.1 == v) with
  | some row => row.2
  | none => sub.otherwise

/-- One catalog entry: a kind, its TCODE, the fields after TCODE (up to the sub-code, for a kind that has one) and
the sub-code's layouts. -/
structure CatalogEntry where
  kind : Kind
  tcode : Nat
  base : List FieldSpec
  sub : Option SubLayout
  deriving DecidableEq, Repr

/-- `CATALOG`: the catalog is data (30_encoding.md R70), so a corrected table replaces the default one without
touching a rule. -/
abbrev Catalog := List CatalogEntry

/-- `lookup(tcode)` of 30_encoding.md R70: the entry whose TCODE is `t`. -/
def Catalog.byTcode (cat : Catalog) (t : Nat) : Option CatalogEntry :=
  cat.find? (fun e => e.tcode == t)

/-- The entry of a kind. -/
def Catalog.byKind (cat : Catalog) (k : Kind) : Option CatalogEntry :=
  cat.find? (fun e => e.kind == k)

/-- A fixed field of width `w`. -/
def fixedField (name : FieldName) (w : Nat) : FieldSpec := ⟨name, .fixed w⟩

/-- A variable field. -/
def varField (name : FieldName) : FieldSpec := ⟨name, .variable⟩

/-- An address field. -/
def addrField (name : FieldName) : FieldSpec := ⟨name, .address⟩

/-- The default value of `CATALOG`: the table of 30_encoding.md R70 with the sub-layouts of R71 and R72.
PRESUMED by the spec itself (decisions D3 and D4, general knowledge G2 and G3); unsafe for another catalog
(notes/assumptions/17.md). -/
def defaultCatalog : Catalog :=
  [ ⟨.ownership, 2, [varField .PROCESS, varField .TSTAMP], none⟩,
    ⟨.directBranch, 3, [varField .ICNT, varField .TSTAMP], none⟩,
    ⟨.indirectBranch, 4, [fixedField .BTYPE 2, varField .ICNT, addrField .UADDR, varField .TSTAMP], none⟩,
    ⟨.error, 8, [fixedField .ETYPE 4, varField .PAD, varField .TSTAMP], none⟩,
    ⟨.progTraceSync, 9, [fixedField .SYNC 4, varField .ICNT, addrField .FADDR, varField .TSTAMP], none⟩,
    ⟨.directBranchSync, 11, [fixedField .SYNC 4, varField .ICNT, addrField .FADDR, varField .TSTAMP], none⟩,
    ⟨.indirectBranchSync, 12,
      [fixedField .SYNC 4, fixedField .BTYPE 2, varField .ICNT, addrField .FADDR, varField .TSTAMP], none⟩,
    ⟨.resourceFull, 27, [fixedField .RCODE 4],
      some ⟨.RCODE, [(2, [varField .RDATA, varField .HREPEAT, varField .TSTAMP])],
        [varField .RDATA, varField .TSTAMP]⟩⟩,
    ⟨.indirectBranchHist, 28,
      [fixedField .BTYPE 2, varField .ICNT, addrField .UADDR, varField .HIST, varField .TSTAMP], none⟩,
    ⟨.indirectBranchHistSync, 29,
      [fixedField .SYNC 4, fixedField .BTYPE 2, varField .ICNT, addrField .FADDR, varField .HIST, varField .TSTAMP],
      none⟩,
    ⟨.repeatBranch, 30, [varField .BCNT, varField .TSTAMP], none⟩,
    ⟨.progTraceCorrelation, 33, [fixedField .EVCODE 4, fixedField .CDF 2],
      some ⟨.CDF, [(1, [varField .ICNT, varField .HIST, varField .TSTAMP])],
        [varField .ICNT, varField .TSTAMP]⟩⟩ ]

/-! ### Error codes (60_exceptions.md R201) -/

/-- The nineteen errors of 60_exceptions.md R201. -/
inductive Err where
  | invalidMseo
  | frameSeq
  | fixedTruncated
  | unknownTcode
  | truncatedMsg
  | fieldOverflow
  | noIndirect
  | unknownAddr
  | callstackUnderflow
  | negBudget
  | unsync
  | icntSplit
  | indirectUnresolved
  | histExhausted
  | histLeftover
  | histNoStop
  | fieldRange
  | reserved
  | repeatNoPrev
  deriving DecidableEq, Repr

/-- The number of an error (60_exceptions.md R201). -/
def Err.code : Err → Nat
  | .invalidMseo => 1
  | .frameSeq => 2
  | .fixedTruncated => 3
  | .unknownTcode => 4
  | .truncatedMsg => 5
  | .fieldOverflow => 6
  | .noIndirect => 16
  | .unknownAddr => 17
  | .callstackUnderflow => 18
  | .negBudget => 19
  | .unsync => 20
  | .icntSplit => 21
  | .indirectUnresolved => 22
  | .histExhausted => 23
  | .histLeftover => 24
  | .histNoStop => 25
  | .fieldRange => 26
  | .reserved => 27
  | .repeatNoPrev => 28

/-- The number a host reads in `errCode`: 0 when no error has been raised (10_state.md R19). -/
def errCodeNumber : Option Err → Nat
  | none => 0
  | some e => e.code

/-- The `detail` an error carries (60_exceptions.md R202): empty, an address, or the unmatched payload. -/
inductive Detail where
  | empty
  | address (a : Addr)
  | payload (p : Payload)
  deriving DecidableEq, Repr

/-! ### Configuration registers (10_state.md R22) -/

/-- `CS_MODE` (00_scope.md R4, 41_callstack.md R110). -/
inductive CsMode where
  | counting
  | addressed
  deriving DecidableEq, Repr

/-- The configuration of a run: set before reset is released, read-only during a session (10_state.md R22). -/
structure Config where
  csDepth : Nat
  csMode : CsMode
  tolerateFirstUnknown : Bool
  catalog : Catalog
  deriving DecidableEq, Repr

/-- The configured values of `State.reset`: the conventions of 95_test_vectors.md (`CS_DEPTH = 8`, `ADDRESSED`),
`TOLERATE_FIRST_UNKNOWN = false` (00_scope.md R4) and the default catalog. DESIGN CHOICE for the depth and the mode,
which are arguments of the model; unsafe (notes/assumptions/4.md). -/
def defaultConfig : Config :=
  { csDepth := 8, csMode := .addressed, tolerateFirstUnknown := false, catalog := defaultCatalog }

end Sys2Proof
end

