-- ==== Sys2Proof/Syntax.lean ====
section
/-! DEFINITION. The instructions: one constructor per row of spec/opcode_table.json (30_encoding.md R70 to R72, R81),
with the field map of a message read back from it. -/

namespace Sys2Proof

/-- A variable or address field of a message: absent, or its value (30_encoding.md R66, R74). -/
abbrev Operand := Option Nat

/-- The value every handler reads: an absent field is 0 (30_encoding.md R66). -/
def Operand.val (o : Operand) : Nat := o.getD 0

/-- A wire message, or the idle byte. Fixed fields are numbers, variable and address fields are operands; fields stand
in the order of the default catalog. -/
inductive Instr where
  /-- Row `Ownership`, TCODE 2. -/
  | ownership (process tstamp : Operand)
  /-- Row `DirectBranch`, TCODE 3. -/
  | directBranch (icnt tstamp : Operand)
  /-- Row `IndirectBranch`, TCODE 4. -/
  | indirectBranch (btype : Nat) (icnt uaddr tstamp : Operand)
  /-- Row `Error`, TCODE 8. -/
  | error (etype : Nat) (pad tstamp : Operand)
  /-- Row `ProgTraceSync`, TCODE 9. -/
  | progTraceSync (sync : Nat) (icnt faddr tstamp : Operand)
  /-- Row `DirectBranchSync`, TCODE 11. -/
  | directBranchSync (sync : Nat) (icnt faddr tstamp : Operand)
  /-- Row `IndirectBranchSync`, TCODE 12. -/
  | indirectBranchSync (sync btype : Nat) (icnt faddr tstamp : Operand)
  /-- Row `ResourceFull.0`, TCODE 27, RCODE 0. -/
  | resourceFull0 (rdata tstamp : Operand)
  /-- Row `ResourceFull.1`, TCODE 27, RCODE 1. -/
  | resourceFull1 (rdata tstamp : Operand)
  /-- Row `ResourceFull.2`, TCODE 27, RCODE 2. -/
  | resourceFull2 (rdata hrepeat tstamp : Operand)
  /-- Row `ResourceFull.reserved`, TCODE 27, RCODE 3 to 15. -/
  | resourceFullReserved (rcode : Nat) (rdata tstamp : Operand)
  /-- Row `IndirectBranchHist`, TCODE 28. -/
  | indirectBranchHist (btype : Nat) (icnt uaddr hist tstamp : Operand)
  /-- Row `IndirectBranchHistSync`, TCODE 29. -/
  | indirectBranchHistSync (sync btype : Nat) (icnt faddr hist tstamp : Operand)
  /-- Row `RepeatBranch`, TCODE 30. -/
  | repeatBranch (bcnt tstamp : Operand)
  /-- Row `ProgTraceCorrelation.0`, TCODE 33, CDF 0. -/
  | progTraceCorrelation0 (evcode : Nat) (icnt tstamp : Operand)
  /-- Row `ProgTraceCorrelation.1`, TCODE 33, CDF 1. -/
  | progTraceCorrelation1 (evcode : Nat) (icnt hist tstamp : Operand)
  /-- Row `ProgTraceCorrelation.reserved`, TCODE 33, CDF 2 or 3. -/
  | progTraceCorrelationReserved (evcode cdf : Nat) (icnt tstamp : Operand)
  /-- Row `(idle)`: a byte between messages with marker `11` whose payload is no TCODE. -/
  | idle (payload : Payload)
  deriving DecidableEq, Repr

/-- A finite map from field name to value: the `fields` of a message (10_state.md R23). -/
abbrev Fields := List (FieldName × Nat)

/-- Reading a field map. -/
def Fields.get (fs : Fields) (name : FieldName) : Option Nat :=
  match fs with
  | [] => none
  | (n, v) :: rest => if n = name then some v else Fields.get rest name

/-- Writing a field map: the entry of that name, or a new one at the end. -/
def Fields.set (fs : Fields) (name : FieldName) (v : Nat) : Fields :=
  match fs with
  | [] => [(name, v)]
  | (n, u) :: rest => if n = name then (n, v) :: rest else (n, u) :: Fields.set rest name v

/-- The entry of an operand: none when the field is absent. -/
def Operand.entry (name : FieldName) (o : Operand) : Fields :=
  match o with
  | some v => [(name, v)]
  | none => []

/-- The kind of a message; the idle byte has none. -/
def Instr.kind : Instr → Option Kind
  | .ownership _ _ => some .ownership
  | .directBranch _ _ => some .directBranch
  | .indirectBranch _ _ _ _ => some .indirectBranch
  | .error _ _ _ => some .error
  | .progTraceSync _ _ _ _ => some .progTraceSync
  | .directBranchSync _ _ _ _ => some .directBranchSync
  | .indirectBranchSync _ _ _ _ _ => some .indirectBranchSync
  | .resourceFull0 _ _ => some .resourceFull
  | .resourceFull1 _ _ => some .resourceFull
  | .resourceFull2 _ _ _ => some .resourceFull
  | .resourceFullReserved _ _ _ => some .resourceFull
  | .indirectBranchHist _ _ _ _ _ => some .indirectBranchHist
  | .indirectBranchHistSync _ _ _ _ _ _ => some .indirectBranchHistSync
  | .repeatBranch _ _ => some .repeatBranch
  | .progTraceCorrelation0 _ _ _ => some .progTraceCorrelation
  | .progTraceCorrelation1 _ _ _ _ => some .progTraceCorrelation
  | .progTraceCorrelationReserved _ _ _ _ => some .progTraceCorrelation
  | .idle _ => none

/-- The field map of a message after its TCODE: the fields present, each under its name (10_state.md R23, R24). -/
def Instr.fields : Instr → Fields
  | .ownership process ts => process.entry .PROCESS ++ ts.entry .TSTAMP
  | .directBranch icnt ts => icnt.entry .ICNT ++ ts.entry .TSTAMP
  | .indirectBranch btype icnt uaddr ts =>
      (.BTYPE, btype) :: (icnt.entry .ICNT ++ uaddr.entry .UADDR ++ ts.entry .TSTAMP)
  | .error etype pad ts => (.ETYPE, etype) :: (pad.entry .PAD ++ ts.entry .TSTAMP)
  | .progTraceSync sync icnt faddr ts =>
      (.SYNC, sync) :: (icnt.entry .ICNT ++ faddr.entry .FADDR ++ ts.entry .TSTAMP)
  | .directBranchSync sync icnt faddr ts =>
      (.SYNC, sync) :: (icnt.entry .ICNT ++ faddr.entry .FADDR ++ ts.entry .TSTAMP)
  | .indirectBranchSync sync btype icnt faddr ts =>
      (.SYNC, sync) :: (.BTYPE, btype) :: (icnt.entry .ICNT ++ faddr.entry .FADDR ++ ts.entry .TSTAMP)
  | .resourceFull0 rdata ts => (.RCODE, 0) :: (rdata.entry .RDATA ++ ts.entry .TSTAMP)
  | .resourceFull1 rdata ts => (.RCODE, 1) :: (rdata.entry .RDATA ++ ts.entry .TSTAMP)
  | .resourceFull2 rdata hrepeat ts =>
      (.RCODE, 2) :: (rdata.entry .RDATA ++ hrepeat.entry .HREPEAT ++ ts.entry .TSTAMP)
  | .resourceFullReserved rcode rdata ts => (.RCODE, rcode) :: (rdata.entry .RDATA ++ ts.entry .TSTAMP)
  | .indirectBranchHist btype icnt uaddr hist ts =>
      (.BTYPE, btype) :: (icnt.entry .ICNT ++ uaddr.entry .UADDR ++ hist.entry .HIST ++ ts.entry .TSTAMP)
  | .indirectBranchHistSync sync btype icnt faddr hist ts =>
      (.SYNC, sync) :: (.BTYPE, btype) ::
        (icnt.entry .ICNT ++ faddr.entry .FADDR ++ hist.entry .HIST ++ ts.entry .TSTAMP)
  | .repeatBranch bcnt ts => bcnt.entry .BCNT ++ ts.entry .TSTAMP
  | .progTraceCorrelation0 evcode icnt ts =>
      (.EVCODE, evcode) :: (.CDF, 0) :: (icnt.entry .ICNT ++ ts.entry .TSTAMP)
  | .progTraceCorrelation1 evcode icnt hist ts =>
      (.EVCODE, evcode) :: (.CDF, 1) :: (icnt.entry .ICNT ++ hist.entry .HIST ++ ts.entry .TSTAMP)
  | .progTraceCorrelationReserved evcode cdf icnt ts =>
      (.EVCODE, evcode) :: (.CDF, cdf) :: (icnt.entry .ICNT ++ ts.entry .TSTAMP)
  | .idle _ => []

/-- `Layout(kind, fields)` of 40_framer_ops.md R95: the fields after TCODE, as far as the sub-code received so far
settles them. -/
def CatalogEntry.layout (e : CatalogEntry) (fs : Fields) : List FieldSpec :=
  match e.sub with
  | none => e.base
  | some sub =>
    match Fields.get fs sub.field with
    | none => e.base
    | some v => e.base ++ sub.select v

end Sys2Proof
end

