-- ==== Sys2Proof/WellFormed.lean ====
section
/-! DEFINITION. Which instructions the wire format can carry (30_encoding.md R63 to R66, R71 to R74, R77), and which
catalogs are legal (40_framer_ops.md R95, 70_reset_and_hazards.md R240 P5). -/

namespace Sys2Proof

/-- The operands fit a layout. `used` is how many payload bits of the current group are taken (0 at a group boundary).
A fixed field is present and fits its width; a variable field that is present fits the accumulator (30_encoding.md
R80); a field left out starts at a group boundary (one that shares a group receives that group's bits, R64) and every
field after it is variable and left out too (R74). -/
def operandsFit : List FieldSpec → Nat → Fields → Bool
  | [], _, _ => true
  | ⟨name, .fixed w⟩ :: rest, used, vals =>
    match Fields.get vals name with
    | some v => decide (v < 2 ^ w) && operandsFit rest ((used + w) % mdoBits) vals
    | none => false
  | ⟨name, _⟩ :: rest, used, vals =>
    match Fields.get vals name with
    | some v => decide (v < 2 ^ accWidth) && operandsFit rest 0 vals
    | none =>
      decide (used = 0) && rest.all (fun f => !f.kind.isFixed && (Fields.get vals f.name).isNone)

/-- The sub-code of a reserved row is one of the row's values (30_encoding.md R71, R72). -/
def Instr.subcodeOk : Instr → Bool
  | .resourceFullReserved rcode _ _ => decide (3 ≤ rcode) && decide (rcode ≤ 15)
  | .progTraceCorrelationReserved _ cdf _ _ => decide (2 ≤ cdf) && decide (cdf ≤ 3)
  | _ => true

/-- A well-formed instruction of a catalog: a message whose kind the catalog has and whose operands fit the kind's
layout, or an idle byte whose payload is no TCODE (30_encoding.md R77). -/
def Instr.wellFormed (cat : Catalog) (i : Instr) : Bool :=
  i.subcodeOk &&
  match i with
  | .idle p => (cat.byTcode p.toNat).isNone
  | _ =>
    match i.kind.bind cat.byKind with
    | some e => operandsFit (e.layout i.fields) 0 i.fields
    | none => false

/-- Every layout an entry can have (40_framer_ops.md R95). -/
def CatalogEntry.layouts (e : CatalogEntry) : List (List FieldSpec) :=
  match e.sub with
  | none => [e.base]
  | some sub => (e.base ++ sub.otherwise) :: sub.variants.map (fun row => e.base ++ row.2)

/-- A layout ends with a variable field (40_framer_ops.md R95). -/
def endsVariable (l : List FieldSpec) : Bool :=
  match l.getLast? with
  | some f => !f.kind.isFixed
  | none => false

/-- A legal entry: a six-bit TCODE, every layout ends with a variable field and names no field twice (nor TCODE), and
a sub-code is the last field before what depends on it and is fixed (70_reset_and_hazards.md R240 P5). -/
def CatalogEntry.legal (e : CatalogEntry) : Bool :=
  decide (e.tcode < 64) &&
  e.layouts.all (fun l => endsVariable l && decide ((FieldName.TCODE :: l.map FieldSpec.name).Nodup)) &&
  match e.sub with
  | none => true
  | some sub =>
    match e.base.getLast? with
    | some f => f.kind.isFixed && decide (f.name = sub.field)
    | none => false

/-- A kind has one layout, whatever its TCODE: `Layout(kind, fields)` of 40_framer_ops.md R95 is a function of the
kind. -/
def Catalog.kindsAgree (cat : Catalog) : Bool :=
  cat.all fun e =>
    match cat.byKind e.kind with
    | some first => decide (first.base = e.base) && decide (first.sub = e.sub)
    | none => false

/-- A legal catalog: distinct TCODEs, one layout a kind, legal entries (70_reset_and_hazards.md R240 P5; what that premise
leaves to the form of the data is in notes/assumptions/11.md). -/
def Catalog.legal (cat : Catalog) : Bool :=
  decide (cat.map CatalogEntry.tcode).Nodup && cat.kindsAgree && cat.all CatalogEntry.legal

end Sys2Proof
end

