-- ==== Sys2Proof/Decode.lean ====
section
/-! DEFINITION. Decoding and encoding: the wire byte (30_encoding.md R61, R62), the Bit Framer's unpack direction
(40_framer_ops.md R92 to R98) as a function on the framer registers, the message a field map stands for, a total
decoder of bytes, and pack (40_framer_ops.md R103) as the encoder. -/

namespace Sys2Proof

/-! ### The wire byte -/

/-- The payload of a byte: `MDO = byte[7:2]` (30_encoding.md R61). -/
def mdo (b : Byte) : Payload := b.extractLsb' 2 6

/-- The marker bits of a byte: `MSEO = byte[1:0]` (30_encoding.md R61). -/
def mseo (b : Byte) : BitVec 2 := b.extractLsb' 0 2

/-- The byte of a payload and a marker (30_encoding.md R61). -/
def wireByte (p : Payload) (m : BitVec 2) : Byte := p ++ m

/-- The four markers (30_encoding.md R62). -/
inductive Marker where
  /-- `00`: more bytes follow for the current field. -/
  | more
  /-- `01`: this byte ends a variable field, the message continues. -/
  | endField
  /-- `11`: this byte ends the message. -/
  | endMessage
  /-- `10`: illegal at any position. -/
  | invalid
  deriving DecidableEq, Repr

/-- The marker of a byte (30_encoding.md R62). -/
def marker (b : Byte) : Marker :=
  if mseo b = 0#2 then .more
  else if mseo b = 1#2 then .endField
  else if mseo b = 3#2 then .endMessage
  else .invalid

/-! ### Framer registers -/

/-- `fstate` (10_state.md R23). -/
inductive FState where
  | idle
  | framing
  deriving DecidableEq, Repr

/-- The framer registers of 10_state.md R23. -/
structure Framer where
  fstate : FState
  kind : Kind
  fields : Fields
  fidx : Nat
  acc : BitVec 64
  accBits : Nat
  deriving DecidableEq, Repr

/-- The framer at reset. `fstate` is IDLE; the others are unspecified and never read while it is (10_state.md R27).
DESIGN CHOICE for those; unsafe (notes/assumptions/2.md). -/
def Framer.reset : Framer :=
  { fstate := .idle, kind := .ownership, fields := [], fidx := 0, acc := 0, accBits := 0 }

/-- The layout of the message in progress (40_framer_ops.md R95). -/
def Framer.layout (cat : Catalog) (f : Framer) : List FieldSpec :=
  match cat.byKind f.kind with
  | some e => e.layout f.fields
  | none => []

/-- The field receiving bits: `Layout(kind, fields)[fidx]` (40_framer_ops.md R96 to R98). -/
def Framer.active (cat : Catalog) (f : Framer) : Option FieldSpec :=
  (f.layout cat)[f.fidx]?

/-- Complete the active field: its value enters `fields`, the accumulator is cleared, the next field becomes active
(40_framer_ops.md R96, R97). -/
def Framer.complete (f : Framer) (name : FieldName) (v : BitVec 64) : Framer :=
  { f with fields := Fields.set f.fields name v.toNat, acc := 0, accBits := 0, fidx := f.fidx + 1 }

/-! ### Distributing a payload group (40_framer_ops.md R96) -/

/-- What distributing a group answers. -/
inductive Distributed where
  | ok (f : Framer)
  /-- `E_FIELD_OVERFLOW`, with the registers as they then stand. -/
  | overflow (f : Framer)
  /-- The layout has no field at `fidx`: no legal catalog does this (R95). -/
  | illegal
  deriving DecidableEq, Repr

/-- The loop of `Distribute`: `g` holds the `avail` payload bits not yet given to a field. Each turn either uses the
bits up or completes a fixed field, so a bound on the fields bounds the turns. -/
def distributeLoop (cat : Catalog) (fuel : Nat) (g avail : Nat) (f : Framer) : Distributed :=
  match fuel with
  | 0 => if avail = 0 then .ok f else .illegal
  | fuel + 1 =>
    if avail = 0 then .ok f
    else
      match f.active cat with
      | none => .illegal
      | some ⟨name, .fixed w⟩ =>
        let k := min (w - f.accBits) avail
        let acc := f.acc ||| (BitVec.ofNat 64 (g % 2 ^ k) <<< f.accBits)
        if f.accBits + k = w then distributeLoop cat fuel (g >>> k) (avail - k) (f.complete name acc)
        else distributeLoop cat fuel (g >>> k) (avail - k) { f with acc := acc, accBits := f.accBits + k }
      | some ⟨_, _⟩ =>
        let t := g <<< f.accBits
        if t >>> accWidth = 0 then
          .ok { f with acc := f.acc ||| BitVec.ofNat 64 t, accBits := f.accBits + avail }
        else .overflow f

/-- A bound on the number of fields of an entry, its sub-layouts together. -/
def CatalogEntry.fieldBound (e : CatalogEntry) : Nat :=
  e.base.length +
  match e.sub with
  | none => 0
  | some sub => sub.otherwise.length + (sub.variants.map (fun row => row.2.length)).sum

/-- `Distribute(mdo)` (40_framer_ops.md R96). -/
def distribute (cat : Catalog) (p : Payload) (f : Framer) : Distributed :=
  match cat.byKind f.kind with
  | none => .illegal
  | some e => distributeLoop cat (e.fieldBound + mdoBits + 1) p.toNat mdoBits f

/-! ### The end of a byte (40_framer_ops.md R97, R98) -/

/-- What one byte does to the framer. -/
inductive FrameStep where
  /-- An idle byte (R93). -/
  | idle (p : Payload)
  /-- The message goes on in the next byte. -/
  | more (f : Framer)
  /-- The byte completed a message, whose kind and fields the registers hold (R98). -/
  | message (f : Framer)
  /-- A framing error, its detail, and the registers as they then stand. -/
  | error (e : Err) (detail : Detail) (f : Framer)
  /-- The layout has no field at `fidx`: the catalog is not legal (R95). -/
  | illegal
  deriving DecidableEq, Repr

/-- Marker `01` (40_framer_ops.md R97). -/
def endField (cat : Catalog) (f : Framer) : FrameStep :=
  match f.active cat with
  | none => .illegal
  | some spec =>
    if spec.kind.isFixed ∨ f.accBits = 0 ∨ f.fidx + 1 = (f.layout cat).length then .error .frameSeq .empty f
    else .more (f.complete spec.name f.acc)

/-- The registers once the last field's value is stored: a field that received no bit stays absent
(40_framer_ops.md R98). -/
def Framer.storeLast (f : Framer) (name : FieldName) : Framer :=
  if 0 < f.accBits then { f with fields := Fields.set f.fields name f.acc.toNat } else f

/-- Marker `11` (40_framer_ops.md R98). -/
def endMessage (cat : Catalog) (f : Framer) : FrameStep :=
  match f.active cat with
  | none => .illegal
  | some spec =>
    if spec.kind.isFixed then .error .fixedTruncated .empty f
    else
      let f' := f.storeLast spec.name
      if ((f.layout cat).drop (f.fidx + 1)).any (fun later => later.kind.isFixed) then
        .error .fixedTruncated .empty f'
      else .message f'

/-- `EndOfByte(mseo)` (40_framer_ops.md R101). -/
def endOfByte (cat : Catalog) (m : Marker) (f : Framer) : FrameStep :=
  match m with
  | .more => .more f
  | .endField => endField cat f
  | .endMessage => endMessage cat f
  | .invalid => .error .invalidMseo .empty f

/-- The registers after the TCODE byte (40_framer_ops.md R92, R94). -/
def Framer.start (e : CatalogEntry) (p : Payload) : Framer :=
  { fstate := .framing, kind := e.kind, fields := [(.TCODE, p.toNat)], fidx := 0, acc := 0, accBits := 0 }

/-- One byte through the framer: `Step` of 40_framer_ops.md R101 after `WireNext`. Marker `10` is checked first (R90);
an unmatched payload is idle with marker `11` and `E_UNKNOWN_TCODE` with another (R92, R93, conflict C4). -/
def frameByte (cat : Catalog) (f : Framer) (b : Byte) : FrameStep :=
  if marker b = .invalid then .error .invalidMseo .empty f
  else
    match f.fstate with
    | .idle =>
      match cat.byTcode (mdo b).toNat with
      | none => if marker b = .endMessage then .idle (mdo b) else .error .unknownTcode (.payload (mdo b)) f
      | some e => endOfByte cat (marker b) (Framer.start e (mdo b))
    | .framing =>
      match distribute cat (mdo b) f with
      | .ok f' => endOfByte cat (marker b) f'
      | .overflow f' => .error .fieldOverflow .empty f'
      | .illegal => .illegal

/-! ### The message of a field map -/

/-- A fixed field's value. A complete message has received every fixed field its layout lists (40_framer_ops.md R98).
DESIGN CHOICE: a field that the layout does not list, such as RCODE or CDF in a legal catalog other than the default one,
reads 0, which the spec leaves open; unsafe for such a catalog (notes/assumptions/19.md). -/
def Fields.fixed (fs : Fields) (name : FieldName) : Nat := (Fields.get fs name).getD 0

/-- The instruction a kind and a field map stand for. Fields are read by name, so neither their order nor their widths
matter here (93_implementation_defined.md G3); the sub-code selects the row (30_encoding.md R71, R72). What a catalog
other than the default one that lists no sub-code, or a wider one, gives here is a choice: notes/assumptions/19.md. -/
def Instr.ofFields (k : Kind) (fs : Fields) : Instr :=
  match k with
  | .ownership => .ownership (fs.get .PROCESS) (fs.get .TSTAMP)
  | .directBranch => .directBranch (fs.get .ICNT) (fs.get .TSTAMP)
  | .indirectBranch => .indirectBranch (fs.fixed .BTYPE) (fs.get .ICNT) (fs.get .UADDR) (fs.get .TSTAMP)
  | .error => .error (fs.fixed .ETYPE) (fs.get .PAD) (fs.get .TSTAMP)
  | .progTraceSync => .progTraceSync (fs.fixed .SYNC) (fs.get .ICNT) (fs.get .FADDR) (fs.get .TSTAMP)
  | .directBranchSync => .directBranchSync (fs.fixed .SYNC) (fs.get .ICNT) (fs.get .FADDR) (fs.get .TSTAMP)
  | .indirectBranchSync =>
    .indirectBranchSync (fs.fixed .SYNC) (fs.fixed .BTYPE) (fs.get .ICNT) (fs.get .FADDR) (fs.get .TSTAMP)
  | .resourceFull =>
    match fs.fixed .RCODE with
    | 0 => .resourceFull0 (fs.get .RDATA) (fs.get .TSTAMP)
    | 1 => .resourceFull1 (fs.get .RDATA) (fs.get .TSTAMP)
    | 2 => .resourceFull2 (fs.get .RDATA) (fs.get .HREPEAT) (fs.get .TSTAMP)
    | n => .resourceFullReserved n (fs.get .RDATA) (fs.get .TSTAMP)
  | .indirectBranchHist =>
    .indirectBranchHist (fs.fixed .BTYPE) (fs.get .ICNT) (fs.get .UADDR) (fs.get .HIST) (fs.get .TSTAMP)
  | .indirectBranchHistSync =>
    .indirectBranchHistSync (fs.fixed .SYNC) (fs.fixed .BTYPE) (fs.get .ICNT) (fs.get .FADDR) (fs.get .HIST)
      (fs.get .TSTAMP)
  | .repeatBranch => .repeatBranch (fs.get .BCNT) (fs.get .TSTAMP)
  | .progTraceCorrelation =>
    match fs.fixed .CDF with
    | 0 => .progTraceCorrelation0 (fs.fixed .EVCODE) (fs.get .ICNT) (fs.get .TSTAMP)
    | 1 => .progTraceCorrelation1 (fs.fixed .EVCODE) (fs.get .ICNT) (fs.get .HIST) (fs.get .TSTAMP)
    | n => .progTraceCorrelationReserved (fs.fixed .EVCODE) n (fs.get .ICNT) (fs.get .TSTAMP)

/-- The message the framer registers hold. -/
def Framer.instr (f : Framer) : Instr := Instr.ofFields f.kind f.fields

/-! ### The decoder -/

/-- What decoding bytes answers. -/
inductive Decoded where
  /-- An instruction, and the bytes after it. -/
  | instr (i : Instr) (rest : List Byte)
  /-- The bytes hold no instruction: a framing error by name. -/
  | framingError (e : Err) (detail : Detail)
  /-- No byte at all: the end of the stream between messages (40_framer_ops.md R91). -/
  | endOfStream
  /-- The catalog is not legal (40_framer_ops.md R95). -/
  | illegalCatalog
  deriving DecidableEq, Repr

/-- Frame bytes from given framer registers until a message, an idle byte or an error. Bytes that run out inside a
message are `E_TRUNCATED_MSG` (40_framer_ops.md R91). -/
def decodeFrom (cat : Catalog) (f : Framer) (bytes : List Byte) : Decoded :=
  match bytes with
  | [] =>
    match f.fstate with
    | .idle => .endOfStream
    | .framing => .framingError .truncatedMsg .empty
  | b :: rest =>
    match frameByte cat f b with
    | .idle p => .instr (.idle p) rest
    | .more f' => decodeFrom cat f' rest
    | .message f' => .instr f'.instr rest
    | .error e detail _ => .framingError e detail
    | .illegal => .illegalCatalog

/-- Decode the instruction at the head of `bytes`, no message being in progress. -/
def decode (cat : Catalog) (bytes : List Byte) : Decoded := decodeFrom cat Framer.reset bytes

/-! ### The encoder: pack (40_framer_ops.md R102, R103) -/

/-- The packer's registers: the bytes emitted so far, last first, and how many payload bits of the last byte are taken
(0: the last byte is full). -/
structure Packer where
  out : List Byte
  used : Nat
  deriving DecidableEq, Repr

/-- OR bits into the byte emitted last. -/
def orLast (x : Byte) (out : List Byte) : List Byte :=
  match out with
  | [] => []
  | b :: rest => (b ||| x) :: rest

/-- One bit of a fixed field. -/
def packBit (bit : Bool) (p : Packer) : Packer :=
  let out := if p.used = 0 then 0#8 :: p.out else p.out
  { out := orLast ((if bit then 1#8 else 0#8) <<< (2 + p.used)) out, used := (p.used + 1) % mdoBits }

/-- Bits `b` to `b + count − 1` of a fixed field, least significant first. -/
def packFixed (v : Nat) (b count : Nat) (p : Packer) : Packer :=
  match count with
  | 0 => p
  | count + 1 => packFixed v (b + 1) count (packBit (v.testBit b) p)

/-- The byte of a whole payload group with marker `00`. -/
def groupByte (v : Nat) : Byte := wireByte (BitVec.ofNat 6 v) 0#2

/-- The further groups of a variable field, while bits of its value are left. -/
def packGroups (fuel : Nat) (v : Nat) (out : List Byte) : List Byte :=
  match fuel with
  | 0 => out
  | fuel + 1 => if v = 0 then out else packGroups fuel (v / 64) (groupByte v :: out)

/-- A variable or address field: packed against the fixed bits before it, then the fewest groups that hold the rest, the
last byte marked `01`. -/
def packVar (v : Nat) (p : Packer) : Packer :=
  let room := mdoBits - p.used
  let out :=
    if p.used ≠ 0 then
      packGroups (v.log2 + 1) (v / 2 ^ room) (orLast (BitVec.ofNat 8 (v % 2 ^ room) <<< (2 + p.used)) p.out)
    else packGroups (v.log2 + 1) (v / 64) (groupByte v :: p.out)
  { out := orLast 1#8 out, used := 0 }

/-- One field of a message. -/
def packField (spec : FieldSpec) (v : Nat) (p : Packer) : Packer :=
  match spec.kind with
  | .fixed w => packFixed v 0 w p
  | .variable => packVar v p
  | .address => packVar v p

/-- The fields of a layout in order, up to the first one that is not transmitted. -/
def packFields (layout : List FieldSpec) (vals : Fields) (p : Packer) : Packer :=
  match layout with
  | [] => p
  | spec :: rest =>
    match vals.get spec.name with
    | some v => packFields rest vals (packField spec v p)
    | none => p

/-- `PackMessage(kind, vals, nTx)` (40_framer_ops.md R103): `vals` holds the transmitted fields. -/
def packMessage (e : CatalogEntry) (vals : Fields) : List Byte :=
  let p := packFields (e.layout vals) vals { out := [wireByte (BitVec.ofNat 6 e.tcode) 0#2], used := 0 }
  (orLast 3#8 p.out).reverse

/-- The bytes of an instruction. A kind the catalog lacks has none. -/
def encode (cat : Catalog) (i : Instr) : List Byte :=
  match i with
  | .idle p => [wireByte p 3#2]
  | _ =>
    match i.kind.bind cat.byKind with
    | some e => packMessage e i.fields
    | none => []

/-! ### Words of the opcode table -/

/-- The bytes of a table word: byte `k` is bits `8k+7..8k` of `w` (30_encoding.md R81: `w = byte0 | (byte1 << 8)`). -/
def wordBytes (n w : Nat) : List Byte :=
  match n with
  | 0 => []
  | n + 1 => BitVec.ofNat 8 w :: wordBytes n (w / 256)

/-- The instruction a table word begins, as wire bytes: the word's bytes, and, unless one of them ends the message, one
more byte of payload 0 with marker `11`. DESIGN CHOICE: bytes of zeros alone never end a message (30_encoding.md R60),
and the table gives no marker bits, so the end marker is the one bit set above the word; safe
(notes/assumptions/7.md). -/
def tableBytes (nbits w : Nat) : List Byte :=
  let bytes := wordBytes ((nbits + 7) / 8) w
  if bytes.any (fun b => marker b == .endMessage) then bytes else bytes ++ [0x03#8]

/-- The instruction the decoder reads from a word of spec/opcode_table.json, under the default catalog. -/
def decodeTableWord (nbits w : Nat) : Option Instr :=
  match decode defaultCatalog (tableBytes nbits w) with
  | .instr i _ => some i
  | _ => none

/-- Frame bytes from IDLE as long as the message goes on: the registers then, and how many bytes that took. The byte
after them completes the message, is idle, or is in error. -/
def framedAhead (cat : Catalog) (f : Framer) (bytes : List Byte) : Framer × Nat :=
  match bytes with
  | [] => (f, 0)
  | b :: rest =>
    match frameByte cat f b with
    | .more f' => let r := framedAhead cat f' rest; (r.1, r.2 + 1)
    | _ => (f, 0)

end Sys2Proof
end

