-- ==== Sys2Proof/Machine/State.lean ====
section
/-! DEFINITION. The session: every register and space the spec gives the block (10_state.md, 20_memory.md R40), the
value of each after reset (10_state.md R27, 70_reset_and_hazards.md R230), and the reasons a step can stop. -/

namespace Sys2Proof.Machine

open Sys2Proof

/-! ### Spaces (20_memory.md R40) -/

/-- The wire byte stream by offset: cells in strictly rising offsets. An unlisted offset reads as no byte, which is the
end of the stream (20_memory.md R41; notes/assumptions/8.md). -/
abbrev Memory := List Host.Cell

/-- The canonical form of a memory: offsets strictly rising. No cell can equal what an unlisted offset reads as, since
that is no byte. -/
def Memory.wf (m : Memory) : Bool :=
  match m with
  | [] => true
  | c :: rest => rest.all (fun d => decide (c.1 < d.1)) && Memory.wf rest

/-- The cells of consecutive bytes from an offset. -/
def Memory.ofBytes (base : Nat) (bytes : List Byte) : Memory :=
  match bytes with
  | [] => []
  | b :: rest => (base, b) :: Memory.ofBytes (base + 1) rest

/-- The six class flags of a traced instruction (20_memory.md R43). -/
structure ClassFlags where
  linear : Bool
  indirect : Bool
  branch : Bool
  jump : Bool
  call : Bool
  ret : Bool
  deriving DecidableEq, Repr

/-- An oracle answer `Found(class, size, dest)` (20_memory.md R43). -/
structure InstrMeta where
  cls : ClassFlags
  size : Nat
  dest : Option Addr
  deriving DecidableEq, Repr

/-- The metadata space: one record per 64-bit address (20_memory.md R40, R43). An address that is not listed has none. -/
abbrev Oracle := List (Addr × InstrMeta)

/-- One instruction record of the output (20_memory.md R46). -/
structure Record where
  address : Addr
  cls : ClassFlags
  size : Nat
  destination : Option Addr
  taken : Bool
  deriving DecidableEq, Repr

/-! ### Registers -/

/-- `status` (10_state.md R18). -/
inductive Status where
  | run
  | done
  | error
  deriving DecidableEq, Repr

/-- `errInfo` (60_exceptions.md R202). -/
structure ErrInfo where
  byteOffset : Nat
  msgIndex : Nat
  instrIndex : Nat
  detail : Detail
  deriving DecidableEq, Repr

/-- `Budget` (00_scope.md section 5.2, conflict C7). -/
inductive Budget where
  | count (n : Nat)
  | untilHist
  deriving DecidableEq, Repr

/-- `Hist` (00_scope.md section 5.2): no history, or a history value of `HIST_BITS` bits. -/
inductive Hist where
  | noHist
  | bits (h : BitVec 32)
  deriving DecidableEq, Repr

/-- The stop cause of a replay (10_state.md R26). -/
inductive Stop where
  | none
  | ret
  | other
  deriving DecidableEq, Repr

/-- What the handler of the message in dispatch does once `Settle` returned. -/
inductive After where
  /-- Nothing: the kinds with no address field. -/
  | finish
  /-- `ApplyDelta(a, rep)` (43_msg_branch.md R144). -/
  | delta (a : Addr)
  /-- `lastAddr <- a; pc <- a` (44_msg_sync.md R151). -/
  | adopt (a : Addr)
  /-- Replay the same history `left` more times (45_msg_resource_repeat_misc.md R163). -/
  | again (left : Nat)
  deriving DecidableEq, Repr

/-- The working registers of a dispatch whose replay is in progress (10_state.md R26; notes/assumptions/6.md). -/
structure Dispatch where
  msg : Instr
  n : Budget
  hist : Hist
  histLeft : Nat
  lastIndirect : Bool
  stopped : Stop
  hasAddr : Bool
  needIndirect : Bool
  after : After
  deriving DecidableEq, Repr

/-- The session (10_state.md R12). `cfg`, `wire` and `oracle` are the parameters of the run (R11, R22): no step writes
them. -/
structure State where
  cfg : Config
  wire : Memory
  oracle : Oracle
  records : List Record
  status : Status
  errCode : Option Err
  errInfo : ErrInfo
  errCount : Nat
  pos : Nat
  pc : Option Addr
  lastAddr : Addr
  pendingICNTAdjust : Int
  instrCount : Nat
  msgCount : Nat
  idleCount : Nat
  framer : Framer
  prevMsg : Option Instr
  csMem : List Addr
  csTop : Nat
  csSize : Nat
  dispatch : Option Dispatch
  repeatLeft : Option Nat
  deriving DecidableEq, Repr

/-- `errInfo` at reset: the spec leaves it unspecified until an error is raised (10_state.md R27). DESIGN CHOICE: all
zero; unsafe (notes/assumptions/1.md). -/
def ErrInfo.reset : ErrInfo := { byteOffset := 0, msgIndex := 0, instrIndex := 0, detail := .empty }

/-- Reset: the creation of a session for a configuration, a stream and an oracle (70_reset_and_hazards.md R230). The
ring's entries are unspecified and never read before written (R230); DESIGN CHOICE: zero; unsafe
(notes/assumptions/3.md). -/
def State.create (cfg : Config) (stream : List Byte) (oracle : Oracle) : State :=
  { cfg := cfg
    wire := Memory.ofBytes 0 stream
    oracle := oracle
    records := []
    status := .run
    errCode := none
    errInfo := ErrInfo.reset
    errCount := 0
    pos := 0
    pc := none
    lastAddr := 0
    pendingICNTAdjust := 0
    instrCount := 0
    msgCount := 0
    idleCount := 0
    framer := Framer.reset
    prevMsg := none
    csMem := List.replicate cfg.csDepth 0
    csTop := 0
    csSize := 0
    dispatch := none
    repeatLeft := none }

/-- The machine right after reset with the configured values of `defaultConfig` and nothing loaded: the stream and the
oracle come from the host (70_reset_and_hazards.md R232; notes/assumptions/5.md). -/
def State.reset : State := State.create defaultConfig [] []

/-! ### Why a step can stop -/

/-- The machine stops with a fault. -/
inductive Fault where
  /-- Raised by `step` when `status` is DONE: the run ended and the agent has no step (10_state.md R18). Safe. -/
  | runDone
  /-- Raised by `step` when `status` is ERROR: the agent has no step and the state is never left (10_state.md R18,
  60_exceptions.md R223). Safe. -/
  | runError
  deriving DecidableEq, Repr

/-- The model gives the situation no meaning. -/
inductive Refusal where
  /-- Raised by an arm of `exec` whose instruction has no meaning yet; no arm does. Safe. -/
  | notModelled (mnemonic : String)
  /-- Raised by a replay step when the oracle's answer is outside the table of 20_memory.md R44, which the model refuses,
  or is for an odd address, as the model reads 93_implementation_defined.md U15 (notes/assumptions/9.md). Safe. -/
  | illFormedOracleAnswer
  /-- Raised by `step` when TOLERATE_FIRST_UNKNOWN is true, which a model refuses (42_replay.md R134). Safe. -/
  | tolerateFirstUnknown
  /-- Raised by `step` when the catalog is not legal, a premise of every run (40_framer_ops.md R95,
  70_reset_and_hazards.md R240 P5), and by a byte step when the layout has no field to receive a bit. Safe. -/
  | illegalCatalog
  deriving DecidableEq, Repr

/-- The outcome of a step of this machine. -/
abbrev Answer := Host.Outcome State Fault Refusal

end Sys2Proof.Machine
end

