-- ==== Sys2Proof/Machine/Ops.lean ====
section
/-! DEFINITION. The named operations over the spaces and the registers: the wire stream, the oracle, the record output,
the call-stack ring (41_callstack.md), raising an error (60_exceptions.md R202, the block's exception entry; R223: there
is no return from it), and the end of a dispatch (40_framer_ops.md R99). -/

namespace Sys2Proof.Machine

open Sys2Proof

/-! ### The wire stream (20_memory.md R41) -/

/-- The byte at an offset; no byte where none is listed. -/
def Memory.read (m : Memory) (a : Nat) : Option Byte :=
  match m with
  | [] => none
  | c :: rest => if c.1 = a then some c.2 else Memory.read rest a

/-- Load one byte at an offset, in canonical form. Only the host loads: no step writes the stream (20_memory.md R42). -/
def Memory.write (m : Memory) (a : Nat) (b : Byte) : Memory :=
  match m with
  | [] => [(a, b)]
  | c :: rest =>
    if a < c.1 then (a, b) :: c :: rest
    else if a = c.1 then (a, b) :: rest
    else c :: Memory.write rest a b

/-- Load bytes at consecutive offsets. -/
def Memory.load (m : Memory) (a : Nat) (bytes : List Byte) : Memory :=
  match bytes with
  | [] => m
  | b :: rest => Memory.load (Memory.write m a b) (a + 1) rest

/-- `WireNext()`: the byte at `pos` and the state with `pos` advanced by one, or no byte at the end of the stream
(20_memory.md R41, 10_state.md R13). -/
def State.wireNext (s : State) : Option (Byte × State) :=
  match s.wire.read s.pos with
  | some b => some (b, { s with pos := s.pos + 1 })
  | none => none

/-! ### The oracle and the record output (20_memory.md R43 to R46) -/

/-- `Oracle(a)`: the record of an address, or not found (20_memory.md R43). -/
def Oracle.lookup (o : Oracle) (a : Addr) : Option InstrMeta :=
  match o with
  | [] => none
  | entry :: rest => if entry.1 = a then some entry.2 else Oracle.lookup rest a

/-- `Emit(rec)`: append one record (20_memory.md R45). -/
def State.emit (rec : Record) (s : State) : State := { s with records := s.records ++ [rec] }

/-! ### The call-stack replay buffer (41_callstack.md) -/

/-- `push(a)` (41_callstack.md R112). -/
def State.push (a : Addr) (s : State) : State :=
  if s.cfg.csDepth = 0 then s
  else
    match s.cfg.csMode with
    | .addressed =>
      let top := (s.csTop + 1) % s.cfg.csDepth
      { s with csTop := top, csMem := s.csMem.set top a, csSize := min (s.csSize + 1) s.cfg.csDepth }
    | .counting => { s with csSize := min (s.csSize + 1) s.cfg.csDepth }

/-- `pop()`: its result and the state after it (41_callstack.md R113). The retreat of the top index is modular: the
index before 0 is the last one. -/
def State.pop (s : State) : Option Addr × State :=
  if s.csSize = 0 then (none, s)
  else
    match s.cfg.csMode with
    | .counting => (none, { s with csSize := s.csSize - 1 })
    | .addressed =>
      (some (s.csMem.getD s.csTop 0),
        { s with csSize := s.csSize - 1, csTop := (s.csTop + s.cfg.csDepth - 1) % s.cfg.csDepth })

/-! ### Raising an error: the block's exception entry (60_exceptions.md R202) -/

/-- Is this error raised on a byte just read, so that its offset is `pos − 1`? (60_exceptions.md R202) -/
def Err.onByte : Err → Bool
  | .invalidMseo => true
  | .frameSeq => true
  | .fixedTruncated => true
  | .unknownTcode => true
  | .fieldOverflow => true
  | .truncatedMsg => false
  | .noIndirect => false
  | .unknownAddr => false
  | .callstackUnderflow => false
  | .negBudget => false
  | .unsync => false
  | .icntSplit => false
  | .indirectUnresolved => false
  | .histExhausted => false
  | .histLeftover => false
  | .histNoStop => false
  | .fieldRange => false
  | .reserved => false
  | .repeatNoPrev => false

/-- `raise E(info)`: writes `status`, `errCode`, `errInfo` and `errCount` and nothing else (60_exceptions.md R202). -/
def State.raise (e : Err) (detail : Detail) (s : State) : State :=
  { s with
    status := .error
    errCode := some e
    errInfo :=
      { byteOffset := if Err.onByte e then s.pos - 1 else s.pos
        msgIndex := s.msgCount
        instrIndex := s.instrCount
        detail := detail }
    errCount := 1 }

/-! ### The end of a dispatch (40_framer_ops.md R99) -/

/-- `prevMsg` after a message was dispatched without error (10_state.md R24, 40_framer_ops.md R99): an `Error` clears it,
a `RepeatBranch` leaves it, any other kind replaces it. The idle byte is no message and leaves it. -/
def nextPrevMsg (m : Instr) (prev : Option Instr) : Option Instr :=
  match m with
  | .error _ _ _ => none
  | .repeatBranch _ _ => prev
  | .idle _ => prev
  | _ => some m

/-- The handler of `m` returned: the working registers are dead, and `prevMsg` is updated unless this was a re-dispatch
by `RepeatBranch` (40_framer_ops.md R99, 45_msg_resource_repeat_misc.md R165). -/
def State.finish (m : Instr) (s : State) : State :=
  { s with
    dispatch := none
    prevMsg := if s.repeatLeft.isSome then s.prevMsg else nextPrevMsg m s.prevMsg }

/-- `CompleteMessage` up to the call of `Dispatch`: the message is counted and the framer is idle
(40_framer_ops.md R99). `f` holds the completed message. -/
def State.completeMessage (f : Framer) (s : State) : State :=
  { s with framer := { f with fstate := .idle }, msgCount := s.msgCount + 1 }

/-! ### What the host reads (20_memory.md R57) -/

/-- The `stat` port (20_memory.md R57). -/
structure Stat where
  status : Status
  errCode : Nat
  errInfo : ErrInfo
  pos : Nat
  msgCount : Nat
  instrCount : Nat
  errCount : Nat
  deriving DecidableEq, Repr

/-- The values on the `stat` port, readable in every state, ERROR included (20_memory.md R57). -/
def State.stat (s : State) : Stat :=
  { status := s.status, errCode := errCodeNumber s.errCode, errInfo := s.errInfo, pos := s.pos, msgCount := s.msgCount,
    instrCount := s.instrCount, errCount := s.errCount }

end Sys2Proof.Machine
end

