-- ==== Sys2Proof/Machine/Flags.lean ====
section
/-! DEFINITION. The validity marks of 10_state.md R21 and the class tests of a traced instruction: the block has no
arithmetic condition codes. -/

namespace Sys2Proof.Machine

open Sys2Proof

/-! ### Marks (10_state.md R21) -/

/-- Synchronized: `pc ≠ NONE`. -/
def State.synchronized (s : State) : Bool := s.pc.isSome

/-- A message is in progress: `fstate = FRAMING`. -/
def State.inMessage (s : State) : Bool := decide (s.framer.fstate = .framing)

/-- The previous message is valid: `prevMsg ≠ NONE`. -/
def State.prevValid (s : State) : Bool := s.prevMsg.isSome

/-- The flag `rep` of a dispatch: true when `RepeatBranch` re-dispatches (40_framer_ops.md R100). -/
def State.rep (s : State) : Bool := s.repeatLeft.isSome

/-- The index of the stop bit: `msb` of a history value (30_encoding.md R76). -/
def histLength (h : BitVec 32) : Nat := h.toNat.log2

/-- The number of branch bits of a history argument (42_replay.md R120, R121). -/
def Hist.length : Hist → Nat
  | .noHist => 0
  | .bits h => histLength h

/-- "Budget remains": the result `left` of a replay (42_replay.md R121). -/
def Budget.left : Budget → Bool
  | .untilHist => true
  | .count k => decide (0 < k)

/-- `Continue(n, histLeft)` (42_replay.md R129). -/
def Budget.continues (n : Budget) (histLeft : Nat) : Bool :=
  match n with
  | .count k => decide (0 < k)
  | .untilHist => decide (0 < histLeft)

/-- The loop condition of `Replay` (42_replay.md R121): not stopped, and `Continue`. -/
def Dispatch.goesOn (d : Dispatch) : Bool := decide (d.stopped = .none) && d.n.continues d.histLeft

/-! ### Class tests of a traced instruction -/

/-- The well-formed oracle answers: the table of 20_memory.md R44. A `CALL` may carry `JUMP` or not. -/
def InstrMeta.wf (m : InstrMeta) : Bool :=
  (decide (m.size = 2) || decide (m.size = 4)) &&
  match m.cls with
  | ⟨true, false, false, false, false, false⟩ => m.dest.isNone
  | ⟨false, false, true, false, false, false⟩ => m.dest.isSome
  | ⟨false, false, false, true, false, false⟩ => m.dest.isSome
  | ⟨false, true, false, true, false, false⟩ => m.dest.isNone
  | ⟨false, false, false, _, true, false⟩ => m.dest.isSome
  | ⟨false, true, false, _, true, false⟩ => m.dest.isNone
  | ⟨false, true, false, true, false, true⟩ => m.dest.isNone
  | _ => false

/-- A well-formed answer for an address: a row of that table (20_memory.md R44), for an even address. The second part is
the model's reading of 93_implementation_defined.md U15 (DEDUCED, notes/assumptions/9.md); the destination is used as it
is (20_memory.md R48). -/
def InstrMeta.wfAt (m : InstrMeta) (a : Addr) : Bool := !a.getLsbD 0 && m.wf

/-- The retirement unit: 2 for a 4-byte instruction, else 1 (42_replay.md R123, conflict C1). -/
def InstrMeta.units (m : InstrMeta) : Nat := if m.size = 4 then 2 else 1

/-- The address after an instruction, modulo 2^64 (42_replay.md R125, R128). -/
def InstrMeta.nextAddr (m : InstrMeta) (pc : Addr) : Addr := pc + BitVec.ofNat 64 m.size

/-- The class of a record: `LINEAR` is added for a branch not taken (42_replay.md R124, 20_memory.md R46). -/
def recordClass (cls : ClassFlags) (taken : Bool) : ClassFlags :=
  if cls.branch && !taken then { cls with linear := true } else cls

/-- Does a budget charge of `u` units split an instruction? (42_replay.md R122) -/
def Budget.splits (n : Budget) (u : Nat) : Bool :=
  match n with
  | .count k => decide (k < u)
  | .untilHist => false

/-- The budget after `u` units: a counted one shrinks, an `UntilHist` one does not (42_replay.md R123). -/
def Budget.charge (n : Budget) (u : Nat) : Budget :=
  match n with
  | .count k => .count (k - u)
  | .untilHist => .untilHist

/-- Is a direct instruction taken? (42_replay.md R127) With a history the bit at the decremented `histLeft` decides; with
none a branch is taken exactly when the charged budget is 0. -/
def directTaken (cls : ClassFlags) (hist : Hist) (histLeft : Nat) (charged : Budget) : Bool :=
  if cls.branch then
    match hist with
    | .noHist => decide (charged = .count 0)
    | .bits h => h.getLsbD (histLeft - 1)
  else cls.jump || cls.call

/-- The unconsumed history bits after a direct instruction: a branch with a history consumes one (42_replay.md R127). -/
def directHistLeft (cls : ClassFlags) (hist : Hist) (histLeft : Nat) : Nat :=
  if cls.branch then
    match hist with
    | .noHist => histLeft
    | .bits _ => histLeft - 1
  else histLeft

end Sys2Proof.Machine
end

