-- ==== Sys2Proof/Machine/Operands.lean ====
section
/-! DEFINITION. The operand forms of the handlers: the address field (43_msg_branch.md R140), the history field
(42_replay.md R120) and the counted budget (42_replay.md R131). Each takes the rest of the handler and does not run it
when it raises. -/

namespace Sys2Proof.Machine

open Sys2Proof

/-- The address an in-range field value stands for: `zext_64(v) << 1` (30_encoding.md R67). -/
def fieldAddr (v : Nat) : Addr := BitVec.ofNat 64 v <<< 1

/-- `AddrOf(v)`: raises `E_FIELD_RANGE` from 2^63 on (43_msg_branch.md R140). -/
def withAddr (v : Operand) (s : State) (k : Addr → State) : State :=
  if v.val < 2 ^ addrFieldWidth then k (fieldAddr v.val) else s.raise .fieldRange .empty

/-- `HistOf(v)`: raises `E_HIST_NO_STOP` on 0 and `E_FIELD_RANGE` from 2^32 on (42_replay.md R120). -/
def withHist (v : Operand) (s : State) (k : Hist → State) : State :=
  if v.val = 0 then s.raise .histNoStop .empty
  else if v.val < 2 ^ histWidth then k (.bits (BitVec.ofNat 32 v.val))
  else s.raise .fieldRange .empty

/-- `TakeBudget(icnt)`: the count plus the pending adjustment, which is cleared even when the sum is negative and
`E_NEG_BUDGET` is raised (42_replay.md R131). -/
def withBudget (icnt : Operand) (s : State) (k : Nat → State → State) : State :=
  let b : Int := (icnt.val : Int) + s.pendingICNTAdjust
  let s' := { s with pendingICNTAdjust := 0 }
  if b < 0 then s'.raise .negBudget .empty else k b.toNat s'

end Sys2Proof.Machine
end

