-- ==== Sys2Proof/Machine/Replay.lean ====
section
/-! DEFINITION. The PC-replay procedure (42_replay.md): opening a replay, one replay step (R122 to R128), `Settle`
(R132) and what a handler does after it. One replayed instruction is one step of the machine
(70_reset_and_hazards.md R243; notes/assumptions/6.md). -/

namespace Sys2Proof.Machine

open Sys2Proof

/-- The replay loop's registers on entry to `Replay(budget, hist)` (42_replay.md R121), inside the handler of `m`. -/
def openDispatch (m : Instr) (budget : Budget) (hist : Hist) (hasAddr needIndirect : Bool) (after : After) : Dispatch :=
  { msg := m, n := budget, hist := hist, histLeft := hist.length, lastIndirect := false, stopped := .none,
    hasAddr := hasAddr, needIndirect := needIndirect, after := after }

/-- Enter `Replay`, to be followed by `Settle(res, hasAddr, needIndirect)` and `after`. -/
def State.openReplay (m : Instr) (budget : Budget) (hist : Hist) (hasAddr needIndirect : Bool) (after : After)
    (s : State) : State :=
  { s with dispatch := some (openDispatch m budget hist hasAddr needIndirect after) }

/-- The first effects of a step that passed its checks: one more instruction is counted and a call pushes its return
address (42_replay.md R123, R125). The budget is charged in the working registers. -/
def countAndPush (pc : Addr) (m : InstrMeta) (s : State) : State :=
  let s1 := { s with instrCount := s.instrCount + 1 }
  if m.cls.call then s1.push (m.nextAddr pc) else s1

/-- Step, part 4b: an indirect instruction (42_replay.md R126). Its record is emitted; a return pops, and in ADDRESSED
mode goes on at a popped address; otherwise the replay stops and `pc` stays. -/
def replayIndirect (pc : Addr) (m : InstrMeta) (d : Dispatch) (s : State) : State :=
  let s1 := s.emit { address := pc, cls := m.cls, size := m.size, destination := none, taken := true }
  if m.cls.ret then
    let popped := s1.pop
    match popped.2.cfg.csMode, popped.1 with
    | .addressed, some r => { popped.2 with pc := some r, dispatch := some { d with lastIndirect := true } }
    | _, _ => { popped.2 with dispatch := some { d with lastIndirect := true, stopped := .ret } }
  else { s1 with dispatch := some { d with lastIndirect := true, stopped := .other } }

/-- Step, parts 4c and 5: a direct instruction (42_replay.md R127, R128). A taken one has a destination, by the
well-formedness of the answer (20_memory.md R44). -/
def replayDirect (pc : Addr) (m : InstrMeta) (d : Dispatch) (s : State) : State :=
  let taken := directTaken m.cls d.hist d.histLeft d.n
  let s1 := s.emit
    { address := pc, cls := recordClass m.cls taken, size := m.size, destination := m.dest, taken := taken }
  { s1 with
    pc := if taken then m.dest else some (m.nextAddr pc)
    dispatch := some
      { d with lastIndirect := false, histLeft := directHistLeft m.cls d.hist d.histLeft } }

/-- A step that passed the checks of R122 (42_replay.md R123 to R128). -/
def replayInstr (pc : Addr) (m : InstrMeta) (d : Dispatch) (s : State) : State :=
  let charged := { d with n := d.n.charge m.units }
  let s1 := countAndPush pc m s
  if m.cls.indirect then replayIndirect pc m charged s1 else replayDirect pc m charged s1

/-- Does the step meet a branch with a history and no bit left? (42_replay.md R122) -/
def histExhausted (cls : ClassFlags) (d : Dispatch) : Bool :=
  cls.branch && decide (d.hist ≠ .noHist) && decide (d.histLeft = 0)

/-- `ReplayStep()`: the four checks in order, then the instruction (42_replay.md R122). An answer outside the table of
20_memory.md R44 is refused, and one for an odd address, the model's reading of 93_implementation_defined.md U15
(notes/assumptions/9.md). -/
def replayStep (d : Dispatch) (s : State) : Answer :=
  match s.pc with
  | none => .next (s.raise .unsync .empty)
  | some pc =>
    match s.oracle.lookup pc with
    | none => .next (s.raise .unknownAddr (.address pc))
    | some m =>
      if !m.wfAt pc then .refused .illFormedOracleAnswer
      else if d.n.splits m.units then .next (s.raise .icntSplit (.address pc))
      else if histExhausted m.cls d then .next (s.raise .histExhausted (.address pc))
      else .next (replayInstr pc m d s)

/-! ### Settling a replay (42_replay.md R132) -/

/-- The address an error of `Settle` names: `pc`. -/
def pcDetail (s : State) : Detail :=
  match s.pc with
  | some a => .address a
  | none => .empty

/-- `Settle(res, hasAddr, needIndirect)`, then the rest of the handler unless it raises (42_replay.md R132). -/
def withSettled (d : Dispatch) (s : State) (k : State → State) : State :=
  if d.stopped = .ret ∧ d.n.left then s.raise .callstackUnderflow (pcDetail s)
  else if d.stopped = .other ∧ d.n.left then s.raise .indirectUnresolved (pcDetail s)
  else if 0 < d.histLeft then s.raise .histLeftover .empty
  else if d.needIndirect ∧ ¬ d.lastIndirect then s.raise .noIndirect .empty
  else if ¬ d.hasAddr ∧ d.stopped ≠ .none then k { s with pc := none }
  else k s

/-- `ApplyDelta(a, rep)` (43_msg_branch.md R144, conflict C3): a re-dispatch applies delta 0. -/
def State.applyDelta (a : Addr) (s : State) : State :=
  let base := if s.rep then s.lastAddr else s.lastAddr ^^^ a
  { s with lastAddr := base, pc := some base }

/-- Adopt an absolute address (44_msg_sync.md R151). -/
def State.adoptAddr (a : Addr) (s : State) : State := { s with lastAddr := a, pc := some a }

/-- What the handler does after `Settle`, its end included. -/
def runAfter (d : Dispatch) (s : State) : State :=
  match d.after with
  | .finish => s.finish d.msg
  | .delta a => (s.applyDelta a).finish d.msg
  | .adopt a => (s.adoptAddr a).finish d.msg
  | .again 0 => s.finish d.msg
  | .again (left + 1) => s.openReplay d.msg .untilHist d.hist d.hasAddr d.needIndirect (.again left)

/-- The replay loop is over: settle it and end the handler. -/
def closeReplay (d : Dispatch) (s : State) : State := withSettled d s (runAfter d)

/-- One step of a dispatch in progress: a replayed instruction while the loop goes on (42_replay.md R121), else its
close. -/
def dispatchStep (d : Dispatch) (s : State) : Answer :=
  if d.goesOn then replayStep d s else .next (closeReplay d s)

end Sys2Proof.Machine
end

