-- ==== Sys2Proof/Machine/Branch.lean ====
section
/-! DEFINITION. The branch messages (43_msg_branch.md): the meanings of DirectBranch, IndirectBranch and
IndirectBranchHist. -/

namespace Sys2Proof.Machine

open Sys2Proof

/-- `DirectBranch` (43_msg_branch.md R141). -/
def execDirectBranch (icnt tstamp : Operand) (s : State) : Answer :=
  .next <| withBudget icnt s fun b s =>
    s.openReplay (.directBranch icnt tstamp) (.count b) .noHist false false .finish

/-- `IndirectBranch` (43_msg_branch.md R142). `BTYPE` is not interpreted. -/
def execIndirectBranch (btype : Nat) (icnt uaddr tstamp : Operand) (s : State) : Answer :=
  .next <| withAddr uaddr s fun a =>
    withBudget icnt s fun b s =>
      s.openReplay (.indirectBranch btype icnt uaddr tstamp) (.count b) .noHist true true (.delta a)

/-- `IndirectBranchHist` (43_msg_branch.md R143). `BTYPE` is not interpreted. -/
def execIndirectBranchHist (btype : Nat) (icnt uaddr hist tstamp : Operand) (s : State) : Answer :=
  .next <| withAddr uaddr s fun a =>
    withHist hist s fun h =>
      withBudget icnt s fun b s =>
        s.openReplay (.indirectBranchHist btype icnt uaddr hist tstamp) (.count b) h true true (.delta a)

end Sys2Proof.Machine
end

