-- ==== Sys2Proof/Machine/Misc.lean ====
section
/-! DEFINITION. ProgTraceCorrelation, Error, Ownership (45_msg_resource_repeat_misc.md R167 to R170) and the idle byte
(40_framer_ops.md R93). -/

namespace Sys2Proof.Machine

open Sys2Proof

/-- `ProgTraceCorrelation` with CDF 0 (45_msg_resource_repeat_misc.md R167). `EVCODE` is not interpreted. -/
def execProgTraceCorrelation0 (evcode : Nat) (icnt tstamp : Operand) (s : State) : Answer :=
  .next <| withBudget icnt s fun b s =>
    s.openReplay (.progTraceCorrelation0 evcode icnt tstamp) (.count b) .noHist false false .finish

/-- `ProgTraceCorrelation` with CDF 1 (45_msg_resource_repeat_misc.md R167). -/
def execProgTraceCorrelation1 (evcode : Nat) (icnt hist tstamp : Operand) (s : State) : Answer :=
  .next <| withHist hist s fun h =>
    withBudget icnt s fun b s =>
      s.openReplay (.progTraceCorrelation1 evcode icnt hist tstamp) (.count b) h false false .finish

/-- `ProgTraceCorrelation` with CDF 2 or 3: reserved (45_msg_resource_repeat_misc.md R168). -/
def execProgTraceCorrelationReserved (_evcode _cdf : Nat) (_icnt _tstamp : Operand) (s : State) : Answer :=
  .next (s.raise .reserved .empty)

/-- `Error` (45_msg_resource_repeat_misc.md R169): the trace source lost messages; no error of the block. -/
def execError (etype : Nat) (pad tstamp : Operand) (s : State) : Answer :=
  .next <| State.finish (.error etype pad tstamp) { s with pc := none, pendingICNTAdjust := 0, csSize := 0 }

/-- `Ownership` (45_msg_resource_repeat_misc.md R170): parsed, not interpreted. -/
def execOwnership (process tstamp : Operand) (s : State) : Answer :=
  .next <| s.finish (.ownership process tstamp)

/-- The idle byte (40_framer_ops.md R93). -/
def execIdle (_payload : Payload) (s : State) : Answer :=
  .next { s with idleCount := s.idleCount + 1 }

end Sys2Proof.Machine
end

