-- ==== Sys2Proof/Machine/Resource.lean ====
section
/-! DEFINITION. ResourceFull and RepeatBranch (45_msg_resource_repeat_misc.md R160 to R166). -/

namespace Sys2Proof.Machine

open Sys2Proof

/-- A history replay with no count, to be made `1 + left` times (45_msg_resource_repeat_misc.md R162, R163). -/
def historyFull (m : Instr) (rdata : Operand) (left : Nat) (s : State) : State :=
  withHist rdata s fun h => s.openReplay m .untilHist h false false (.again left)

/-- `ResourceFull`, RCODE 0: the count overflow (45_msg_resource_repeat_misc.md R161). -/
def execResourceFull0 (rdata tstamp : Operand) (s : State) : Answer :=
  .next <| State.finish (.resourceFull0 rdata tstamp)
    { s with pendingICNTAdjust := s.pendingICNTAdjust + (rdata.val : Int) }

/-- `ResourceFull`, RCODE 1: history full (45_msg_resource_repeat_misc.md R162). -/
def execResourceFull1 (rdata tstamp : Operand) (s : State) : Answer :=
  .next <| historyFull (.resourceFull1 rdata tstamp) rdata 0 s

/-- `ResourceFull`, RCODE 2: history full, replayed `1 + HREPEAT` times (45_msg_resource_repeat_misc.md R163). -/
def execResourceFull2 (rdata hrepeat tstamp : Operand) (s : State) : Answer :=
  .next <| historyFull (.resourceFull2 rdata hrepeat tstamp) rdata hrepeat.val s

/-- `ResourceFull`, RCODE 3 to 15: reserved (45_msg_resource_repeat_misc.md R164). -/
def execResourceFullReserved (_rcode : Nat) (_rdata _tstamp : Operand) (s : State) : Answer :=
  .next (s.raise .reserved .empty)

/-- `RepeatBranch` (45_msg_resource_repeat_misc.md R165): with a message to repeat, the loop of re-dispatches begins;
each turn is a step of its own (notes/assumptions/6.md). -/
def execRepeatBranch (bcnt _tstamp : Operand) (s : State) : Answer :=
  match s.prevMsg with
  | none => .next (s.raise .repeatNoPrev .empty)
  | some _ => .next { s with repeatLeft := some bcnt.val }

end Sys2Proof.Machine
end

