-- ==== Sys2Proof/Machine/Sync.lean ====
section
/-! DEFINITION. The synchronisation messages (44_msg_sync.md): their common procedure and the meanings of
ProgTraceSync, DirectBranchSync, IndirectBranchSync and IndirectBranchHistSync. -/

namespace Sys2Proof.Machine

open Sys2Proof

/-- `SyncCommon` from its test of `pc` on (44_msg_sync.md R151): unsynchronized, the count and a pending adjustment are
dropped and the address is adopted; synchronized, the count is replayed first. -/
def syncFrom (m : Instr) (icnt : Operand) (a : Addr) (hist : Hist) (needIndirect : Bool) (s : State) : State :=
  match s.pc with
  | none => (State.adoptAddr a { s with pendingICNTAdjust := 0 }).finish m
  | some _ => withBudget icnt s fun b s => s.openReplay m (.count b) hist true needIndirect (.adopt a)

/-- `SyncCommon(m, NoHist, needIndirect)` (44_msg_sync.md R151). -/
def syncCommon (m : Instr) (icnt faddr : Operand) (needIndirect : Bool) (s : State) : State :=
  withAddr faddr s fun a => syncFrom m icnt a .noHist needIndirect s

/-- `ProgTraceSync` (44_msg_sync.md R152). `SYNC` is not interpreted. -/
def execProgTraceSync (sync : Nat) (icnt faddr tstamp : Operand) (s : State) : Answer :=
  .next <| syncCommon (.progTraceSync sync icnt faddr tstamp) icnt faddr false s

/-- `DirectBranchSync` (44_msg_sync.md R153). -/
def execDirectBranchSync (sync : Nat) (icnt faddr tstamp : Operand) (s : State) : Answer :=
  .next <| syncCommon (.directBranchSync sync icnt faddr tstamp) icnt faddr false s

/-- `IndirectBranchSync` (44_msg_sync.md R154). -/
def execIndirectBranchSync (sync btype : Nat) (icnt faddr tstamp : Operand) (s : State) : Answer :=
  .next <| syncCommon (.indirectBranchSync sync btype icnt faddr tstamp) icnt faddr true s

/-- `IndirectBranchHistSync` (44_msg_sync.md R155): the history is validated in both cases, after the address. -/
def execIndirectBranchHistSync (sync btype : Nat) (icnt faddr hist tstamp : Operand) (s : State) : Answer :=
  .next <| withAddr faddr s fun a =>
    withHist hist s fun h =>
      syncFrom (.indirectBranchHistSync sync btype icnt faddr hist tstamp) icnt a h true s

end Sys2Proof.Machine
end

