-- ==== Sys2Proof/Machine/Dispatch.lean ====
section
/-! DEFINITION. `Dispatch(m, rep)` (40_framer_ops.md R100): the meaning of each instruction. -/

namespace Sys2Proof.Machine

open Sys2Proof

/-- The meaning of an instruction in a state (40_framer_ops.md R100). -/
def exec (i : Instr) (s : State) : Host.Outcome State Fault Refusal :=
  match i with
  | .ownership process tstamp => Sys2Proof.Machine.execOwnership process tstamp s
  | .directBranch icnt tstamp => Sys2Proof.Machine.execDirectBranch icnt tstamp s
  | .indirectBranch btype icnt uaddr tstamp => Sys2Proof.Machine.execIndirectBranch btype icnt uaddr tstamp s
  | .error etype pad tstamp => Sys2Proof.Machine.execError etype pad tstamp s
  | .progTraceSync sync icnt faddr tstamp => Sys2Proof.Machine.execProgTraceSync sync icnt faddr tstamp s
  | .directBranchSync sync icnt faddr tstamp => Sys2Proof.Machine.execDirectBranchSync sync icnt faddr tstamp s
  | .indirectBranchSync sync btype icnt faddr tstamp => Sys2Proof.Machine.execIndirectBranchSync sync btype icnt faddr tstamp s
  | .resourceFull0 rdata tstamp => Sys2Proof.Machine.execResourceFull0 rdata tstamp s
  | .resourceFull1 rdata tstamp => Sys2Proof.Machine.execResourceFull1 rdata tstamp s
  | .resourceFull2 rdata hrepeat tstamp => Sys2Proof.Machine.execResourceFull2 rdata hrepeat tstamp s
  | .resourceFullReserved rcode rdata tstamp => Sys2Proof.Machine.execResourceFullReserved rcode rdata tstamp s
  | .indirectBranchHist btype icnt uaddr hist tstamp => Sys2Proof.Machine.execIndirectBranchHist btype icnt uaddr hist tstamp s
  | .indirectBranchHistSync sync btype icnt faddr hist tstamp => Sys2Proof.Machine.execIndirectBranchHistSync sync btype icnt faddr hist tstamp s
  | .repeatBranch bcnt tstamp => Sys2Proof.Machine.execRepeatBranch bcnt tstamp s
  | .progTraceCorrelation0 evcode icnt tstamp => Sys2Proof.Machine.execProgTraceCorrelation0 evcode icnt tstamp s
  | .progTraceCorrelation1 evcode icnt hist tstamp => Sys2Proof.Machine.execProgTraceCorrelation1 evcode icnt hist tstamp s
  | .progTraceCorrelationReserved evcode cdf icnt tstamp => Sys2Proof.Machine.execProgTraceCorrelationReserved evcode cdf icnt tstamp s
  | .idle payload => Sys2Proof.Machine.execIdle payload s

end Sys2Proof.Machine
end

