-- ==== Sys2Proof/Machine/Sequencer.lean ====
section
/-! DEFINITION. What the block does next (40_framer_ops.md R101, 70_reset_and_hazards.md R243): a step of the dispatch in
progress, a turn of a `RepeatBranch` loop, or one wire byte. `Step.lean` only runs the instruction this selects. -/

namespace Sys2Proof.Machine

open Sys2Proof

/-- What the next step is: an outcome, or an instruction to run in a state. -/
inductive Plan where
  | answer (o : Answer)
  | run (i : Instr) (s : State)
  deriving Repr

/-- `EndOfStream()` (40_framer_ops.md R91). -/
def endOfStream (s : State) : State :=
  match s.framer.fstate with
  | .idle => { s with status := .done }
  | .framing => s.raise .truncatedMsg .empty

/-- The byte just read, through the framer (40_framer_ops.md R101). The state has `pos` past the byte. A framing error
leaves the framer registers with the partial message (60_exceptions.md R222). -/
def planByte (b : Byte) (s : State) : Plan :=
  match frameByte s.cfg.catalog s.framer b with
  | .idle p => .run (.idle p) s
  | .more f => .answer (.next { s with framer := f })
  | .message f => .run f.instr (s.completeMessage f)
  | .error e detail f => .answer (.next (State.raise e detail { s with framer := f }))
  | .illegal => .answer (.refused .illegalCatalog)

/-- `Step()` between dispatches: one byte, or the end of the stream (40_framer_ops.md R101). -/
def planFetch (s : State) : Plan :=
  match s.wireNext with
  | none => .answer (.next (endOfStream s))
  | some (b, s') => planByte b s'

/-- One turn of the `RepeatBranch` loop (45_msg_resource_repeat_misc.md R165): the message retained is dispatched again,
or the loop is over. A loop with no message retained cannot be reached; it raises as `RepeatBranch` does
(notes/assumptions/16.md). -/
def planRepeat (left : Nat) (s : State) : Plan :=
  match left with
  | 0 => .answer (.next { s with repeatLeft := none })
  | left + 1 =>
    match s.prevMsg with
    | some m => .run m { s with repeatLeft := some left }
    | none => .answer (.next (s.raise .repeatNoPrev .empty))

/-- What a running block does next. -/
def planRun (s : State) : Plan :=
  match s.dispatch with
  | some d => .answer (dispatchStep d s)
  | none =>
    match s.repeatLeft with
    | some left => planRepeat left s
    | none => planFetch s

/-- What the block does next. A step is enabled only while `status = RUN` (40_framer_ops.md R101); the configuration
`TOLERATE_FIRST_UNKNOWN = true` (42_replay.md R134) and a catalog that is not legal (70_reset_and_hazards.md R240 P5) are
refused. -/
def plan (s : State) : Plan :=
  if s.cfg.tolerateFirstUnknown then .answer (.refused .tolerateFirstUnknown)
  else if !s.cfg.catalog.legal then .answer (.refused .illegalCatalog)
  else
    match s.status with
    | .done => .answer (.fault .runDone)
    | .error => .answer (.fault .runError)
    | .run => planRun s

/-- The state in which the bytes of an instruction stand at the head of the stream and the framer has taken all of them
but the one that completes it, so that the next byte step runs it (40_framer_ops.md R101 runs an instruction in the step
of its last byte). No dispatch is in progress and the block runs. -/
def State.placeBytes (bytes : List Byte) (s : State) : State :=
  let ahead := framedAhead s.cfg.catalog { s.framer with fstate := .idle } bytes
  { s with
    wire := Memory.load s.wire s.pos bytes
    status := .run
    pos := s.pos + ahead.2
    framer := ahead.1
    dispatch := none
    repeatLeft := none }

end Sys2Proof.Machine
end

