-- ==== Sys2Proof/Machine/Step.lean ====
section
/-! DEFINITION. The step function (40_framer_ops.md R101, 70_reset_and_hazards.md R243) and the placing of a word where
the next step runs it. -/

namespace Sys2Proof.Machine

open Sys2Proof

/-- One step: what the sequencer selects, with the selected instruction run by its meaning. -/
def step (s : State) : Host.Outcome State Fault Refusal :=
  match plan s with
  | .answer o => o
  | .run i s' => exec i s'

/-- The instruction of a table word, placed so that the next step runs it: its bytes stand in the wire stream from `pos`
on, and the framer has taken the bytes before its last (notes/assumptions/7.md). -/
def State.withFetchWord (s : State) (nbits w : Nat) : State := s.placeBytes (tableBytes nbits w)

end Sys2Proof.Machine
end

