-- ==== Sys2Proof/Machine/Text.lean ====
section
/-! DEFINITION. The canonical text line of an instruction record (30_encoding.md R84). Printing is outside the block; the
line is how records are written down and compared. -/

namespace Sys2Proof.Machine

open Sys2Proof

/-- A number in lower-case hexadecimal with no leading zeros, after `0x` (30_encoding.md R84). -/
def hexText (v : Nat) : String := "0x" ++ String.ofList (Nat.toDigits 16 v)

/-- The type letter and flags of a record (30_encoding.md R84): `N` on a branch not taken, `I` on an indirect jump or
call, neither on a return. -/
def typeText (cls : ClassFlags) (taken : Bool) : String :=
  if cls.ret then "R"
  else if cls.call then (if cls.indirect then "CI" else "C")
  else if cls.jump then (if cls.indirect then "JI" else "J")
  else if cls.branch then (if taken then "B" else "BN")
  else "L"

/-- The text line of a record (30_encoding.md R84). -/
def Record.line (r : Record) : String :=
  hexText r.address.toNat ++ "," ++ typeText r.cls r.taken ++ String.ofList (Nat.toDigits 10 r.size) ++
  match r.destination with
  | some d => "," ++ hexText d.toNat
  | none => ""

end Sys2Proof.Machine
end

