-- ==== Sys2Proof/Safety.lean ====
section
/-! DEFINITION. The terms statements use: the invariant of a session, the framer's invariant under a legal catalog, and
the contents of the call-stack ring as a bounded deque (41_callstack.md R118). -/

namespace Sys2Proof.Machine

open Sys2Proof

/-! ### Kinds of instructions -/

/-- A message of a kind that `prevMsg` retains: neither `RepeatBranch` nor `Error` (10_state.md R24), nor the idle
byte. -/
def retainable : Instr → Bool
  | .ownership _ _ => true
  | .directBranch _ _ => true
  | .indirectBranch _ _ _ _ => true
  | .error _ _ _ => false
  | .progTraceSync _ _ _ _ => true
  | .directBranchSync _ _ _ _ => true
  | .indirectBranchSync _ _ _ _ _ => true
  | .resourceFull0 _ _ => true
  | .resourceFull1 _ _ => true
  | .resourceFull2 _ _ _ => true
  | .resourceFullReserved _ _ _ => true
  | .indirectBranchHist _ _ _ _ _ => true
  | .indirectBranchHistSync _ _ _ _ _ _ => true
  | .repeatBranch _ _ => false
  | .progTraceCorrelation0 _ _ _ => true
  | .progTraceCorrelation1 _ _ _ _ => true
  | .progTraceCorrelationReserved _ _ _ _ => true
  | .idle _ => false

/-- The four synchronisation kinds (44_msg_sync.md). -/
def isSync : Instr → Bool
  | .ownership _ _ => false
  | .directBranch _ _ => false
  | .indirectBranch _ _ _ _ => false
  | .error _ _ _ => false
  | .progTraceSync _ _ _ _ => true
  | .directBranchSync _ _ _ _ => true
  | .indirectBranchSync _ _ _ _ _ => true
  | .resourceFull0 _ _ => false
  | .resourceFull1 _ _ => false
  | .resourceFull2 _ _ _ => false
  | .resourceFullReserved _ _ _ => false
  | .indirectBranchHist _ _ _ _ _ => false
  | .indirectBranchHistSync _ _ _ _ _ _ => true
  | .repeatBranch _ _ => false
  | .progTraceCorrelation0 _ _ _ => false
  | .progTraceCorrelation1 _ _ _ _ => false
  | .progTraceCorrelationReserved _ _ _ _ => false
  | .idle _ => false

/-! ### The session's invariant -/

/-- An address whose bit 0 is 0, as every address recovered from the wire is (30_encoding.md R67). -/
def evenAddr (a : Addr) : Prop := a.getLsbD 0 = false

/-- What follows the replay agrees with the arguments of `Settle` (42_replay.md R132) of the kind that opened it. -/
def AfterOk (d : Dispatch) : Prop :=
  match d.after with
  | .finish => d.hasAddr = false ∧ d.needIndirect = false
  | .delta a => d.hasAddr = true ∧ d.needIndirect = true ∧ evenAddr a
  | .adopt a => d.hasAddr = true ∧ evenAddr a
  | .again _ => d.hasAddr = false ∧ d.needIndirect = false ∧ d.n = .untilHist

/-- The working registers of a dispatch (10_state.md R26) agree with one another and with `pc`. -/
structure DispatchOk (s : State) (d : Dispatch) : Prop where
  /-- No more bits are left than the history has. -/
  histBound : d.histLeft ≤ d.hist.length
  /-- A history has a stop bit (30_encoding.md R76). -/
  stopBit : ∀ h, d.hist = .bits h → h ≠ 0
  /-- An `UntilHist` replay has a history (42_replay.md R127). -/
  untilHasHist : d.n = .untilHist → d.hist ≠ .noHist
  /-- A replay stops only at an indirect instruction (42_replay.md R126). -/
  stopIsIndirect : d.stopped ≠ .none → d.lastIndirect = true
  /-- While unsynchronized nothing was replayed (42_replay.md R122), and no sync message is replaying (44_msg_sync.md
  R151). -/
  unsync : s.pc = none → d.lastIndirect = false ∧ ∀ a, d.after ≠ .adopt a
  /-- The message in dispatch is one that `prevMsg` retains. -/
  msgRetained : retainable d.msg = true
  afterOk : AfterOk d

/-- The invariant of a session: it holds at reset, and every step keeps it. -/
structure SessionInv (s : State) : Prop where
  /-- The stream is in canonical form. -/
  wireCanonical : Memory.wf s.wire = true
  /-- The ring has `CS_DEPTH` entries (10_state.md R25). -/
  ringLength : s.csMem.length = s.cfg.csDepth
  /-- `cs_size` is in `0 .. D` (10_state.md R25). -/
  ringSize : s.csSize ≤ s.cfg.csDepth
  /-- `cs_top` is in `0 .. D−1`, 0 when `D = 0` (10_state.md R25). -/
  ringTop : s.csTop < s.cfg.csDepth ∨ s.csTop = 0
  /-- `instrCount` is the number of records emitted (10_state.md R17, 42_replay.md R122). -/
  recordCount : s.instrCount = s.records.length
  /-- Records only for addresses for which the oracle has a well-formed answer (70_reset_and_hazards.md R241). -/
  recordsKnown : ∀ r ∈ s.records, ∃ m, s.oracle.lookup r.address = some m ∧ m.wfAt r.address = true ∧ r.size = m.size
  /-- At most one error (10_state.md R20), and ERROR exactly when there was one (R18, R19). -/
  errorStatus : s.status = .error ↔ s.errCode.isSome = true
  errorOnce : s.errCount = if s.errCode.isSome then 1 else 0
  /-- The adjustment is never negative (90_conflicts.md C9). -/
  adjustNonneg : 0 ≤ s.pendingICNTAdjust
  /-- `E_NEG_BUDGET` is unreachable (60_exceptions.md R211). -/
  noNegBudget : s.errCode ≠ some .negBudget
  /-- `prevMsg` holds no `RepeatBranch` and no `Error` (10_state.md R24). -/
  prevRetained : ∀ m, s.prevMsg = some m → retainable m = true
  /-- The delta base is even (30_encoding.md R67). -/
  baseEven : evenAddr s.lastAddr
  /-- No message is being framed during a dispatch (40_framer_ops.md R99). -/
  dispatchIdle : s.dispatch.isSome = true ∨ s.repeatLeft.isSome = true → s.framer.fstate = .idle
  /-- A `RepeatBranch` loop has a message to repeat (45_msg_resource_repeat_misc.md R165). -/
  repeatHasPrev : s.repeatLeft.isSome = true → s.prevMsg.isSome = true
  working : ∀ d, s.dispatch = some d → DispatchOk s d

/-! ### The framer's invariant -/

/-- The framer registers of a message in progress: the active field exists, the fields received are TCODE and those
before it, and a fixed field still lacks bits (40_framer_ops.md R95, R96). -/
def FramerOk (cat : Catalog) (f : Framer) : Prop :=
  f.fstate = .framing →
    ∃ e, cat.byKind f.kind = some e ∧ f.fidx < (e.layout f.fields).length ∧
      (∀ name, (Fields.get f.fields name).isSome = true ↔
        name = .TCODE ∨ ∃ j spec, j < f.fidx ∧ (e.layout f.fields)[j]? = some spec ∧ spec.name = name) ∧
      (∀ spec w, (e.layout f.fields)[f.fidx]? = some spec → spec.kind = .fixed w →
        f.accBits < w ∨ (w = 0 ∧ f.accBits = 0))

/-! ### The call stack as a bounded deque -/

/-- The live entries of the ring, the newest first (41_callstack.md R116, R118). -/
def ringContents (s : State) : List Addr :=
  (List.range s.csSize).map fun i => s.csMem.getD ((s.csTop + s.cfg.csDepth - i) % s.cfg.csDepth) 0

/-- The ring's registers are in range (10_state.md R25). -/
structure RingOk (s : State) : Prop where
  length : s.csMem.length = s.cfg.csDepth
  size : s.csSize ≤ s.cfg.csDepth
  top : s.csTop < s.cfg.csDepth ∨ s.csTop = 0

/-- Push addresses one after another. -/
def pushAll (as : List Addr) (s : State) : State := as.foldl (fun s a => s.push a) s

/-- Pop `n` times: the results in order, and the state after. -/
def popMany : Nat → State → List (Option Addr) × State
  | 0, s => ([], s)
  | n + 1, s => let p := s.pop; let q := popMany n p.2; (p.1 :: q.1, q.2)

/-! ### Running -/

/-- The block runs, its configuration is one the model runs, and no dispatch is in progress: the next step takes a wire
byte. -/
structure Fetching (s : State) : Prop where
  running : s.status = .run
  tolerance : s.cfg.tolerateFirstUnknown = false
  catalog : s.cfg.catalog.legal = true
  noDispatch : s.dispatch = none
  noRepeat : s.repeatLeft = none

/-- The block runs and the dispatch `d` is in progress: the next step is one of its steps. -/
structure Dispatching (s : State) (d : Dispatch) : Prop where
  running : s.status = .run
  tolerance : s.cfg.tolerateFirstUnknown = false
  catalog : s.cfg.catalog.legal = true
  inDispatch : s.dispatch = some d

/-- The stream holds these bytes from `pos` on. -/
def wireHolds (s : State) (bytes : List Byte) : Prop :=
  ∀ k b, bytes[k]? = some b → s.wire.read (s.pos + k) = some b

/-! ### The well-formed oracle answers (20_memory.md R44) -/

/-- A plain linear instruction. -/
def linearMeta (size : Nat) : InstrMeta := ⟨⟨true, false, false, false, false, false⟩, size, none⟩

/-- A conditional branch with its taken target. -/
def branchMeta (size : Nat) (dest : Addr) : InstrMeta := ⟨⟨false, false, true, false, false, false⟩, size, some dest⟩

/-- A direct jump. -/
def jumpMeta (size : Nat) (dest : Addr) : InstrMeta := ⟨⟨false, false, false, true, false, false⟩, size, some dest⟩

/-- An indirect jump. -/
def indirectJumpMeta (size : Nat) : InstrMeta := ⟨⟨false, true, false, true, false, false⟩, size, none⟩

/-- A direct call; `jump` says whether the answer carries the JUMP flag too. -/
def callMeta (jump : Bool) (size : Nat) (dest : Addr) : InstrMeta :=
  ⟨⟨false, false, false, jump, true, false⟩, size, some dest⟩

/-- An indirect call; `jump` as for a direct call. -/
def indirectCallMeta (jump : Bool) (size : Nat) : InstrMeta :=
  ⟨⟨false, true, false, jump, true, false⟩, size, none⟩

/-- A return. -/
def returnMeta (size : Nat) : InstrMeta := ⟨⟨false, true, false, true, false, true⟩, size, none⟩

/-- The two instruction sizes. -/
def twoOrFour (size : Nat) : Prop := size = 2 ∨ size = 4

/-! ### Fields that no handler reads (30_encoding.md R75) -/

/-- The instruction with every field that is not interpreted blanked: SYNC, BTYPE, EVCODE, ETYPE, PAD, PROCESS and
TSTAMP. -/
def stripped : Instr → Instr
  | .ownership _ _ => .ownership none none
  | .directBranch icnt _ => .directBranch icnt none
  | .indirectBranch _ icnt uaddr _ => .indirectBranch 0 icnt uaddr none
  | .error _ _ _ => .error 0 none none
  | .progTraceSync _ icnt faddr _ => .progTraceSync 0 icnt faddr none
  | .directBranchSync _ icnt faddr _ => .directBranchSync 0 icnt faddr none
  | .indirectBranchSync _ _ icnt faddr _ => .indirectBranchSync 0 0 icnt faddr none
  | .resourceFull0 rdata _ => .resourceFull0 rdata none
  | .resourceFull1 rdata _ => .resourceFull1 rdata none
  | .resourceFull2 rdata hrepeat _ => .resourceFull2 rdata hrepeat none
  | .resourceFullReserved rcode rdata _ => .resourceFullReserved rcode rdata none
  | .indirectBranchHist _ icnt uaddr hist _ => .indirectBranchHist 0 icnt uaddr hist none
  | .indirectBranchHistSync _ _ icnt faddr hist _ => .indirectBranchHistSync 0 0 icnt faddr hist none
  | .repeatBranch bcnt _ => .repeatBranch bcnt none
  | .progTraceCorrelation0 _ icnt _ => .progTraceCorrelation0 0 icnt none
  | .progTraceCorrelation1 _ icnt hist _ => .progTraceCorrelation1 0 icnt hist none
  | .progTraceCorrelationReserved _ cdf icnt _ => .progTraceCorrelationReserved 0 cdf icnt none
  | .idle p => .idle p

/-- The state with those fields blanked in the messages it retains. -/
def strippedState (s : State) : State :=
  { s with
    prevMsg := s.prevMsg.map stripped
    dispatch := s.dispatch.map fun d => { d with msg := stripped d.msg } }

/-- Two outcomes that differ at most in fields no handler reads. -/
def sameOutcome : Answer → Answer → Prop
  | .next s, .next t => strippedState s = strippedState t
  | .fault r, .fault q => r = q
  | .refused r, .refused q => r = q
  | _, _ => False

end Sys2Proof.Machine
end

