-- ==== Sys2Proof/Certificates/Slice0/Obligations.lean ====
section
/-! DEFINITION. The statements for the provers. Each docstring names the rules of spec/ it formalises, or says that it is
the model's own choice and names the log entry. -/

open Sys2Proof Sys2Proof.Machine

/-! ### Encoding -/

/-- Decode and encode agree on every well-formed instruction of every family (framing law, 40_framer_ops.md R105):
decoding the packed bytes gives the instruction back, and the bytes after it. -/
def Obligations.DecodeOfEncodeGivesInstr : Prop :=
  ∀ (i : Instr) (rest : List Byte), i.wellFormed defaultCatalog = true →
    decode defaultCatalog (encode defaultCatalog i ++ rest) = .instr i rest

/-- Whatever the decoder accepts is well-formed, its present fields and widths as 30_encoding.md R63 to R66, R71, R72,
R74 and R77 say. -/
def Obligations.DecodedInstrIsWellFormed : Prop :=
  ∀ (bytes : List Byte) (i : Instr) (rest : List Byte),
    decode defaultCatalog bytes = .instr i rest → i.wellFormed defaultCatalog = true

/-- An instruction ends at the first of its bytes whose marker is `11` (30_encoding.md R60), for every catalog. -/
def Obligations.InstrEndsAtFirstEndMarker : Prop :=
  ∀ (cat : Catalog) (bytes : List Byte) (i : Instr) (rest : List Byte), decode cat bytes = .instr i rest →
    ∃ (k : Nat) (b : Byte), bytes[k]? = some b ∧ marker b = .endMessage ∧ rest = bytes.drop (k + 1) ∧
      ∀ j < k, ∀ c, bytes[j]? = some c → marker c ≠ .endMessage

/-- Words written out from the catalog's layouts decode to the messages they stand for (95_test_vectors.md M7, M15, M20,
M31, M33, F6). -/
def Obligations.SpecWordsDecode : Prop :=
  decode defaultCatalog [0x10, 0x61, 0x10, 0x83] = .instr (.indirectBranch 0 (some 6) (some 0x804) none) [] ∧
  decode defaultCatalog [0x2C, 0x08, 0x05, 0x40, 0x83] = .instr (.directBranchSync 2 (some 4) (some 0x810) none) [] ∧
  decode defaultCatalog [0x6C, 0x00, 0xE8, 0x0F] = .instr (.resourceFull0 (some 1000) none) [] ∧
  decode defaultCatalog [0x84, 0x50, 0x19, 0x1B] = .instr (.progTraceCorrelation1 4 (some 6) (some 6) none) [] ∧
  decode defaultCatalog [0x08, 0x8C, 0x13] = .instr (.ownership (some 0x123) none) [] ∧
  decode defaultCatalog [0x07] = .instr (.idle 1) []

/-! ### Framing steps -/

/-- Marker `10` in any framer state raises `E_INVALID_MSEO` at the byte's offset, before any other check
(40_framer_ops.md R90). Nothing but `pos` and the error registers changes. -/
def Obligations.InvalidMarkerRaises : Prop :=
  ∀ (s : State) (b : Byte), Fetching s → s.wire.read s.pos = some b → mseo b = 2#2 →
    step s = .next { s with
      pos := s.pos + 1
      status := .error
      errCode := some .invalidMseo
      errInfo := { byteOffset := s.pos, msgIndex := s.msgCount, instrIndex := s.instrCount, detail := .empty }
      errCount := 1 }

/-- `E_UNKNOWN_TCODE` (60_exceptions.md R206): in IDLE, marker `00` or `01` and a payload that is no TCODE. With marker
`11` the byte is idle instead. Under the default catalog the unknown payloads are all but twelve. -/
def Obligations.UnknownTcodeRaises : Prop :=
  (∀ (s : State) (b : Byte), Fetching s → s.framer.fstate = .idle → s.wire.read s.pos = some b →
    s.cfg.catalog.byTcode (mdo b).toNat = none →
    ((mseo b = 0#2 ∨ mseo b = 1#2) →
      step s = .next { s with
        pos := s.pos + 1
        status := .error
        errCode := some .unknownTcode
        errInfo :=
          { byteOffset := s.pos, msgIndex := s.msgCount, instrIndex := s.instrCount, detail := .payload (mdo b) }
        errCount := 1 }) ∧
    (mseo b = 3#2 → ∃ t, step s = .next t ∧ t.status = .run ∧ t.errCode = s.errCode)) ∧
  ∀ p : Payload, defaultCatalog.byTcode p.toNat = none ↔
    p.toNat ∉ [2, 3, 4, 8, 9, 11, 12, 27, 28, 29, 30, 33]

/-- An idle byte changes only `pos` and `idleCount` (40_framer_ops.md R93): as a step, and as the meaning of the
instruction. -/
def Obligations.IdleByteOnlyCounts : Prop :=
  (∀ (s : State) (b : Byte), Fetching s → s.framer.fstate = .idle → s.wire.read s.pos = some b → mseo b = 3#2 →
    s.cfg.catalog.byTcode (mdo b).toNat = none →
    step s = .next { s with pos := s.pos + 1, idleCount := s.idleCount + 1 }) ∧
  ∀ (p : Payload) (s : State), exec (.idle p) s = .next { s with idleCount := s.idleCount + 1 }

/-- The end of the stream (40_framer_ops.md R91): DONE between messages, `E_TRUNCATED_MSG` at offset `pos` inside one. -/
def Obligations.EndOfStreamEndsRun : Prop :=
  ∀ s : State, Fetching s → s.wire.read s.pos = none →
    (s.framer.fstate = .idle → step s = .next { s with status := .done }) ∧
    (s.framer.fstate = .framing →
      step s = .next { s with
        status := .error
        errCode := some .truncatedMsg
        errInfo := { byteOffset := s.pos, msgIndex := s.msgCount, instrIndex := s.instrCount, detail := .empty }
        errCount := 1 })

/-- `E_FIELD_OVERFLOW` (60_exceptions.md R208): a 1 bit of a variable field at position 64 or higher raises it at the
byte's offset. A group with none, zero groups beyond the limit among them (30_encoding.md R80), never does: it is
accumulated under every marker; with `00` the message goes on, and with `11`, where no fixed field is still to come, the
message is complete with that value (95_test_vectors.md F20). -/
def Obligations.FieldOverflowExactlyOnHighOnes : Prop :=
  ∀ (s : State) (b : Byte) (spec : FieldSpec), Fetching s → s.framer.fstate = .framing →
    s.wire.read s.pos = some b → mseo b ≠ 2#2 →
    s.framer.active s.cfg.catalog = some spec → spec.kind.isFixed = false →
    ((∃ j < 6, (mdo b).getLsbD j = true ∧ 64 ≤ s.framer.accBits + j) →
      step s = .next { s with
        pos := s.pos + 1
        status := .error
        errCode := some .fieldOverflow
        errInfo := { byteOffset := s.pos, msgIndex := s.msgCount, instrIndex := s.instrCount, detail := .empty }
        errCount := 1 }) ∧
    ((∀ j < 6, (mdo b).getLsbD j = true → s.framer.accBits + j < 64) →
      distribute s.cfg.catalog (mdo b) s.framer = .ok { s.framer with
        acc := s.framer.acc ||| ((mdo b).setWidth 64 <<< s.framer.accBits)
        accBits := s.framer.accBits + 6 } ∧
      (∀ t, step s = .next t → t.status = .error → t.errCode ≠ some .fieldOverflow) ∧
      (mseo b = 0#2 →
        step s = .next { s with
          pos := s.pos + 1
          framer := { s.framer with
            acc := s.framer.acc ||| ((mdo b).setWidth 64 <<< s.framer.accBits)
            accBits := s.framer.accBits + 6 } }) ∧
      (mseo b = 3#2 →
        (∀ j later, s.framer.fidx < j → (s.framer.layout s.cfg.catalog)[j]? = some later →
          later.kind.isFixed = false) →
        ∃ f : Framer, f.fstate = .idle ∧
          f.instr = Instr.ofFields s.framer.kind (Fields.set s.framer.fields spec.name
            (s.framer.acc ||| ((mdo b).setWidth 64 <<< s.framer.accBits)).toNat) ∧
          step s = exec f.instr { s with pos := s.pos + 1, msgCount := s.msgCount + 1, framer := f }))

/-- Marker `01` (40_framer_ops.md R97): on the TCODE byte, on a fixed field, on a field with no bit yet and on the last
field it raises `E_FRAME_SEQ` at the byte's offset. -/
def Obligations.MisplacedEndFieldRaises : Prop :=
  ∀ (s : State) (b : Byte), Fetching s → s.wire.read s.pos = some b → mseo b = 1#2 →
    (∀ e, s.framer.fstate = .idle → s.cfg.catalog.byTcode (mdo b).toNat = some e →
      ∃ t, step s = .next t ∧ t.status = .error ∧ t.errCode = some .frameSeq ∧ t.errInfo.byteOffset = s.pos) ∧
    (∀ f spec, s.framer.fstate = .framing → distribute s.cfg.catalog (mdo b) s.framer = .ok f →
      f.active s.cfg.catalog = some spec →
      ((spec.kind.isFixed = true ∨ f.accBits = 0 ∨ f.fidx + 1 = (f.layout s.cfg.catalog).length) →
        ∃ t, step s = .next t ∧ t.status = .error ∧ t.errCode = some .frameSeq ∧ t.errInfo.byteOffset = s.pos) ∧
      ((spec.kind.isFixed = false ∧ 0 < f.accBits ∧ f.fidx + 1 ≠ (f.layout s.cfg.catalog).length) →
        step s = .next { s with
          pos := s.pos + 1
          framer := { f with
            fields := Fields.set f.fields spec.name f.acc.toNat, acc := 0, accBits := 0, fidx := f.fidx + 1 } }))

/-- Marker `11` before every fixed field is complete raises `E_FIXED_TRUNCATED` at the byte's offset (40_framer_ops.md
R98): on the TCODE byte and inside a message, when the active field is fixed and when it is variable but a fixed field is
still to come after it. -/
def Obligations.TruncatedFixedFieldRaises : Prop :=
  ∀ (s : State) (b : Byte), Fetching s → s.wire.read s.pos = some b → mseo b = 3#2 →
    ∀ (f : Framer) (spec : FieldSpec),
      ((s.framer.fstate = .idle ∧
          ∃ e, s.cfg.catalog.byTcode (mdo b).toNat = some e ∧ f = Framer.start e (mdo b)) ∨
        (s.framer.fstate = .framing ∧ distribute s.cfg.catalog (mdo b) s.framer = .ok f)) →
      f.active s.cfg.catalog = some spec →
      (spec.kind.isFixed = true ∨
        ∃ j later, f.fidx < j ∧ (f.layout s.cfg.catalog)[j]? = some later ∧ later.kind.isFixed = true) →
      ∃ t, step s = .next t ∧ t.status = .error ∧ t.errCode = some .fixedTruncated ∧ t.errInfo.byteOffset = s.pos

/-- No byte meets a missing field while the catalog is legal (40_framer_ops.md R95), and a session whose catalog is not
legal has no step (70_reset_and_hazards.md R240 P5): it is refused. What the model counts as legal is in
notes/assumptions/11.md. -/
def Obligations.LegalCatalogIsNeverRefused : Prop :=
  (∀ (cat : Catalog) (f : Framer) (b : Byte), cat.legal = true → FramerOk cat f →
    frameByte cat f b ≠ .illegal ∧ ∀ f', frameByte cat f b = .more f' → FramerOk cat f') ∧
  ∀ s : State, s.cfg.tolerateFirstUnknown = false → s.cfg.catalog.legal = false → step s = .refused .illegalCatalog

/-- A step runs the decoded instruction: where the byte at `pos` completes an instruction in the framer, the step is the
instruction's meaning, in the state with the byte read and, for a message, the message counted and the framer idle
(40_framer_ops.md R99, R101). -/
def Obligations.StepRunsDecodedInstr : Prop :=
  ∀ (s : State) (b : Byte) (i : Instr), Fetching s → s.wire.read s.pos = some b →
    decodeFrom s.cfg.catalog s.framer [b] = .instr i [] →
    (∀ p, i = .idle p → step s = exec i { s with pos := s.pos + 1 }) ∧
    ((∀ p, i ≠ .idle p) → ∃ f : Framer, f.fstate = .idle ∧ f.instr = i ∧
      step s = exec i { s with pos := s.pos + 1, msgCount := s.msgCount + 1, framer := f })

/-- The bytes of a well-formed instruction at the head of the stream run exactly its meaning: one step a byte, the last
one the instruction (40_framer_ops.md R99, R101, R105). -/
def Obligations.MessageBytesRunInstr : Prop :=
  ∀ (s : State) (i : Instr), Fetching s → s.framer.fstate = .idle → s.cfg.catalog = defaultCatalog →
    i.wellFormed defaultCatalog = true → wireHolds s (encode defaultCatalog i) →
    (∀ p, i = .idle p →
      Sys2Proof.core.run (encode defaultCatalog i).length s =
        exec i { s with pos := s.pos + (encode defaultCatalog i).length }) ∧
    ((∀ p, i ≠ .idle p) → ∃ f : Framer, f.fstate = .idle ∧ f.instr = i ∧
      Sys2Proof.core.run (encode defaultCatalog i).length s =
        exec i { s with
          pos := s.pos + (encode defaultCatalog i).length, msgCount := s.msgCount + 1, framer := f })

/-! ### What each message does -/

/-- `Ownership` completes and changes nothing but `prevMsg` (45_msg_resource_repeat_misc.md R170). -/
def Obligations.OwnershipCompletes : Prop :=
  ∀ (process tstamp : Operand) (s : State), s.dispatch = none →
    exec (.ownership process tstamp) s =
      .next { s with
        prevMsg := if s.repeatLeft.isSome then s.prevMsg else some (.ownership process tstamp) }

/-- `Error` completes: `pc` is NONE, the adjustment is cleared, the call stack is emptied, `prevMsg` is NONE; it is no
error of the block (45_msg_resource_repeat_misc.md R169). -/
def Obligations.ErrorMessageDesynchronizes : Prop :=
  ∀ (etype : Nat) (pad tstamp : Operand) (s : State), s.dispatch = none → s.repeatLeft = none →
    exec (.error etype pad tstamp) s =
      .next { s with pc := none, pendingICNTAdjust := 0, csSize := 0, prevMsg := none }

/-- The counted kinds with no address and no history, `DirectBranch` and `ProgTraceCorrelation` with CDF 0, take their
budget and enter `Replay(Count(b), NoHist)` (43_msg_branch.md R141, 45_msg_resource_repeat_misc.md R167). -/
def Obligations.CountedBranchEntersReplay : Prop :=
  ∀ (evcode : Nat) (icnt tstamp : Operand) (s : State), 0 ≤ (icnt.val : Int) + s.pendingICNTAdjust →
    ∀ i : Instr, (i = .directBranch icnt tstamp ∨ i = .progTraceCorrelation0 evcode icnt tstamp) →
      exec i s = .next { s with
        pendingICNTAdjust := 0
        dispatch := some
          { msg := i, n := .count ((icnt.val : Int) + s.pendingICNTAdjust).toNat, hist := .noHist, histLeft := 0,
            lastIndirect := false, stopped := .none, hasAddr := false, needIndirect := false, after := .finish } }

/-- `ProgTraceCorrelation` with CDF 1 takes its budget and enters `Replay(Count(b), H(HIST))`
(45_msg_resource_repeat_misc.md R167). -/
def Obligations.CorrelationHistoryEntersReplay : Prop :=
  ∀ (evcode : Nat) (icnt hist tstamp : Operand) (s : State), 0 ≤ (icnt.val : Int) + s.pendingICNTAdjust →
    0 < hist.val → hist.val < 2 ^ 32 →
    exec (.progTraceCorrelation1 evcode icnt hist tstamp) s = .next { s with
      pendingICNTAdjust := 0
      dispatch := some
        { msg := .progTraceCorrelation1 evcode icnt hist tstamp
          n := .count ((icnt.val : Int) + s.pendingICNTAdjust).toNat
          hist := .bits (BitVec.ofNat 32 hist.val), histLeft := hist.val.log2
          lastIndirect := false, stopped := .none, hasAddr := false, needIndirect := false, after := .finish } }

/-- `IndirectBranch` and `IndirectBranchHist` take their budget and enter the replay, to end on an indirect instruction
and then apply the delta `UADDR << 1` (43_msg_branch.md R142, R143). -/
def Obligations.IndirectBranchEntersReplay : Prop :=
  ∀ (btype : Nat) (icnt uaddr hist tstamp : Operand) (s : State), 0 ≤ (icnt.val : Int) + s.pendingICNTAdjust →
    uaddr.val < 2 ^ 63 →
    exec (.indirectBranch btype icnt uaddr tstamp) s = .next { s with
      pendingICNTAdjust := 0
      dispatch := some
        { msg := .indirectBranch btype icnt uaddr tstamp
          n := .count ((icnt.val : Int) + s.pendingICNTAdjust).toNat, hist := .noHist, histLeft := 0
          lastIndirect := false, stopped := .none, hasAddr := true, needIndirect := true
          after := .delta (BitVec.ofNat 64 (2 * uaddr.val)) } } ∧
    (0 < hist.val → hist.val < 2 ^ 32 →
      exec (.indirectBranchHist btype icnt uaddr hist tstamp) s = .next { s with
        pendingICNTAdjust := 0
        dispatch := some
          { msg := .indirectBranchHist btype icnt uaddr hist tstamp
            n := .count ((icnt.val : Int) + s.pendingICNTAdjust).toNat
            hist := .bits (BitVec.ofNat 32 hist.val), histLeft := hist.val.log2
            lastIndirect := false, stopped := .none, hasAddr := true, needIndirect := true
            after := .delta (BitVec.ofNat 64 (2 * uaddr.val)) } })

/-- A sync message that arrives unsynchronized drops its count and a pending adjustment and adopts its address
(44_msg_sync.md R151): all four kinds, the one with a history when that is valid (R155). -/
def Obligations.SyncWhileUnsynchronizedAdopts : Prop :=
  ∀ (sync btype : Nat) (icnt faddr hist tstamp : Operand) (s : State), s.pc = none → s.dispatch = none →
    faddr.val < 2 ^ 63 →
    ∀ i : Instr,
      (i = .progTraceSync sync icnt faddr tstamp ∨ i = .directBranchSync sync icnt faddr tstamp ∨
        i = .indirectBranchSync sync btype icnt faddr tstamp ∨
        (i = .indirectBranchHistSync sync btype icnt faddr hist tstamp ∧ 0 < hist.val ∧ hist.val < 2 ^ 32)) →
      exec i s = .next { s with
        pendingICNTAdjust := 0
        lastAddr := BitVec.ofNat 64 (2 * faddr.val)
        pc := some (BitVec.ofNat 64 (2 * faddr.val))
        prevMsg := if s.repeatLeft.isSome then s.prevMsg else some i }

/-- A sync message that arrives synchronized takes its budget and enters the replay, to adopt its address after it
(44_msg_sync.md R151, R154, R155): the `IndirectBranch` kinds must end on an indirect instruction. -/
def Obligations.SyncWhileSynchronizedEntersReplay : Prop :=
  ∀ (sync btype : Nat) (icnt faddr hist tstamp : Operand) (s : State), s.pc ≠ none → faddr.val < 2 ^ 63 →
    0 ≤ (icnt.val : Int) + s.pendingICNTAdjust →
    ∀ (i : Instr) (h : Hist) (left : Nat) (needIndirect : Bool),
      ((i = .progTraceSync sync icnt faddr tstamp ∧ h = .noHist ∧ left = 0 ∧ needIndirect = false) ∨
        (i = .directBranchSync sync icnt faddr tstamp ∧ h = .noHist ∧ left = 0 ∧ needIndirect = false) ∨
        (i = .indirectBranchSync sync btype icnt faddr tstamp ∧ h = .noHist ∧ left = 0 ∧ needIndirect = true) ∨
        (i = .indirectBranchHistSync sync btype icnt faddr hist tstamp ∧ 0 < hist.val ∧ hist.val < 2 ^ 32 ∧
          h = .bits (BitVec.ofNat 32 hist.val) ∧ left = hist.val.log2 ∧ needIndirect = true)) →
      exec i s = .next { s with
        pendingICNTAdjust := 0
        dispatch := some
          { msg := i, n := .count ((icnt.val : Int) + s.pendingICNTAdjust).toNat, hist := h, histLeft := left,
            lastIndirect := false, stopped := .none, hasAddr := true, needIndirect := needIndirect,
            after := .adopt (BitVec.ofNat 64 (2 * faddr.val)) } }

/-- `ResourceFull` with RCODE 0 adds RDATA to the pending adjustment and changes nothing else but `prevMsg`
(45_msg_resource_repeat_misc.md R161). -/
def Obligations.CountOverflowAdds : Prop :=
  ∀ (rdata tstamp : Operand) (s : State), s.dispatch = none →
    exec (.resourceFull0 rdata tstamp) s = .next { s with
      pendingICNTAdjust := s.pendingICNTAdjust + (rdata.val : Int)
      prevMsg := if s.repeatLeft.isSome then s.prevMsg else some (.resourceFull0 rdata tstamp) }

/-- `ResourceFull` with RCODE 1 or 2 enters `Replay(UntilHist, H(RDATA))`, with HREPEAT more replays to follow for
RCODE 2; the adjustment stays pending (45_msg_resource_repeat_misc.md R160, R162, R163). -/
def Obligations.HistoryFullEntersReplay : Prop :=
  ∀ (rdata hrepeat tstamp : Operand) (s : State), 0 < rdata.val → rdata.val < 2 ^ 32 →
    ∀ (i : Instr) (more : Nat),
      ((i = .resourceFull1 rdata tstamp ∧ more = 0) ∨
        (i = .resourceFull2 rdata hrepeat tstamp ∧ more = hrepeat.val)) →
      exec i s = .next { s with
        dispatch := some
          { msg := i, n := .untilHist, hist := .bits (BitVec.ofNat 32 rdata.val), histLeft := rdata.val.log2,
            lastIndirect := false, stopped := .none, hasAddr := false, needIndirect := false, after := .again more } }

/-- The reserved sub-codes, RCODE 3 to 15 and CDF 2 or 3, raise `E_RESERVED` before anything else and change nothing but
the error registers (45_msg_resource_repeat_misc.md R164, R168). -/
def Obligations.ReservedSubcodesRaise : Prop :=
  ∀ (rcode evcode cdf : Nat) (v tstamp : Operand) (s : State) (i : Instr),
    (i = .resourceFullReserved rcode v tstamp ∨ i = .progTraceCorrelationReserved evcode cdf v tstamp) →
    exec i s = .next { s with
      status := .error
      errCode := some .reserved
      errInfo := { byteOffset := s.pos, msgIndex := s.msgCount, instrIndex := s.instrCount, detail := .empty }
      errCount := 1 }

/-- `RepeatBranch` starts its loop of BCNT re-dispatches when a message is retained, and raises `E_REPEAT_NO_PREV` when
none is (45_msg_resource_repeat_misc.md R165, 60_exceptions.md R221). -/
def Obligations.RepeatBranchStartsLoop : Prop :=
  ∀ (bcnt tstamp : Operand) (s : State),
    (∀ m, s.prevMsg = some m →
      exec (.repeatBranch bcnt tstamp) s = .next { s with repeatLeft := some bcnt.val }) ∧
    (s.prevMsg = none →
      exec (.repeatBranch bcnt tstamp) s = .next { s with
        status := .error
        errCode := some .repeatNoPrev
        errInfo := { byteOffset := s.pos, msgIndex := s.msgCount, instrIndex := s.instrCount, detail := .empty }
        errCount := 1 })

/-- Each turn of a `RepeatBranch` loop runs the retained message again with `rep` set, as often as its counter says
(45_msg_resource_repeat_misc.md R165). That a turn is one step, and that one more step ends the loop and changes nothing
else, is the model's own choice: its step granularity, notes/assumptions/6.md. -/
def Obligations.RepeatTurnRunsPrevious : Prop :=
  ∀ s : State, s.status = .run → s.cfg.tolerateFirstUnknown = false → s.cfg.catalog.legal = true → s.dispatch = none →
    (∀ left m, s.repeatLeft = some (left + 1) → s.prevMsg = some m →
      step s = exec m { s with repeatLeft := some left }) ∧
    (s.repeatLeft = some 0 → step s = .next { s with repeatLeft := none })

/-- An address field of 2^63 or more raises `E_FIELD_RANGE` first, with nothing else changed (43_msg_branch.md R140,
60_exceptions.md R217): the six kinds with an address. -/
def Obligations.AddressOutOfRangeRaises : Prop :=
  ∀ (sync btype : Nat) (icnt addr hist tstamp : Operand) (s : State), 2 ^ 63 ≤ addr.val →
    ∀ i : Instr,
      (i = .indirectBranch btype icnt addr tstamp ∨ i = .indirectBranchHist btype icnt addr hist tstamp ∨
        i = .progTraceSync sync icnt addr tstamp ∨ i = .directBranchSync sync icnt addr tstamp ∨
        i = .indirectBranchSync sync btype icnt addr tstamp ∨
        i = .indirectBranchHistSync sync btype icnt addr hist tstamp) →
      exec i s = .next { s with
        status := .error
        errCode := some .fieldRange
        errInfo := { byteOffset := s.pos, msgIndex := s.msgCount, instrIndex := s.instrCount, detail := .empty }
        errCount := 1 }

/-- A history field of 0 raises `E_HIST_NO_STOP` and one of 2^32 or more `E_FIELD_RANGE`, after the address and before
the budget (42_replay.md R120, R133; 60_exceptions.md R217, R219): the five kinds that read a history. -/
def Obligations.HistoryOutOfRangeRaises : Prop :=
  ∀ (n sync btype : Nat) (icnt addr hist more tstamp : Operand) (s : State), addr.val < 2 ^ 63 →
    ∀ (i : Instr) (e : Err), ((hist.val = 0 ∧ e = .histNoStop) ∨ (2 ^ 32 ≤ hist.val ∧ e = .fieldRange)) →
      (i = .indirectBranchHist btype icnt addr hist tstamp ∨
        i = .indirectBranchHistSync sync btype icnt addr hist tstamp ∨
        i = .progTraceCorrelation1 n icnt hist tstamp ∨ i = .resourceFull1 hist tstamp ∨
        i = .resourceFull2 hist more tstamp) →
      exec i s = .next { s with
        status := .error
        errCode := some e
        errInfo := { byteOffset := s.pos, msgIndex := s.msgCount, instrIndex := s.instrCount, detail := .empty }
        errCount := 1 }

/-- `TakeBudget` on a negative sum raises `E_NEG_BUDGET` with the adjustment cleared (42_replay.md R131): the five kinds
with a counted budget that are no sync kinds, whatever `pc`, and the four sync kinds when `pc` is not NONE. No run from
reset gets there (`NegBudgetIsUnreachable`). -/
def Obligations.NegativeBudgetRaises : Prop :=
  ∀ (n sync btype : Nat) (icnt addr hist tstamp : Operand) (s : State),
    (icnt.val : Int) + s.pendingICNTAdjust < 0 → addr.val < 2 ^ 63 → 0 < hist.val → hist.val < 2 ^ 32 →
    ∀ i : Instr,
      ((i = .directBranch icnt tstamp ∨ i = .indirectBranch btype icnt addr tstamp ∨
          i = .indirectBranchHist btype icnt addr hist tstamp ∨ i = .progTraceCorrelation0 n icnt tstamp ∨
          i = .progTraceCorrelation1 n icnt hist tstamp) ∨
        (s.pc ≠ none ∧
          (i = .progTraceSync sync icnt addr tstamp ∨ i = .directBranchSync sync icnt addr tstamp ∨
            i = .indirectBranchSync sync btype icnt addr tstamp ∨
            i = .indirectBranchHistSync sync btype icnt addr hist tstamp))) →
      exec i s = .next { s with
        pendingICNTAdjust := 0
        status := .error
        errCode := some .negBudget
        errInfo := { byteOffset := s.pos, msgIndex := s.msgCount, instrIndex := s.instrCount, detail := .empty }
        errCount := 1 }

/-- Fields that are not interpreted change no outcome (30_encoding.md R75): two instructions that differ only in them
have outcomes that differ only in the messages retained. -/
def Obligations.UninterpretedFieldsChangeNoOutcome : Prop :=
  ∀ (i j : Instr) (s : State), stripped i = stripped j → sameOutcome (exec i s) (exec j s)

/-- Nor do they in a message retained in `prevMsg` or in dispatch: steps of states that differ only in them have outcomes
that differ only in them (30_encoding.md R75). -/
def Obligations.RetainedUninterpretedFieldsChangeNoStep : Prop :=
  ∀ s t : State, strippedState s = strippedState t → sameOutcome (step s) (step t)

/-! ### The replay step -/

/-- The four checks of a replay step, in order; a check that fails raises and changes nothing but the error registers
(42_replay.md R122). -/
def Obligations.ReplayChecksRaiseInOrder : Prop :=
  ∀ (s : State) (d : Dispatch), Dispatching s d → d.goesOn = true →
    (s.pc = none → step s = .next { s with
      status := .error
      errCode := some .unsync
      errInfo := { byteOffset := s.pos, msgIndex := s.msgCount, instrIndex := s.instrCount, detail := .empty }
      errCount := 1 }) ∧
    ∀ a, s.pc = some a →
      (s.oracle.lookup a = none → step s = .next { s with
        status := .error
        errCode := some .unknownAddr
        errInfo := { byteOffset := s.pos, msgIndex := s.msgCount, instrIndex := s.instrCount, detail := .address a }
        errCount := 1 }) ∧
      ∀ m, s.oracle.lookup a = some m → m.wf = true → evenAddr a →
        (d.n = .count 1 → m.size = 4 → step s = .next { s with
          status := .error
          errCode := some .icntSplit
          errInfo := { byteOffset := s.pos, msgIndex := s.msgCount, instrIndex := s.instrCount, detail := .address a }
          errCount := 1 }) ∧
        (¬ (d.n = .count 1 ∧ m.size = 4) → m.cls.branch = true → d.hist ≠ .noHist → d.histLeft = 0 →
          step s = .next { s with
            status := .error
            errCode := some .histExhausted
            errInfo :=
              { byteOffset := s.pos, msgIndex := s.msgCount, instrIndex := s.instrCount, detail := .address a }
            errCount := 1 })

/-- The well-formed oracle answers are exactly the table of 20_memory.md R44, a CALL with or without JUMP. The second
clause, that an answer is well-formed for an address only when that address is even, is the model's own reading of the
words "odd address" in 93_implementation_defined.md U15 (DEDUCED, notes/assumptions/9.md): R44 has no such condition, and
20_memory.md R48 speaks of odd addresses only as destinations. -/
def Obligations.WellFormedAnswersAreTheTable : Prop :=
  ∀ m : InstrMeta,
    (m.wf = true ↔ ∃ size, twoOrFour size ∧
      (m = linearMeta size ∨ (∃ d, m = branchMeta size d) ∨ (∃ d, m = jumpMeta size d) ∨ m = indirectJumpMeta size ∨
        (∃ j d, m = callMeta j size d) ∨ (∃ j, m = indirectCallMeta j size) ∨ m = returnMeta size)) ∧
    ∀ a, m.wfAt a = true ↔ m.wf = true ∧ evenAddr a

/-- The model stops on an oracle answer outside that table (20_memory.md R44) and on an answer for an odd address. That
the "odd address" of 93_implementation_defined.md U15 is the one answered for is the model's reading (DEDUCED), and that
it stops at the replay step that asks is its choice: notes/assumptions/9.md. -/
def Obligations.IllFormedAnswerIsRefused : Prop :=
  ∀ (s : State) (d : Dispatch) (a : Addr) (m : InstrMeta), Dispatching s d → d.goesOn = true → s.pc = some a →
    s.oracle.lookup a = some m → (m.wf = false ∨ ¬ evenAddr a) → step s = .refused .illFormedOracleAnswer

/-- A plain linear instruction: one record, the unit charged, `pc` past it (42_replay.md R123, R124, R128). -/
def Obligations.LinearStepAdvances : Prop :=
  ∀ (s : State) (d : Dispatch) (a : Addr) (size : Nat), Dispatching s d → d.goesOn = true → s.pc = some a →
    evenAddr a → twoOrFour size → s.oracle.lookup a = some (linearMeta size) → ¬ (d.n = .count 1 ∧ size = 4) →
    step s = .next { s with
      instrCount := s.instrCount + 1
      records := s.records ++ [⟨a, (linearMeta size).cls, size, none, false⟩]
      pc := some (a + BitVec.ofNat 64 size)
      dispatch := some { d with
        lastIndirect := false
        n := match d.n with | .count k => .count (k - size / 2) | .untilHist => .untilHist } }

/-- A branch with no history is taken exactly when it uses the budget up (42_replay.md R127), and its record shows it
(R124): LINEAR is added when it is not taken. -/
def Obligations.BranchWithoutHistoryTakenWhenLast : Prop :=
  ∀ (s : State) (d : Dispatch) (a dest : Addr) (size k : Nat), Dispatching s d → d.stopped = .none →
    d.n = .count k → size / 2 ≤ k → d.hist = .noHist → s.pc = some a → evenAddr a → twoOrFour size →
    s.oracle.lookup a = some (branchMeta size dest) →
    step s = .next { s with
      instrCount := s.instrCount + 1
      records := s.records ++
        [⟨a, ⟨decide (k ≠ size / 2), false, true, false, false, false⟩, size, some dest, decide (k = size / 2)⟩]
      pc := some (if k = size / 2 then dest else a + BitVec.ofNat 64 size)
      dispatch := some { d with lastIndirect := false, n := .count (k - size / 2) } }

/-- A branch with a history takes the next unconsumed bit, the oldest first, and consumes it (42_replay.md R127). -/
def Obligations.BranchWithHistoryTakesNextBit : Prop :=
  ∀ (s : State) (d : Dispatch) (a dest : Addr) (size left : Nat) (h : BitVec 32), Dispatching s d →
    d.goesOn = true → ¬ (d.n = .count 1 ∧ size = 4) → d.hist = .bits h → d.histLeft = left + 1 →
    s.pc = some a → evenAddr a → twoOrFour size → s.oracle.lookup a = some (branchMeta size dest) →
    step s = .next { s with
      instrCount := s.instrCount + 1
      records := s.records ++
        [⟨a, ⟨!h.getLsbD left, false, true, false, false, false⟩, size, some dest, h.getLsbD left⟩]
      pc := some (if h.getLsbD left = true then dest else a + BitVec.ofNat 64 size)
      dispatch := some { d with
        lastIndirect := false
        histLeft := left
        n := match d.n with | .count k => .count (k - size / 2) | .untilHist => .untilHist } }

/-- A direct jump goes to its destination; a direct call does so after pushing the address past it (42_replay.md R125,
R127, R128). The push writes the ring only, as 41_callstack.md R112 says. -/
def Obligations.JumpAndCallGoToDestination : Prop :=
  ∀ (s : State) (d : Dispatch) (a dest : Addr) (size : Nat) (j : Bool), Dispatching s d → d.goesOn = true →
    s.pc = some a → evenAddr a → twoOrFour size → ¬ (d.n = .count 1 ∧ size = 4) →
    (s.oracle.lookup a = some (jumpMeta size dest) →
      step s = .next { s with
        instrCount := s.instrCount + 1
        records := s.records ++ [⟨a, (jumpMeta size dest).cls, size, some dest, true⟩]
        pc := some dest
        dispatch := some { d with
          lastIndirect := false
          n := match d.n with | .count k => .count (k - size / 2) | .untilHist => .untilHist } }) ∧
    (s.oracle.lookup a = some (callMeta j size dest) →
      step s = .next { s with
        instrCount := s.instrCount + 1
        records := s.records ++ [⟨a, (callMeta j size dest).cls, size, some dest, true⟩]
        csMem := (s.push (a + BitVec.ofNat 64 size)).csMem
        csTop := (s.push (a + BitVec.ofNat 64 size)).csTop
        csSize := (s.push (a + BitVec.ofNat 64 size)).csSize
        pc := some dest
        dispatch := some { d with
          lastIndirect := false
          n := match d.n with | .count k => .count (k - size / 2) | .untilHist => .untilHist } })

/-- An indirect jump or call emits its record and stops the replay with `pc` still at it; the call has pushed its return
address (42_replay.md R125, R126). -/
def Obligations.IndirectStopsReplay : Prop :=
  ∀ (s : State) (d : Dispatch) (a : Addr) (size : Nat) (j : Bool), Dispatching s d → d.goesOn = true →
    s.pc = some a → evenAddr a → twoOrFour size → ¬ (d.n = .count 1 ∧ size = 4) →
    (s.oracle.lookup a = some (indirectJumpMeta size) →
      step s = .next { s with
        instrCount := s.instrCount + 1
        records := s.records ++ [⟨a, (indirectJumpMeta size).cls, size, none, true⟩]
        dispatch := some { d with
          lastIndirect := true
          stopped := .other
          n := match d.n with | .count k => .count (k - size / 2) | .untilHist => .untilHist } }) ∧
    (s.oracle.lookup a = some (indirectCallMeta j size) →
      step s = .next { s with
        instrCount := s.instrCount + 1
        records := s.records ++ [⟨a, (indirectCallMeta j size).cls, size, none, true⟩]
        csMem := (s.push (a + BitVec.ofNat 64 size)).csMem
        csTop := (s.push (a + BitVec.ofNat 64 size)).csTop
        csSize := (s.push (a + BitVec.ofNat 64 size)).csSize
        dispatch := some { d with
          lastIndirect := true
          stopped := .other
          n := match d.n with | .count k => .count (k - size / 2) | .untilHist => .untilHist } })

/-- A return pops: in ADDRESSED mode with an entry the replay goes on at the popped address, otherwise it stops with `pc`
at the return and the counter decremented, floor 0 (42_replay.md R126, 41_callstack.md R113). -/
def Obligations.ReturnPopsOrStops : Prop :=
  ∀ (s : State) (d : Dispatch) (a : Addr) (size : Nat), Dispatching s d → d.goesOn = true → s.pc = some a →
    evenAddr a → twoOrFour size → s.oracle.lookup a = some (returnMeta size) → ¬ (d.n = .count 1 ∧ size = 4) →
    (s.cfg.csMode = .addressed → 0 < s.csSize →
      step s = .next { s with
        instrCount := s.instrCount + 1
        records := s.records ++ [⟨a, (returnMeta size).cls, size, none, true⟩]
        pc := some (s.csMem.getD s.csTop 0)
        csSize := s.csSize - 1
        csTop := (s.csTop + s.cfg.csDepth - 1) % s.cfg.csDepth
        dispatch := some { d with
          lastIndirect := true
          n := match d.n with | .count k => .count (k - size / 2) | .untilHist => .untilHist } }) ∧
    ((s.cfg.csMode = .counting ∨ s.csSize = 0) →
      step s = .next { s with
        instrCount := s.instrCount + 1
        records := s.records ++ [⟨a, (returnMeta size).cls, size, none, true⟩]
        csSize := s.csSize - 1
        dispatch := some { d with
          lastIndirect := true
          stopped := .ret
          n := match d.n with | .count k => .count (k - size / 2) | .untilHist => .untilHist } })

/-! ### Settling -/

/-- The checks of `Settle`, in order (42_replay.md R132); one that fails raises and changes nothing but the error
registers. The last two hold at `pc = NONE` too (43_msg_branch.md R142, 95_test_vectors.md B-3). -/
def Obligations.SettleRaisesInOrder : Prop :=
  ∀ (s : State) (d : Dispatch), Dispatching s d → d.goesOn = false → ∀ (e : Err) (detail : Detail),
      ((∃ a, s.pc = some a ∧ d.stopped = .ret ∧ d.n ≠ .count 0 ∧ e = .callstackUnderflow ∧ detail = .address a) ∨
        (∃ a, s.pc = some a ∧ d.stopped = .other ∧ d.n ≠ .count 0 ∧ e = .indirectUnresolved ∧ detail = .address a) ∨
        ((d.stopped = .none ∨ d.n = .count 0) ∧ 0 < d.histLeft ∧ e = .histLeftover ∧ detail = .empty) ∨
        ((d.stopped = .none ∨ d.n = .count 0) ∧ d.histLeft = 0 ∧ d.needIndirect = true ∧ d.lastIndirect = false ∧
          e = .noIndirect ∧ detail = .empty)) →
      step s = .next { s with
        status := .error
        errCode := some e
        errInfo := { byteOffset := s.pos, msgIndex := s.msgCount, instrIndex := s.instrCount, detail := detail }
        errCount := 1 }

/-- A replay that settles ends the handler (42_replay.md R132, 43_msg_branch.md R144, 44_msg_sync.md R151): with no
address field `pc` becomes NONE after an unresolved stop and stays otherwise; a delta is applied to `lastAddr`, and not
again in a re-dispatch; an absolute address is adopted. With repetitions left (45_msg_resource_repeat_misc.md R163) the
whole history is replayed again, from the `pc` the settled replay left. -/
def Obligations.SettledReplayEndsHandler : Prop :=
  ∀ (s : State) (d : Dispatch), Dispatching s d → d.goesOn = false → (d.stopped = .none ∨ d.n = .count 0) →
    d.histLeft = 0 → (d.needIndirect = true → d.lastIndirect = true) → retainable d.msg = true →
    (d.hasAddr = false → (d.after = .finish ∨ d.after = .again 0) →
      step s = .next { s with
        pc := if d.stopped = .none then s.pc else none
        dispatch := none
        prevMsg := if s.repeatLeft.isSome then s.prevMsg else some d.msg }) ∧
    (∀ left, d.hasAddr = false → d.after = .again (left + 1) →
      step s = .next { s with
        pc := if d.stopped = .none then s.pc else none
        dispatch := some { d with
          n := .untilHist, histLeft := d.hist.length, lastIndirect := false, stopped := .none, after := .again left } }) ∧
    (∀ a, d.hasAddr = true → d.after = .delta a → s.repeatLeft = none →
      step s = .next { s with
        lastAddr := s.lastAddr ^^^ a, pc := some (s.lastAddr ^^^ a), dispatch := none, prevMsg := some d.msg }) ∧
    (∀ a, d.hasAddr = true → d.after = .delta a → s.repeatLeft ≠ none →
      step s = .next { s with pc := some s.lastAddr, dispatch := none }) ∧
    (∀ a, d.hasAddr = true → d.after = .adopt a →
      step s = .next { s with
        lastAddr := a, pc := some a, dispatch := none
        prevMsg := if s.repeatLeft.isSome then s.prevMsg else some d.msg })

/-- A `ResourceFull` with RCODE 2 and the history of a loop that branches to itself replays the history 1 + HREPEAT times
in all (45_msg_resource_repeat_misc.md R163): the whole effect of the message, one step a branch and one a repetition
(the model's step granularity, notes/assumptions/6.md). -/
def Obligations.HistoryFullReplaysOnePlusHrepeatTimes : Prop :=
  ∀ (s : State) (a : Addr) (size len more : Nat) (rdata hrepeat tstamp : Operand),
    Fetching s → s.pc = some a → evenAddr a → twoOrFour size → s.oracle.lookup a = some (branchMeta size a) →
    len ≤ 31 → rdata.val = 2 ^ (len + 1) - 1 → hrepeat.val = more →
    ∃ t, exec (.resourceFull2 rdata hrepeat tstamp) s = .next t ∧
      Sys2Proof.core.run ((1 + more) * (len + 1)) t = .next { s with
        instrCount := s.instrCount + (1 + more) * len
        records := s.records ++
          List.replicate ((1 + more) * len) ⟨a, (branchMeta size a).cls, size, some a, true⟩
        prevMsg := some (.resourceFull2 rdata hrepeat tstamp) }

/-- The whole effect of a `DirectBranch` over a run of `m` four-byte linear instructions: `m` records, `pc` past them, the
budget of 2m units used up (43_msg_branch.md R141, 42_replay.md R121 to R129), in m + 1 steps (the model's step
granularity, notes/assumptions/6.md). -/
def Obligations.DirectBranchReplaysLinearRun : Prop :=
  ∀ (s : State) (a : Addr) (m : Nat) (icnt tstamp : Operand), Fetching s → s.pc = some a → evenAddr a →
    (∀ j < m, s.oracle.lookup (a + BitVec.ofNat 64 (4 * j)) = some (linearMeta 4)) →
    (icnt.val : Int) + s.pendingICNTAdjust = 2 * m →
    ∃ t, exec (.directBranch icnt tstamp) s = .next t ∧
      Sys2Proof.core.run (m + 1) t = .next { s with
        pendingICNTAdjust := 0
        instrCount := s.instrCount + m
        records := s.records ++ (List.range m).map fun j =>
          ⟨a + BitVec.ofNat 64 (4 * j), (linearMeta 4).cls, 4, none, false⟩
        pc := some (a + BitVec.ofNat 64 (4 * m))
        prevMsg := some (.directBranch icnt tstamp) }

/-! ### The call stack -/

/-- The ring is a deque of bounded length that drops its oldest entry (41_callstack.md R112, R113, R118): in ADDRESSED
mode a push puts the address first and keeps at most `CS_DEPTH` entries, a pop answers the first entry, NONE when there
is none, and drops it. In COUNTING mode only the counter moves: a push adds 1, at most to `CS_DEPTH`, and a pop answers
NONE and takes 1 off, floor 0. -/
def Obligations.RingIsBoundedDeque : Prop :=
  ∀ s : State, RingOk s →
    (s.cfg.csMode = .addressed →
      (∀ a, ringContents (s.push a) = (a :: ringContents s).take s.cfg.csDepth) ∧
      s.pop.1 = (ringContents s).head? ∧ ringContents s.pop.2 = (ringContents s).tail) ∧
    (s.cfg.csMode = .counting →
      (∀ a, s.push a = { s with csSize := min (s.csSize + 1) s.cfg.csDepth }) ∧
      s.pop = (none, { s with csSize := s.csSize - 1 }))

/-- The boundedness law (41_callstack.md R114): after `D + k` pushes from the empty stack, `D` pops give the `D` addresses
pushed last in LIFO order and the next gives NONE; in COUNTING mode the counter is `D` after the pushes, and the `D` pops
give NONE and leave it 0. -/
def Obligations.PopsGiveMostRecentPushes : Prop :=
  ∀ (s : State) (as : List Addr), RingOk s → s.csSize = 0 → 0 < s.cfg.csDepth → s.cfg.csDepth ≤ as.length →
    (s.cfg.csMode = .addressed →
      (popMany (s.cfg.csDepth + 1) (pushAll as s)).1 = (as.reverse.take s.cfg.csDepth).map some ++ [none]) ∧
    (s.cfg.csMode = .counting →
      (pushAll as s).csSize = s.cfg.csDepth ∧
      (popMany s.cfg.csDepth (pushAll as s)).1 = List.replicate s.cfg.csDepth none ∧
      (popMany s.cfg.csDepth (pushAll as s)).2.csSize = 0)

/-! ### The whole machine -/

/-- Reset (70_reset_and_hazards.md R230): the registers it gives a value have it, whatever configuration, stream and
oracle the host supplies, and the stream is read from offset 0. -/
def Obligations.ResetGivesTheTabledValues : Prop :=
  ∀ (cfg : Config) (stream : List Byte) (oracle : Oracle),
    let s := State.create cfg stream oracle
    s.status = .run ∧ s.pos = 0 ∧ s.framer.fstate = .idle ∧ s.pc = none ∧ s.lastAddr = 0 ∧
    s.pendingICNTAdjust = 0 ∧ s.prevMsg = none ∧ s.csSize = 0 ∧ s.csTop = 0 ∧ s.msgCount = 0 ∧ s.instrCount = 0 ∧
    s.idleCount = 0 ∧ s.errCount = 0 ∧ errCodeNumber s.errCode = 0 ∧ s.records = [] ∧ s.cfg = cfg ∧
    s.oracle = oracle ∧ ∀ k, s.wire.read k = stream[k]?

/-- A created session has the invariant, the reset state among them. -/
def Obligations.CreatedSessionHasInvariant : Prop :=
  (∀ (cfg : Config) (stream : List Byte) (oracle : Oracle), SessionInv (State.create cfg stream oracle)) ∧ SessionInv State.reset

/-- Every step keeps the invariant: the ring's registers in range (10_state.md R25), `instrCount` the number of records
(R17), records only for addresses the oracle knows (70_reset_and_hazards.md R241), one error at most (10_state.md R20),
the adjustment never negative (90_conflicts.md C9), `prevMsg` no `RepeatBranch` and no `Error` (10_state.md R24), the
delta base even (30_encoding.md R67), and the working registers in agreement. -/
def Obligations.StepKeepsInvariant : Prop :=
  ∀ s t : State, SessionInv s → step s = .next t → SessionInv t

/-- `E_NEG_BUDGET` is unreachable from reset (60_exceptions.md R211, 90_conflicts.md C9). -/
def Obligations.NegBudgetIsUnreachable : Prop :=
  ∀ (cfg : Config) (stream : List Byte) (oracle : Oracle) (k : Nat) (t : State),
    Sys2Proof.core.run k (State.create cfg stream oracle) = .next t → t.errCode ≠ some .negBudget

/-- Only a sync message can synchronize the block (44_msg_sync.md, its first paragraph; 43_msg_branch.md R142): a step
that leaves `pc = NONE` runs one of the four sync kinds. -/
def Obligations.OnlySyncSynchronizes : Prop :=
  ∀ s t : State, SessionInv s → s.pc = none → step s = .next t → t.pc ≠ none →
    ∃ i s', plan s = .run i s' ∧ isSync i = true

/-- `lastAddr` is written only by the messages that carry an address (10_state.md R15): at the close of a delta kind, not
in a re-dispatch, at the close of a sync kind, or by a sync kind that arrives unsynchronized. -/
def Obligations.LastAddrOnlyByAddressMessages : Prop :=
  ∀ s t : State, step s = .next t → t.lastAddr ≠ s.lastAddr →
    (∃ d a, s.dispatch = some d ∧ d.goesOn = false ∧
      ((d.after = .adopt a ∧ t.lastAddr = a) ∨
        (d.after = .delta a ∧ s.repeatLeft = none ∧ t.lastAddr = s.lastAddr ^^^ a))) ∨
    (s.dispatch = none ∧ s.pc = none ∧ ∃ i s', plan s = .run i s' ∧ isSync i = true)

/-- A record once emitted is never withdrawn (20_memory.md R45), and a step emits at most one, counted in `instrCount`
(10_state.md R17). -/
def Obligations.RecordsAreOnlyAppended : Prop :=
  ∀ s t : State, step s = .next t →
    ∃ new : List Record, new.length ≤ 1 ∧ t.records = s.records ++ new ∧
      t.instrCount = s.instrCount + new.length

/-- No step writes a parameter of the run (10_state.md R11, R22; 20_memory.md R42): the configuration, the stream and the
oracle stay as they are, every byte of the stream included. -/
def Obligations.RunParametersAreNeverWritten : Prop :=
  ∀ s t : State, step s = .next t →
    t.cfg = s.cfg ∧ t.oracle = s.oracle ∧ t.wire = s.wire ∧ ∀ k, t.wire.read k = s.wire.read k

/-- `pos` counts the bytes read (10_state.md R13): a step between dispatches that finds a byte there reads it and adds
exactly 1, whatever else it does; every other step leaves it. -/
def Obligations.PosCountsBytesRead : Prop :=
  ∀ s t : State, step s = .next t →
    (Fetching s → ∀ b, s.wire.read s.pos = some b → t.pos = s.pos + 1) ∧
    (¬ (Fetching s ∧ (s.wire.read s.pos).isSome = true) → t.pos = s.pos)

/-- In DONE and ERROR there is no step (10_state.md R18), so ERROR is never left (60_exceptions.md R223); that the model
says so by a fault is its choice, notes/assumptions/13.md. -/
def Obligations.StoppedBlockHasNoStep : Prop :=
  ∀ s : State, s.cfg.tolerateFirstUnknown = false → s.cfg.catalog.legal = true →
    (s.status = .done → step s = .fault .runDone) ∧ (s.status = .error → step s = .fault .runError)

/-- The configuration `TOLERATE_FIRST_UNKNOWN = true` is refused (42_replay.md R134), at every step
(notes/assumptions/10.md). -/
def Obligations.ToleranceIsRefused : Prop :=
  ∀ s : State, s.cfg.tolerateFirstUnknown = true → step s = .refused .tolerateFirstUnknown

/-- Entering ERROR (60_exceptions.md R202, R222): the code, one error and the three indices are recorded, with the offset
the error calls for, and the step that raises changes none of these: the records, `instrCount`, `idleCount`, `pc`,
`lastAddr`, the ring and `prevMsg`. `pos` and `msgCount` may change in it: it may have read a byte, and completed the
message whose handler raises. That the working registers keep what they hold is notes/assumptions/15.md. -/
def Obligations.RaisingStepKeepsTheRest : Prop :=
  ∀ s t : State, step s = .next t → t.status = .error →
    ∃ e detail, t.errCode = some e ∧ t.errCount = 1 ∧
      t.errInfo = ⟨if e ∈ [Err.invalidMseo, .frameSeq, .fixedTruncated, .unknownTcode, .fieldOverflow]
        then t.pos - 1 else t.pos, t.msgCount, t.instrCount, detail⟩ ∧
      t.records = s.records ∧ t.instrCount = s.instrCount ∧ t.idleCount = s.idleCount ∧ t.pc = s.pc ∧
      t.lastAddr = s.lastAddr ∧ t.csMem = s.csMem ∧ t.csTop = s.csTop ∧ t.csSize = s.csSize ∧
      t.prevMsg = s.prevMsg

/-- A counted replay ends (42_replay.md R130): from a budget of `k`, after at most k + 1 steps (the model's step
granularity, notes/assumptions/6.md) the dispatch is over, or the block is in ERROR, or the model refused an ill-formed
oracle answer (notes/assumptions/9.md). -/
def Obligations.CountedReplayEnds : Prop :=
  ∀ (s : State) (d : Dispatch) (k : Nat), Dispatching s d → d.n = .count k → (∀ left, d.after ≠ .again left) →
    ∃ j ≤ k + 1, Sys2Proof.core.run j s = .refused .illFormedOracleAnswer ∨
      ∃ t, Sys2Proof.core.run j s = .next t ∧ (t.status = .error ∨ t.dispatch = none)

/-- A history replay can hang (70_reset_and_hazards.md R243, 42_replay.md R130): at a direct jump to itself, with history
bits left, every number of steps is possible, each emits the jump's record, and the block still runs. -/
def Obligations.HistoryReplayCanHang : Prop :=
  ∀ (s : State) (d : Dispatch) (a : Addr) (size : Nat), Dispatching s d → d.stopped = .none → d.n = .untilHist →
    0 < d.histLeft → s.pc = some a → evenAddr a → twoOrFour size → s.oracle.lookup a = some (jumpMeta size a) →
    ∀ k, ∃ t, Sys2Proof.core.run k s = .next t ∧ t.status = .run ∧ t.pc = some a ∧
      t.instrCount = s.instrCount + k ∧
      t.records = s.records ++ List.replicate k ⟨a, (jumpMeta size a).cls, size, some a, true⟩
end

