-- ==== Sys2Proof/Laws/Memory.lean ====
section
/-! SUPPORT. The wire stream's cells: every operation that builds or loads cells keeps the canonical form, and a read
after a load. -/

namespace Sys2Proof.Machine

open Sys2Proof

theorem Memory.wf_cons {c : Host.Cell} {m : Memory} :
    Memory.wf (c :: m) = true ↔ (∀ d ∈ m, c.1 < d.1) ∧ Memory.wf m = true := by
  simp [Memory.wf, List.all_eq_true]

theorem Memory.ofBytes_above (base : Nat) (bytes : List Byte) :
    ∀ d ∈ Memory.ofBytes base bytes, base ≤ d.1 := by
  induction bytes generalizing base with
  | nil => simp [Memory.ofBytes]
  | cons b rest ih =>
    intro d hd
    rcases List.mem_cons.mp hd with rfl | hd
    · exact Nat.le_refl _
    · exact Nat.le_of_succ_le (ih (base + 1) d hd)

/-- The cells of a byte list are in canonical form. -/
theorem Memory.ofBytes_wf (base : Nat) (bytes : List Byte) : Memory.wf (Memory.ofBytes base bytes) = true := by
  induction bytes generalizing base with
  | nil => rfl
  | cons b rest ih =>
    exact Memory.wf_cons.mpr ⟨fun d hd => Memory.ofBytes_above (base + 1) rest d hd, ih (base + 1)⟩

theorem Memory.mem_write {m : Memory} {a : Nat} {b : Byte} {d : Host.Cell} (h : d ∈ Memory.write m a b) :
    d = (a, b) ∨ d ∈ m := by
  induction m with
  | nil => simpa [Memory.write] using h
  | cons c rest ih =>
    simp only [Memory.write] at h
    split at h
    · simpa using h
    · split at h
      · rcases List.mem_cons.mp h with h | h
        · exact .inl h
        · exact .inr (List.mem_cons_of_mem _ h)
      · rcases List.mem_cons.mp h with h | h
        · exact .inr (h ▸ List.mem_cons_self ..)
        · exact (ih h).imp_right (List.mem_cons_of_mem _)

/-- Loading a byte keeps the canonical form. -/
theorem Memory.write_wf {m : Memory} (h : Memory.wf m = true) (a : Nat) (b : Byte) :
    Memory.wf (Memory.write m a b) = true := by
  induction m with
  | nil => rfl
  | cons c rest ih =>
    obtain ⟨above, hrest⟩ := Memory.wf_cons.mp h
    simp only [Memory.write]
    split
    · next lt =>
      refine Memory.wf_cons.mpr ⟨fun d hd => ?_, h⟩
      rcases List.mem_cons.mp hd with rfl | hd
      · exact lt
      · exact Nat.lt_trans lt (above d hd)
    · split
      · next eq => exact Memory.wf_cons.mpr ⟨fun d hd => by simpa [eq] using above d hd, hrest⟩
      · next nlt ne =>
        refine Memory.wf_cons.mpr ⟨fun d hd => ?_, ih hrest⟩
        rcases Memory.mem_write hd with rfl | hd
        · show c.1 < a
          omega
        · exact above d hd

/-- A read after a load of the same offset gives the byte loaded. -/
theorem Memory.read_write_same (m : Memory) (a : Nat) (b : Byte) : Memory.read (Memory.write m a b) a = some b := by
  induction m with
  | nil => simp [Memory.write, Memory.read]
  | cons c rest ih =>
    simp only [Memory.write]
    split
    · simp [Memory.read]
    · split
      · simp [Memory.read]
      · next ne => simpa [Memory.read, Ne.symm ne] using ih

/-- A load leaves every other offset alone. -/
theorem Memory.read_write_other (m : Memory) {a x : Nat} (b : Byte) (h : x ≠ a) :
    Memory.read (Memory.write m a b) x = Memory.read m x := by
  induction m with
  | nil => simp [Memory.write, Memory.read, Ne.symm h]
  | cons c rest ih =>
    simp only [Memory.write]
    split
    · simp [Memory.read, Ne.symm h]
    · split
      · next eq => simp [Memory.read, ← eq, Ne.symm h]
      · simp [Memory.read, ih]

/-- Loading bytes keeps the canonical form. -/
theorem Memory.load_wf {m : Memory} (h : Memory.wf m = true) (a : Nat) (bytes : List Byte) :
    Memory.wf (Memory.load m a bytes) = true := by
  induction bytes generalizing m a with
  | nil => exact h
  | cons b rest ih => exact ih (Memory.write_wf h a b) (a + 1)

/-- The stream of the reset state is in canonical form. -/
theorem State.create_wire_wf (cfg : Config) (stream : List Byte) (oracle : Oracle) :
    Memory.wf (State.create cfg stream oracle).wire = true :=
  Memory.ofBytes_wf 0 stream

/-- Placing an instruction keeps the canonical form. -/
theorem State.placeBytes_wire_wf {s : State} (h : Memory.wf s.wire = true) (bytes : List Byte) :
    Memory.wf (s.placeBytes bytes).wire = true :=
  Memory.load_wf h s.pos bytes

theorem Memory.read_ofBytes (base : Nat) (bytes : List Byte) (k : Nat) :
    Memory.read (Memory.ofBytes base bytes) (base + k) = bytes[k]? := by
  induction bytes generalizing base k with
  | nil => rfl
  | cons b rest ih =>
    cases k with
    | zero => simp [Memory.ofBytes, Memory.read]
    | succ k =>
      have : base + (k + 1) = base + 1 + k := by omega
      simp [Memory.ofBytes, Memory.read, this, ih, show base ≠ base + 1 + k by omega]

/-- The stream given at reset is read byte by byte from offset 0 (20_memory.md R41). -/
theorem State.create_read (cfg : Config) (stream : List Byte) (oracle : Oracle) (k : Nat) :
    (State.create cfg stream oracle).wire.read k = stream[k]? := by
  show Memory.read (Memory.ofBytes 0 stream) k = stream[k]?
  have h := Memory.read_ofBytes 0 stream k
  rwa [Nat.zero_add] at h

end Sys2Proof.Machine
end

