-- ==== Sys2Proof/Laws/State.lean ====
section
/-! SUPPORT. One lemma per field per shared update of the state, each true by rfl, so that no proof unfolds a record
update. -/

namespace Sys2Proof.Machine

open Sys2Proof

/-! ### `State.raise` -/

@[simp] theorem State.raise_cfg (e : Err) (detail : Detail) (s : State) : (s.raise e detail).cfg = s.cfg := rfl
@[simp] theorem State.raise_wire (e : Err) (detail : Detail) (s : State) :
    (s.raise e detail).wire = s.wire := rfl
@[simp] theorem State.raise_oracle (e : Err) (detail : Detail) (s : State) :
    (s.raise e detail).oracle = s.oracle := rfl
@[simp] theorem State.raise_records (e : Err) (detail : Detail) (s : State) :
    (s.raise e detail).records = s.records := rfl
@[simp] theorem State.raise_status (e : Err) (detail : Detail) (s : State) :
    (s.raise e detail).status = .error := rfl
@[simp] theorem State.raise_errCode (e : Err) (detail : Detail) (s : State) :
    (s.raise e detail).errCode = some e := rfl
@[simp] theorem State.raise_errInfo (e : Err) (detail : Detail) (s : State) :
    (s.raise e detail).errInfo = { byteOffset := if Err.onByte e then s.pos - 1 else s.pos, msgIndex := s.msgCount, instrIndex := s.instrCount, detail := detail } := rfl
@[simp] theorem State.raise_errCount (e : Err) (detail : Detail) (s : State) : (s.raise e detail).errCount = 1 := rfl
@[simp] theorem State.raise_pos (e : Err) (detail : Detail) (s : State) : (s.raise e detail).pos = s.pos := rfl
@[simp] theorem State.raise_pc (e : Err) (detail : Detail) (s : State) : (s.raise e detail).pc = s.pc := rfl
@[simp] theorem State.raise_lastAddr (e : Err) (detail : Detail) (s : State) :
    (s.raise e detail).lastAddr = s.lastAddr := rfl
@[simp] theorem State.raise_pendingICNTAdjust (e : Err) (detail : Detail) (s : State) :
    (s.raise e detail).pendingICNTAdjust = s.pendingICNTAdjust := rfl
@[simp] theorem State.raise_instrCount (e : Err) (detail : Detail) (s : State) :
    (s.raise e detail).instrCount = s.instrCount := rfl
@[simp] theorem State.raise_msgCount (e : Err) (detail : Detail) (s : State) :
    (s.raise e detail).msgCount = s.msgCount := rfl
@[simp] theorem State.raise_idleCount (e : Err) (detail : Detail) (s : State) :
    (s.raise e detail).idleCount = s.idleCount := rfl
@[simp] theorem State.raise_framer (e : Err) (detail : Detail) (s : State) :
    (s.raise e detail).framer = s.framer := rfl
@[simp] theorem State.raise_prevMsg (e : Err) (detail : Detail) (s : State) :
    (s.raise e detail).prevMsg = s.prevMsg := rfl
@[simp] theorem State.raise_csMem (e : Err) (detail : Detail) (s : State) :
    (s.raise e detail).csMem = s.csMem := rfl
@[simp] theorem State.raise_csTop (e : Err) (detail : Detail) (s : State) :
    (s.raise e detail).csTop = s.csTop := rfl
@[simp] theorem State.raise_csSize (e : Err) (detail : Detail) (s : State) :
    (s.raise e detail).csSize = s.csSize := rfl
@[simp] theorem State.raise_dispatch (e : Err) (detail : Detail) (s : State) :
    (s.raise e detail).dispatch = s.dispatch := rfl
@[simp] theorem State.raise_repeatLeft (e : Err) (detail : Detail) (s : State) :
    (s.raise e detail).repeatLeft = s.repeatLeft := rfl

/-! ### `State.emit` -/

@[simp] theorem State.emit_cfg (rec : Record) (s : State) : (s.emit rec).cfg = s.cfg := rfl
@[simp] theorem State.emit_wire (rec : Record) (s : State) : (s.emit rec).wire = s.wire := rfl
@[simp] theorem State.emit_oracle (rec : Record) (s : State) : (s.emit rec).oracle = s.oracle := rfl
@[simp] theorem State.emit_records (rec : Record) (s : State) : (s.emit rec).records = s.records ++ [rec] := rfl
@[simp] theorem State.emit_status (rec : Record) (s : State) : (s.emit rec).status = s.status := rfl
@[simp] theorem State.emit_errCode (rec : Record) (s : State) : (s.emit rec).errCode = s.errCode := rfl
@[simp] theorem State.emit_errInfo (rec : Record) (s : State) : (s.emit rec).errInfo = s.errInfo := rfl
@[simp] theorem State.emit_errCount (rec : Record) (s : State) : (s.emit rec).errCount = s.errCount := rfl
@[simp] theorem State.emit_pos (rec : Record) (s : State) : (s.emit rec).pos = s.pos := rfl
@[simp] theorem State.emit_pc (rec : Record) (s : State) : (s.emit rec).pc = s.pc := rfl
@[simp] theorem State.emit_lastAddr (rec : Record) (s : State) : (s.emit rec).lastAddr = s.lastAddr := rfl
@[simp] theorem State.emit_pendingICNTAdjust (rec : Record) (s : State) : (s.emit rec).pendingICNTAdjust = s.pendingICNTAdjust := rfl
@[simp] theorem State.emit_instrCount (rec : Record) (s : State) : (s.emit rec).instrCount = s.instrCount := rfl
@[simp] theorem State.emit_msgCount (rec : Record) (s : State) : (s.emit rec).msgCount = s.msgCount := rfl
@[simp] theorem State.emit_idleCount (rec : Record) (s : State) : (s.emit rec).idleCount = s.idleCount := rfl
@[simp] theorem State.emit_framer (rec : Record) (s : State) : (s.emit rec).framer = s.framer := rfl
@[simp] theorem State.emit_prevMsg (rec : Record) (s : State) : (s.emit rec).prevMsg = s.prevMsg := rfl
@[simp] theorem State.emit_csMem (rec : Record) (s : State) : (s.emit rec).csMem = s.csMem := rfl
@[simp] theorem State.emit_csTop (rec : Record) (s : State) : (s.emit rec).csTop = s.csTop := rfl
@[simp] theorem State.emit_csSize (rec : Record) (s : State) : (s.emit rec).csSize = s.csSize := rfl
@[simp] theorem State.emit_dispatch (rec : Record) (s : State) : (s.emit rec).dispatch = s.dispatch := rfl
@[simp] theorem State.emit_repeatLeft (rec : Record) (s : State) : (s.emit rec).repeatLeft = s.repeatLeft := rfl

/-! ### `State.finish` -/

@[simp] theorem State.finish_cfg (m : Instr) (s : State) : (s.finish m).cfg = s.cfg := rfl
@[simp] theorem State.finish_wire (m : Instr) (s : State) : (s.finish m).wire = s.wire := rfl
@[simp] theorem State.finish_oracle (m : Instr) (s : State) : (s.finish m).oracle = s.oracle := rfl
@[simp] theorem State.finish_records (m : Instr) (s : State) : (s.finish m).records = s.records := rfl
@[simp] theorem State.finish_status (m : Instr) (s : State) : (s.finish m).status = s.status := rfl
@[simp] theorem State.finish_errCode (m : Instr) (s : State) : (s.finish m).errCode = s.errCode := rfl
@[simp] theorem State.finish_errInfo (m : Instr) (s : State) : (s.finish m).errInfo = s.errInfo := rfl
@[simp] theorem State.finish_errCount (m : Instr) (s : State) : (s.finish m).errCount = s.errCount := rfl
@[simp] theorem State.finish_pos (m : Instr) (s : State) : (s.finish m).pos = s.pos := rfl
@[simp] theorem State.finish_pc (m : Instr) (s : State) : (s.finish m).pc = s.pc := rfl
@[simp] theorem State.finish_lastAddr (m : Instr) (s : State) : (s.finish m).lastAddr = s.lastAddr := rfl
@[simp] theorem State.finish_pendingICNTAdjust (m : Instr) (s : State) : (s.finish m).pendingICNTAdjust = s.pendingICNTAdjust := rfl
@[simp] theorem State.finish_instrCount (m : Instr) (s : State) : (s.finish m).instrCount = s.instrCount := rfl
@[simp] theorem State.finish_msgCount (m : Instr) (s : State) : (s.finish m).msgCount = s.msgCount := rfl
@[simp] theorem State.finish_idleCount (m : Instr) (s : State) : (s.finish m).idleCount = s.idleCount := rfl
@[simp] theorem State.finish_framer (m : Instr) (s : State) : (s.finish m).framer = s.framer := rfl
@[simp] theorem State.finish_prevMsg (m : Instr) (s : State) :
    (s.finish m).prevMsg = if s.repeatLeft.isSome then s.prevMsg else nextPrevMsg m s.prevMsg := rfl
@[simp] theorem State.finish_csMem (m : Instr) (s : State) : (s.finish m).csMem = s.csMem := rfl
@[simp] theorem State.finish_csTop (m : Instr) (s : State) : (s.finish m).csTop = s.csTop := rfl
@[simp] theorem State.finish_csSize (m : Instr) (s : State) : (s.finish m).csSize = s.csSize := rfl
@[simp] theorem State.finish_dispatch (m : Instr) (s : State) : (s.finish m).dispatch = none := rfl
@[simp] theorem State.finish_repeatLeft (m : Instr) (s : State) : (s.finish m).repeatLeft = s.repeatLeft := rfl

/-! ### `State.completeMessage` -/

@[simp] theorem State.completeMessage_cfg (f : Framer) (s : State) : (s.completeMessage f).cfg = s.cfg := rfl
@[simp] theorem State.completeMessage_wire (f : Framer) (s : State) : (s.completeMessage f).wire = s.wire := rfl
@[simp] theorem State.completeMessage_oracle (f : Framer) (s : State) : (s.completeMessage f).oracle = s.oracle := rfl
@[simp] theorem State.completeMessage_records (f : Framer) (s : State) : (s.completeMessage f).records = s.records := rfl
@[simp] theorem State.completeMessage_status (f : Framer) (s : State) : (s.completeMessage f).status = s.status := rfl
@[simp] theorem State.completeMessage_errCode (f : Framer) (s : State) : (s.completeMessage f).errCode = s.errCode := rfl
@[simp] theorem State.completeMessage_errInfo (f : Framer) (s : State) : (s.completeMessage f).errInfo = s.errInfo := rfl
@[simp] theorem State.completeMessage_errCount (f : Framer) (s : State) : (s.completeMessage f).errCount = s.errCount := rfl
@[simp] theorem State.completeMessage_pos (f : Framer) (s : State) : (s.completeMessage f).pos = s.pos := rfl
@[simp] theorem State.completeMessage_pc (f : Framer) (s : State) : (s.completeMessage f).pc = s.pc := rfl
@[simp] theorem State.completeMessage_lastAddr (f : Framer) (s : State) : (s.completeMessage f).lastAddr = s.lastAddr := rfl
@[simp] theorem State.completeMessage_pendingICNTAdjust (f : Framer) (s : State) :
    (s.completeMessage f).pendingICNTAdjust = s.pendingICNTAdjust := rfl
@[simp] theorem State.completeMessage_instrCount (f : Framer) (s : State) : (s.completeMessage f).instrCount = s.instrCount := rfl
@[simp] theorem State.completeMessage_msgCount (f : Framer) (s : State) : (s.completeMessage f).msgCount = s.msgCount + 1 := rfl
@[simp] theorem State.completeMessage_idleCount (f : Framer) (s : State) : (s.completeMessage f).idleCount = s.idleCount := rfl
@[simp] theorem State.completeMessage_framer (f : Framer) (s : State) :
    (s.completeMessage f).framer = { f with fstate := .idle } := rfl
@[simp] theorem State.completeMessage_prevMsg (f : Framer) (s : State) : (s.completeMessage f).prevMsg = s.prevMsg := rfl
@[simp] theorem State.completeMessage_csMem (f : Framer) (s : State) : (s.completeMessage f).csMem = s.csMem := rfl
@[simp] theorem State.completeMessage_csTop (f : Framer) (s : State) : (s.completeMessage f).csTop = s.csTop := rfl
@[simp] theorem State.completeMessage_csSize (f : Framer) (s : State) : (s.completeMessage f).csSize = s.csSize := rfl
@[simp] theorem State.completeMessage_dispatch (f : Framer) (s : State) : (s.completeMessage f).dispatch = s.dispatch := rfl
@[simp] theorem State.completeMessage_repeatLeft (f : Framer) (s : State) : (s.completeMessage f).repeatLeft = s.repeatLeft := rfl

/-! ### `State.openReplay` -/

@[simp] theorem State.openReplay_cfg (m : Instr) (b : Budget) (h : Hist) (x y : Bool) (k : After) (s : State) :
    (s.openReplay m b h x y k).cfg = s.cfg := rfl
@[simp] theorem State.openReplay_wire (m : Instr) (b : Budget) (h : Hist) (x y : Bool) (k : After) (s : State) :
    (s.openReplay m b h x y k).wire = s.wire := rfl
@[simp] theorem State.openReplay_oracle (m : Instr) (b : Budget) (h : Hist) (x y : Bool) (k : After) (s : State) :
    (s.openReplay m b h x y k).oracle = s.oracle := rfl
@[simp] theorem State.openReplay_records (m : Instr) (b : Budget) (h : Hist) (x y : Bool) (k : After) (s : State) :
    (s.openReplay m b h x y k).records = s.records := rfl
@[simp] theorem State.openReplay_status (m : Instr) (b : Budget) (h : Hist) (x y : Bool) (k : After) (s : State) :
    (s.openReplay m b h x y k).status = s.status := rfl
@[simp] theorem State.openReplay_errCode (m : Instr) (b : Budget) (h : Hist) (x y : Bool) (k : After) (s : State) :
    (s.openReplay m b h x y k).errCode = s.errCode := rfl
@[simp] theorem State.openReplay_errInfo (m : Instr) (b : Budget) (h : Hist) (x y : Bool) (k : After) (s : State) :
    (s.openReplay m b h x y k).errInfo = s.errInfo := rfl
@[simp] theorem State.openReplay_errCount (m : Instr) (b : Budget) (h : Hist) (x y : Bool) (k : After) (s : State) :
    (s.openReplay m b h x y k).errCount = s.errCount := rfl
@[simp] theorem State.openReplay_pos (m : Instr) (b : Budget) (h : Hist) (x y : Bool) (k : After) (s : State) :
    (s.openReplay m b h x y k).pos = s.pos := rfl
@[simp] theorem State.openReplay_pc (m : Instr) (b : Budget) (h : Hist) (x y : Bool) (k : After) (s : State) :
    (s.openReplay m b h x y k).pc = s.pc := rfl
@[simp] theorem State.openReplay_lastAddr (m : Instr) (b : Budget) (h : Hist) (x y : Bool) (k : After) (s : State) :
    (s.openReplay m b h x y k).lastAddr = s.lastAddr := rfl
@[simp] theorem State.openReplay_pendingICNTAdjust (m : Instr) (b : Budget) (h : Hist) (x y : Bool) (k : After) (s : State) :
    (s.openReplay m b h x y k).pendingICNTAdjust = s.pendingICNTAdjust := rfl
@[simp] theorem State.openReplay_instrCount (m : Instr) (b : Budget) (h : Hist) (x y : Bool) (k : After) (s : State) :
    (s.openReplay m b h x y k).instrCount = s.instrCount := rfl
@[simp] theorem State.openReplay_msgCount (m : Instr) (b : Budget) (h : Hist) (x y : Bool) (k : After) (s : State) :
    (s.openReplay m b h x y k).msgCount = s.msgCount := rfl
@[simp] theorem State.openReplay_idleCount (m : Instr) (b : Budget) (h : Hist) (x y : Bool) (k : After) (s : State) :
    (s.openReplay m b h x y k).idleCount = s.idleCount := rfl
@[simp] theorem State.openReplay_framer (m : Instr) (b : Budget) (h : Hist) (x y : Bool) (k : After) (s : State) :
    (s.openReplay m b h x y k).framer = s.framer := rfl
@[simp] theorem State.openReplay_prevMsg (m : Instr) (b : Budget) (h : Hist) (x y : Bool) (k : After) (s : State) :
    (s.openReplay m b h x y k).prevMsg = s.prevMsg := rfl
@[simp] theorem State.openReplay_csMem (m : Instr) (b : Budget) (h : Hist) (x y : Bool) (k : After) (s : State) :
    (s.openReplay m b h x y k).csMem = s.csMem := rfl
@[simp] theorem State.openReplay_csTop (m : Instr) (b : Budget) (h : Hist) (x y : Bool) (k : After) (s : State) :
    (s.openReplay m b h x y k).csTop = s.csTop := rfl
@[simp] theorem State.openReplay_csSize (m : Instr) (b : Budget) (h : Hist) (x y : Bool) (k : After) (s : State) :
    (s.openReplay m b h x y k).csSize = s.csSize := rfl
@[simp] theorem State.openReplay_dispatch (m : Instr) (b : Budget) (h : Hist) (x y : Bool) (k : After) (s : State) :
    (s.openReplay m b h x y k).dispatch = some (openDispatch m b h x y k) := rfl
@[simp] theorem State.openReplay_repeatLeft (m : Instr) (b : Budget) (h : Hist) (x y : Bool) (k : After) (s : State) :
    (s.openReplay m b h x y k).repeatLeft = s.repeatLeft := rfl

/-! ### `State.applyDelta` -/

@[simp] theorem State.applyDelta_cfg (a : Addr) (s : State) : (s.applyDelta a).cfg = s.cfg := rfl
@[simp] theorem State.applyDelta_wire (a : Addr) (s : State) : (s.applyDelta a).wire = s.wire := rfl
@[simp] theorem State.applyDelta_oracle (a : Addr) (s : State) : (s.applyDelta a).oracle = s.oracle := rfl
@[simp] theorem State.applyDelta_records (a : Addr) (s : State) : (s.applyDelta a).records = s.records := rfl
@[simp] theorem State.applyDelta_status (a : Addr) (s : State) : (s.applyDelta a).status = s.status := rfl
@[simp] theorem State.applyDelta_errCode (a : Addr) (s : State) : (s.applyDelta a).errCode = s.errCode := rfl
@[simp] theorem State.applyDelta_errInfo (a : Addr) (s : State) : (s.applyDelta a).errInfo = s.errInfo := rfl
@[simp] theorem State.applyDelta_errCount (a : Addr) (s : State) : (s.applyDelta a).errCount = s.errCount := rfl
@[simp] theorem State.applyDelta_pos (a : Addr) (s : State) : (s.applyDelta a).pos = s.pos := rfl
@[simp] theorem State.applyDelta_pc (a : Addr) (s : State) :
    (s.applyDelta a).pc = some (if s.rep then s.lastAddr else s.lastAddr ^^^ a) := rfl
@[simp] theorem State.applyDelta_lastAddr (a : Addr) (s : State) :
    (s.applyDelta a).lastAddr = if s.rep then s.lastAddr else s.lastAddr ^^^ a := rfl
@[simp] theorem State.applyDelta_pendingICNTAdjust (a : Addr) (s : State) : (s.applyDelta a).pendingICNTAdjust = s.pendingICNTAdjust := rfl
@[simp] theorem State.applyDelta_instrCount (a : Addr) (s : State) : (s.applyDelta a).instrCount = s.instrCount := rfl
@[simp] theorem State.applyDelta_msgCount (a : Addr) (s : State) : (s.applyDelta a).msgCount = s.msgCount := rfl
@[simp] theorem State.applyDelta_idleCount (a : Addr) (s : State) : (s.applyDelta a).idleCount = s.idleCount := rfl
@[simp] theorem State.applyDelta_framer (a : Addr) (s : State) : (s.applyDelta a).framer = s.framer := rfl
@[simp] theorem State.applyDelta_prevMsg (a : Addr) (s : State) : (s.applyDelta a).prevMsg = s.prevMsg := rfl
@[simp] theorem State.applyDelta_csMem (a : Addr) (s : State) : (s.applyDelta a).csMem = s.csMem := rfl
@[simp] theorem State.applyDelta_csTop (a : Addr) (s : State) : (s.applyDelta a).csTop = s.csTop := rfl
@[simp] theorem State.applyDelta_csSize (a : Addr) (s : State) : (s.applyDelta a).csSize = s.csSize := rfl
@[simp] theorem State.applyDelta_dispatch (a : Addr) (s : State) : (s.applyDelta a).dispatch = s.dispatch := rfl
@[simp] theorem State.applyDelta_repeatLeft (a : Addr) (s : State) : (s.applyDelta a).repeatLeft = s.repeatLeft := rfl

/-! ### `State.adoptAddr` -/

@[simp] theorem State.adoptAddr_cfg (a : Addr) (s : State) : (s.adoptAddr a).cfg = s.cfg := rfl
@[simp] theorem State.adoptAddr_wire (a : Addr) (s : State) : (s.adoptAddr a).wire = s.wire := rfl
@[simp] theorem State.adoptAddr_oracle (a : Addr) (s : State) : (s.adoptAddr a).oracle = s.oracle := rfl
@[simp] theorem State.adoptAddr_records (a : Addr) (s : State) : (s.adoptAddr a).records = s.records := rfl
@[simp] theorem State.adoptAddr_status (a : Addr) (s : State) : (s.adoptAddr a).status = s.status := rfl
@[simp] theorem State.adoptAddr_errCode (a : Addr) (s : State) : (s.adoptAddr a).errCode = s.errCode := rfl
@[simp] theorem State.adoptAddr_errInfo (a : Addr) (s : State) : (s.adoptAddr a).errInfo = s.errInfo := rfl
@[simp] theorem State.adoptAddr_errCount (a : Addr) (s : State) : (s.adoptAddr a).errCount = s.errCount := rfl
@[simp] theorem State.adoptAddr_pos (a : Addr) (s : State) : (s.adoptAddr a).pos = s.pos := rfl
@[simp] theorem State.adoptAddr_pc (a : Addr) (s : State) : (s.adoptAddr a).pc = some a := rfl
@[simp] theorem State.adoptAddr_lastAddr (a : Addr) (s : State) : (s.adoptAddr a).lastAddr = a := rfl
@[simp] theorem State.adoptAddr_pendingICNTAdjust (a : Addr) (s : State) : (s.adoptAddr a).pendingICNTAdjust = s.pendingICNTAdjust := rfl
@[simp] theorem State.adoptAddr_instrCount (a : Addr) (s : State) : (s.adoptAddr a).instrCount = s.instrCount := rfl
@[simp] theorem State.adoptAddr_msgCount (a : Addr) (s : State) : (s.adoptAddr a).msgCount = s.msgCount := rfl
@[simp] theorem State.adoptAddr_idleCount (a : Addr) (s : State) : (s.adoptAddr a).idleCount = s.idleCount := rfl
@[simp] theorem State.adoptAddr_framer (a : Addr) (s : State) : (s.adoptAddr a).framer = s.framer := rfl
@[simp] theorem State.adoptAddr_prevMsg (a : Addr) (s : State) : (s.adoptAddr a).prevMsg = s.prevMsg := rfl
@[simp] theorem State.adoptAddr_csMem (a : Addr) (s : State) : (s.adoptAddr a).csMem = s.csMem := rfl
@[simp] theorem State.adoptAddr_csTop (a : Addr) (s : State) : (s.adoptAddr a).csTop = s.csTop := rfl
@[simp] theorem State.adoptAddr_csSize (a : Addr) (s : State) : (s.adoptAddr a).csSize = s.csSize := rfl
@[simp] theorem State.adoptAddr_dispatch (a : Addr) (s : State) : (s.adoptAddr a).dispatch = s.dispatch := rfl
@[simp] theorem State.adoptAddr_repeatLeft (a : Addr) (s : State) : (s.adoptAddr a).repeatLeft = s.repeatLeft := rfl

end Sys2Proof.Machine
end

