-- ==== Sys2Proof/Laws/Ops.lean ====
section
/-! SUPPORT. One lemma per shared operation that says once everything it can do; later proofs cite these and unfold no
operation. -/

namespace Sys2Proof.Machine

open Sys2Proof

/-! ### The wire stream -/

/-- `WireNext` answers the byte at `pos` and changes `pos` only. -/
theorem State.wireNext_eq_some {s s' : State} {b : Byte} :
    s.wireNext = some (b, s') ↔ s.wire.read s.pos = some b ∧ s' = { s with pos := s.pos + 1 } := by
  cases h : s.wire.read s.pos with
  | none => simp [State.wireNext, h]
  | some c => simp [State.wireNext, h, eq_comm]

theorem State.wireNext_eq_none {s : State} : s.wireNext = none ↔ s.wire.read s.pos = none := by
  cases h : s.wire.read s.pos <;> simp [State.wireNext, h]

/-! ### The call stack -/

/-- Everything `push` can do (41_callstack.md R112). -/
theorem State.push_cases (a : Addr) (s : State) :
    (s.cfg.csDepth = 0 ∧ s.push a = s) ∨
    (0 < s.cfg.csDepth ∧ s.cfg.csMode = .addressed ∧
      s.push a = { s with
        csTop := (s.csTop + 1) % s.cfg.csDepth
        csMem := s.csMem.set ((s.csTop + 1) % s.cfg.csDepth) a
        csSize := min (s.csSize + 1) s.cfg.csDepth }) ∨
    (0 < s.cfg.csDepth ∧ s.cfg.csMode = .counting ∧
      s.push a = { s with csSize := min (s.csSize + 1) s.cfg.csDepth }) := by
  unfold State.push
  by_cases h : s.cfg.csDepth = 0
  · simp [h]
  · cases hm : s.cfg.csMode <;> simp [h, Nat.pos_of_ne_zero h]

/-- Everything `pop` can do (41_callstack.md R113). -/
theorem State.pop_cases (s : State) :
    (s.csSize = 0 ∧ s.pop = (none, s)) ∨
    (0 < s.csSize ∧ s.cfg.csMode = .counting ∧ s.pop = (none, { s with csSize := s.csSize - 1 })) ∨
    (0 < s.csSize ∧ s.cfg.csMode = .addressed ∧
      s.pop = (some (s.csMem.getD s.csTop 0),
        { s with csSize := s.csSize - 1, csTop := (s.csTop + s.cfg.csDepth - 1) % s.cfg.csDepth })) := by
  unfold State.pop
  by_cases h : s.csSize = 0
  · simp [h]
  · cases hm : s.cfg.csMode <;> simp [h, Nat.pos_of_ne_zero h]

/-- A push writes the ring and nothing else. -/
theorem State.push_frame (a : Addr) (s : State) :
    s.push a = { s with csMem := (s.push a).csMem, csTop := (s.push a).csTop, csSize := (s.push a).csSize } := by
  rcases State.push_cases a s with ⟨-, h⟩ | ⟨-, -, h⟩ | ⟨-, -, h⟩ <;> rw [h]

/-- A pop writes the ring's indices and nothing else. -/
theorem State.pop_frame (s : State) :
    s.pop.2 = { s with csTop := s.pop.2.csTop, csSize := s.pop.2.csSize } := by
  rcases State.pop_cases s with ⟨-, h⟩ | ⟨-, -, h⟩ | ⟨-, -, h⟩ <;> rw [h]

/-! ### Operand forms -/

/-- `AddrOf` runs the rest of the handler exactly on a field value below 2^63 (43_msg_branch.md R140). -/
theorem withAddr_cases (v : Operand) (s : State) (k : Addr → State) :
    (v.val < 2 ^ 63 ∧ withAddr v s k = k (fieldAddr v.val)) ∨
    (2 ^ 63 ≤ v.val ∧ withAddr v s k = s.raise .fieldRange .empty) := by
  by_cases h : v.val < 2 ^ 63
  · exact .inl ⟨h, if_pos h⟩
  · exact .inr ⟨Nat.le_of_not_lt h, if_neg h⟩

/-- `HistOf` runs the rest of the handler exactly on a value from 1 to 2^32 − 1 (42_replay.md R120). -/
theorem withHist_cases (v : Operand) (s : State) (k : Hist → State) :
    (v.val = 0 ∧ withHist v s k = s.raise .histNoStop .empty) ∨
    (0 < v.val ∧ v.val < 2 ^ 32 ∧ withHist v s k = k (.bits (BitVec.ofNat 32 v.val))) ∨
    (2 ^ 32 ≤ v.val ∧ withHist v s k = s.raise .fieldRange .empty) := by
  by_cases h0 : v.val = 0
  · exact .inl ⟨h0, if_pos h0⟩
  · by_cases h : v.val < 2 ^ 32
    · exact .inr (.inl ⟨Nat.pos_of_ne_zero h0, h, (if_neg h0).trans (if_pos h)⟩)
    · exact .inr (.inr ⟨Nat.le_of_not_lt h, (if_neg h0).trans (if_neg h)⟩)

/-- `TakeBudget` clears the adjustment in both cases (42_replay.md R131). -/
theorem withBudget_cases (icnt : Operand) (s : State) (k : Nat → State → State) :
    (0 ≤ (icnt.val : Int) + s.pendingICNTAdjust ∧
      withBudget icnt s k = k ((icnt.val : Int) + s.pendingICNTAdjust).toNat { s with pendingICNTAdjust := 0 }) ∨
    ((icnt.val : Int) + s.pendingICNTAdjust < 0 ∧
      withBudget icnt s k = State.raise .negBudget .empty { s with pendingICNTAdjust := 0 }) := by
  by_cases h : (icnt.val : Int) + s.pendingICNTAdjust < 0
  · exact .inr ⟨h, if_pos h⟩
  · exact .inl ⟨Int.not_lt.mp h, if_neg h⟩

/-! ### The replay -/

/-- Everything a replay step can answer (42_replay.md R122). -/
theorem replayStep_cases (d : Dispatch) (s : State) :
    (s.pc = none ∧ replayStep d s = .next (s.raise .unsync .empty)) ∨
    ∃ pc, s.pc = some pc ∧
      ((s.oracle.lookup pc = none ∧ replayStep d s = .next (s.raise .unknownAddr (.address pc))) ∨
      ∃ m, s.oracle.lookup pc = some m ∧
        ((m.wfAt pc = false ∧ replayStep d s = .refused .illFormedOracleAnswer) ∨
        (m.wfAt pc = true ∧ d.n.splits m.units = true ∧ replayStep d s = .next (s.raise .icntSplit (.address pc))) ∨
        (m.wfAt pc = true ∧ d.n.splits m.units = false ∧ histExhausted m.cls d = true ∧
          replayStep d s = .next (s.raise .histExhausted (.address pc))) ∨
        (m.wfAt pc = true ∧ d.n.splits m.units = false ∧ histExhausted m.cls d = false ∧
          replayStep d s = .next (replayInstr pc m d s)))) := by
  unfold replayStep
  cases hpc : s.pc with
  | none => exact .inl ⟨rfl, rfl⟩
  | some pc =>
    refine .inr ⟨pc, rfl, ?_⟩
    cases hm : s.oracle.lookup pc with
    | none => exact .inl ⟨rfl, by simp [hm]⟩
    | some m =>
      refine .inr ⟨m, rfl, ?_⟩
      cases hwf : m.wfAt pc <;> cases hsp : d.n.splits m.units <;> cases hex : histExhausted m.cls d <;>
        simp [hm, hwf, hsp, hex]

/-- Everything `Settle` can do (42_replay.md R132). -/
theorem withSettled_cases (d : Dispatch) (s : State) (k : State → State) :
    (d.stopped = .ret ∧ d.n.left = true ∧ withSettled d s k = s.raise .callstackUnderflow (pcDetail s)) ∨
    (d.stopped = .other ∧ d.n.left = true ∧ withSettled d s k = s.raise .indirectUnresolved (pcDetail s)) ∨
    ((d.stopped = .none ∨ d.n.left = false) ∧
      ((0 < d.histLeft ∧ withSettled d s k = s.raise .histLeftover .empty) ∨
      (d.histLeft = 0 ∧ d.needIndirect = true ∧ d.lastIndirect = false ∧
        withSettled d s k = s.raise .noIndirect .empty) ∨
      (d.histLeft = 0 ∧ (d.needIndirect = true → d.lastIndirect = true) ∧ d.hasAddr = false ∧ d.stopped ≠ .none ∧
        withSettled d s k = k { s with pc := none }) ∨
      (d.histLeft = 0 ∧ (d.needIndirect = true → d.lastIndirect = true) ∧
        (d.hasAddr = true ∨ d.stopped = .none) ∧ withSettled d s k = k s))) := by
  unfold withSettled
  cases hs : d.stopped <;> cases hl : d.n.left <;> cases hn : d.needIndirect <;> cases hi : d.lastIndirect <;>
    cases ha : d.hasAddr <;> rcases Nat.eq_zero_or_pos d.histLeft with h0 | h0 <;>
    simp_all [Nat.pos_iff_ne_zero]

/-- Everything that can follow `Settle`. -/
theorem runAfter_cases (d : Dispatch) (s : State) :
    (d.after = .finish ∧ runAfter d s = s.finish d.msg) ∨
    (∃ a, d.after = .delta a ∧ runAfter d s = (s.applyDelta a).finish d.msg) ∨
    (∃ a, d.after = .adopt a ∧ runAfter d s = (s.adoptAddr a).finish d.msg) ∨
    (d.after = .again 0 ∧ runAfter d s = s.finish d.msg) ∨
    (∃ left, d.after = .again (left + 1) ∧
      runAfter d s = s.openReplay d.msg .untilHist d.hist d.hasAddr d.needIndirect (.again left)) := by
  unfold runAfter
  split <;> simp_all

/-! ### The step -/

/-- The configuration the model refuses (42_replay.md R134). -/
theorem step_refused {s : State} (h : s.cfg.tolerateFirstUnknown = true) : step s = .refused .tolerateFirstUnknown := by
  simp [step, plan, h]

/-- The catalogs the model refuses (70_reset_and_hazards.md R240 P5). -/
theorem step_illegal {s : State} (ht : s.cfg.tolerateFirstUnknown = false) (hc : s.cfg.catalog.legal = false) :
    step s = .refused .illegalCatalog := by
  simp [step, plan, ht, hc]

/-- No step in DONE (10_state.md R18). -/
theorem step_done {s : State} (ht : s.cfg.tolerateFirstUnknown = false) (hc : s.cfg.catalog.legal = true)
    (h : s.status = .done) :
    step s = .fault .runDone := by
  simp [step, plan, ht, hc, h]

/-- No step in ERROR (10_state.md R18). -/
theorem step_error {s : State} (ht : s.cfg.tolerateFirstUnknown = false) (hc : s.cfg.catalog.legal = true)
    (h : s.status = .error) :
    step s = .fault .runError := by
  simp [step, plan, ht, hc, h]

/-- A dispatch in progress takes its step. -/
theorem step_dispatching {s : State} {d : Dispatch} (h : Dispatching s d) : step s = dispatchStep d s := by
  simp [step, plan, planRun, h.running, h.tolerance, h.catalog, h.inDispatch]

/-- A block that runs with no dispatch in progress, whose `RepeatBranch` loop has `left` turns to go. -/
theorem step_repeating {s : State} {left : Nat} (ht : s.cfg.tolerateFirstUnknown = false)
    (hc : s.cfg.catalog.legal = true) (hr : s.status = .run)
    (hd : s.dispatch = none) (hl : s.repeatLeft = some left) :
    step s =
      match left, s.prevMsg with
      | 0, _ => .next { s with repeatLeft := none }
      | left + 1, some m => exec m { s with repeatLeft := some left }
      | _ + 1, none => .next (s.raise .repeatNoPrev .empty) := by
  cases left with
  | zero => simp [step, plan, planRun, ht, hc, hr, hd, hl, planRepeat]
  | succ left => cases hp : s.prevMsg <;> simp [step, plan, planRun, ht, hc, hr, hd, hl, planRepeat, hp]

/-- The end of the stream (40_framer_ops.md R91). -/
theorem step_endOfStream {s : State} (h : Fetching s) (hb : s.wire.read s.pos = none) :
    step s = .next (endOfStream s) := by
  simp [step, plan, planRun, h.running, h.tolerance, h.catalog, h.noDispatch, h.noRepeat, planFetch, State.wireNext, hb]

/-- A byte step: what the framer makes of the byte (40_framer_ops.md R101). -/
theorem step_byte {s : State} {b : Byte} (h : Fetching s) (hb : s.wire.read s.pos = some b) :
    step s =
      match frameByte s.cfg.catalog s.framer b with
      | .idle p => exec (.idle p) { s with pos := s.pos + 1 }
      | .more f => .next { s with pos := s.pos + 1, framer := f }
      | .message f => exec f.instr (State.completeMessage f { s with pos := s.pos + 1 })
      | .error e detail f => .next (State.raise e detail { s with pos := s.pos + 1, framer := f })
      | .illegal => .refused .illegalCatalog := by
  have hp : plan s = planByte b { s with pos := s.pos + 1 } := by
    simp [plan, planRun, h.running, h.tolerance, h.catalog, h.noDispatch, h.noRepeat, planFetch, State.wireNext, hb]
  unfold step
  rw [hp]
  unfold planByte
  cases frameByte s.cfg.catalog s.framer b <;> rfl

/-- Everything a step can be: refused, no step, a step of a dispatch, a turn of a repeat loop, the end of the stream or a
byte. -/
theorem step_cases (s : State) :
    (s.cfg.tolerateFirstUnknown = true ∧ step s = .refused .tolerateFirstUnknown) ∨
    (s.cfg.catalog.legal = false ∧ step s = .refused .illegalCatalog) ∨
    (s.status = .done ∧ step s = .fault .runDone) ∨
    (s.status = .error ∧ step s = .fault .runError) ∨
    (∃ d, Dispatching s d ∧ step s = dispatchStep d s) ∨
    (∃ left, s.status = .run ∧ s.cfg.tolerateFirstUnknown = false ∧ s.cfg.catalog.legal = true ∧ s.dispatch = none ∧
      s.repeatLeft = some left) ∨
    (Fetching s ∧ s.wire.read s.pos = none ∧ step s = .next (endOfStream s)) ∨
    (∃ b, Fetching s ∧ s.wire.read s.pos = some b) := by
  rcases Bool.eq_false_or_eq_true s.cfg.tolerateFirstUnknown with ht | ht
  · exact .inl ⟨ht, step_refused ht⟩
  rcases Bool.eq_false_or_eq_true s.cfg.catalog.legal with hc | hc
  · rcases hs : s.status with _ | _ | _
    · rcases hd : s.dispatch with _ | d
      · rcases hr : s.repeatLeft with _ | left
        · have hf : Fetching s := ⟨hs, ht, hc, hd, hr⟩
          rcases hb : s.wire.read s.pos with _ | b
          · exact .inr (.inr (.inr (.inr (.inr (.inr (.inl ⟨hf, rfl, step_endOfStream hf hb⟩))))))
          · exact .inr (.inr (.inr (.inr (.inr (.inr (.inr ⟨b, hf, rfl⟩))))))
        · exact .inr (.inr (.inr (.inr (.inr (.inl ⟨left, rfl, ht, hc, rfl, rfl⟩)))))
      · have hd' : Dispatching s d := ⟨hs, ht, hc, hd⟩
        exact .inr (.inr (.inr (.inr (.inl ⟨d, hd', step_dispatching hd'⟩))))
    · exact .inr (.inr (.inl ⟨rfl, step_done ht hc hs⟩))
    · exact .inr (.inr (.inr (.inl ⟨rfl, step_error ht hc hs⟩)))
  · exact .inr (.inl ⟨hc, step_illegal ht hc⟩)

end Sys2Proof.Machine
end

