-- ==== Sys2Proof/Laws/PerInstr.lean ====
section
/-! SUPPORT. Statements about every instruction, one lemma per constructor: the field map of a message determines it. -/

namespace Sys2Proof.Laws

open Sys2Proof

/-- A message whose sub-code is its row's is the message its kind and field map stand for (30_encoding.md R71, R72). -/
def FieldMap.Statement (i : Instr) : Prop :=
  ∀ k, i.subcodeOk = true → i.kind = some k → Instr.ofFields k i.fields = i

theorem FieldMap.ownership (process tstamp : Operand) : FieldMap.Statement (.ownership process tstamp) := by
  rintro k - ⟨⟩; cases process <;> cases tstamp <;> rfl
theorem FieldMap.directBranch (icnt tstamp : Operand) : FieldMap.Statement (.directBranch icnt tstamp) := by
  rintro k - ⟨⟩; cases icnt <;> cases tstamp <;> rfl
theorem FieldMap.indirectBranch (btype : Nat) (icnt uaddr tstamp : Operand) :
    FieldMap.Statement (.indirectBranch btype icnt uaddr tstamp) := by
  rintro k - ⟨⟩; cases icnt <;> cases uaddr <;> cases tstamp <;> rfl
theorem FieldMap.error (etype : Nat) (pad tstamp : Operand) : FieldMap.Statement (.error etype pad tstamp) := by
  rintro k - ⟨⟩; cases pad <;> cases tstamp <;> rfl
theorem FieldMap.progTraceSync (sync : Nat) (icnt faddr tstamp : Operand) :
    FieldMap.Statement (.progTraceSync sync icnt faddr tstamp) := by
  rintro k - ⟨⟩; cases icnt <;> cases faddr <;> cases tstamp <;> rfl
theorem FieldMap.directBranchSync (sync : Nat) (icnt faddr tstamp : Operand) :
    FieldMap.Statement (.directBranchSync sync icnt faddr tstamp) := by
  rintro k - ⟨⟩; cases icnt <;> cases faddr <;> cases tstamp <;> rfl
theorem FieldMap.indirectBranchSync (sync btype : Nat) (icnt faddr tstamp : Operand) :
    FieldMap.Statement (.indirectBranchSync sync btype icnt faddr tstamp) := by
  rintro k - ⟨⟩; cases icnt <;> cases faddr <;> cases tstamp <;> rfl
theorem FieldMap.resourceFull0 (rdata tstamp : Operand) : FieldMap.Statement (.resourceFull0 rdata tstamp) := by
  rintro k - ⟨⟩; cases rdata <;> cases tstamp <;> rfl
theorem FieldMap.resourceFull1 (rdata tstamp : Operand) : FieldMap.Statement (.resourceFull1 rdata tstamp) := by
  rintro k - ⟨⟩; cases rdata <;> cases tstamp <;> rfl
theorem FieldMap.resourceFull2 (rdata hrepeat tstamp : Operand) :
    FieldMap.Statement (.resourceFull2 rdata hrepeat tstamp) := by
  rintro k - ⟨⟩; cases rdata <;> cases hrepeat <;> cases tstamp <;> rfl
theorem FieldMap.resourceFullReserved (rcode : Nat) (rdata tstamp : Operand) :
    FieldMap.Statement (.resourceFullReserved rcode rdata tstamp) := by
  rintro k h ⟨⟩
  obtain ⟨n, rfl⟩ : ∃ n, rcode = n + 3 := ⟨rcode - 3, by simp [Instr.subcodeOk] at h; omega⟩
  cases rdata <;> cases tstamp <;> rfl
theorem FieldMap.indirectBranchHist (btype : Nat) (icnt uaddr hist tstamp : Operand) :
    FieldMap.Statement (.indirectBranchHist btype icnt uaddr hist tstamp) := by
  rintro k - ⟨⟩; cases icnt <;> cases uaddr <;> cases hist <;> cases tstamp <;> rfl
theorem FieldMap.indirectBranchHistSync (sync btype : Nat) (icnt faddr hist tstamp : Operand) :
    FieldMap.Statement (.indirectBranchHistSync sync btype icnt faddr hist tstamp) := by
  rintro k - ⟨⟩; cases icnt <;> cases faddr <;> cases hist <;> cases tstamp <;> rfl
theorem FieldMap.repeatBranch (bcnt tstamp : Operand) : FieldMap.Statement (.repeatBranch bcnt tstamp) := by
  rintro k - ⟨⟩; cases bcnt <;> cases tstamp <;> rfl
theorem FieldMap.progTraceCorrelation0 (evcode : Nat) (icnt tstamp : Operand) :
    FieldMap.Statement (.progTraceCorrelation0 evcode icnt tstamp) := by
  rintro k - ⟨⟩; cases icnt <;> cases tstamp <;> rfl
theorem FieldMap.progTraceCorrelation1 (evcode : Nat) (icnt hist tstamp : Operand) :
    FieldMap.Statement (.progTraceCorrelation1 evcode icnt hist tstamp) := by
  rintro k - ⟨⟩; cases icnt <;> cases hist <;> cases tstamp <;> rfl
theorem FieldMap.progTraceCorrelationReserved (evcode cdf : Nat) (icnt tstamp : Operand) :
    FieldMap.Statement (.progTraceCorrelationReserved evcode cdf icnt tstamp) := by
  rintro k h ⟨⟩
  obtain ⟨n, rfl⟩ : ∃ n, cdf = n + 2 := ⟨cdf - 2, by simp [Instr.subcodeOk] at h; omega⟩
  cases icnt <;> cases tstamp <;> rfl
theorem FieldMap.idle (payload : Payload) : FieldMap.Statement (.idle payload) := by
  rintro k - ⟨⟩

end Sys2Proof.Laws
end

