-- ==== Sys2Proof/Laws/Step.lean ====
section
/-! SUPPORT. What `exec`, the close of a replay, a replayed instruction and `step` can do, each said once as a list of
the next states there can be; and steps in a row. -/

namespace Sys2Proof.Machine

open Sys2Proof

/-! ### Running -/

/-- A run whose first step answers a next state. -/
theorem run_succ (k : Nat) {s t : State} (h : step s = .next t) :
    Sys2Proof.core.run (k + 1) s = Sys2Proof.core.run k t := by
  have h' : Sys2Proof.core.step s = .next t := h
  simp only [Host.Core.run, h']

/-- A run goes on from where a shorter run ended. -/
theorem run_add (a b : Nat) {s t : State} (h : Sys2Proof.core.run a s = .next t) :
    Sys2Proof.core.run (a + b) s = Sys2Proof.core.run b t := by
  induction a generalizing s with
  | zero => cases h; simp
  | succ a ih =>
    rw [Nat.succ_add]
    rcases hs : step s with s' | r | r
    · rw [run_succ _ hs] at h ⊢
      exact ih h
    all_goals
      have hs' : Sys2Proof.core.step s = _ := hs
      simp only [Host.Core.run, hs'] at h
      cases h

/-! ### The meanings -/

/-- The working registers an instruction opens a dispatch with. -/
structure Opened (i : Instr) (s : State) (d : Dispatch) : Prop where
  msg : d.msg = i
  retained : retainable i = true
  left : d.histLeft = d.hist.length
  notStopped : d.stopped = .none
  notIndirect : d.lastIndirect = false
  stopBit : ∀ h, d.hist = .bits h → h ≠ 0
  untilHasHist : d.n = .untilHist → d.hist ≠ .noHist
  afterOk : AfterOk d
  unsync : s.pc = none → ∀ a, d.after ≠ .adopt a

/-- The next states an instruction can answer. -/
inductive ExecResult (i : Instr) (s : State) : State → Prop where
  | idle (p : Payload) (h : i = .idle p) : ExecResult i s { s with idleCount := s.idleCount + 1 }
  | raised (e : Err) (adjust : Int) (onMessage : Err.onByte e = false)
      (ha : adjust = 0 ∨ adjust = s.pendingICNTAdjust) (hn : e = .negBudget → s.pendingICNTAdjust < 0) :
      ExecResult i s (State.raise e .empty { s with pendingICNTAdjust := adjust })
  | opened (adjust : Int) (d : Dispatch) (ha : adjust = 0 ∨ adjust = s.pendingICNTAdjust) (h : Opened i s d) :
      ExecResult i s { s with pendingICNTAdjust := adjust, dispatch := some d }
  | finished (n : Nat) (retained : retainable i = true) :
      ExecResult i s (State.finish i { s with pendingICNTAdjust := s.pendingICNTAdjust + n })
  | adopted (a : Addr) (unsync : s.pc = none) (sync : isSync i = true) (even : evenAddr a)
      (retained : retainable i = true) :
      ExecResult i s (State.finish i (State.adoptAddr a { s with pendingICNTAdjust := 0 }))
  | error (etype : Nat) (pad tstamp : Operand) (h : i = .error etype pad tstamp) :
      ExecResult i s (State.finish i { s with pc := none, pendingICNTAdjust := 0, csSize := 0 })
  | repeating (n : Nat) (prev : s.prevMsg.isSome = true) : ExecResult i s { s with repeatLeft := some n }

theorem fieldAddr_even (n : Nat) : evenAddr (fieldAddr n) := by simp [evenAddr, fieldAddr]

theorem histBits_ne_zero {n : Nat} (h : 0 < n) (h' : n < 2 ^ 32) : BitVec.ofNat 32 n ≠ 0 := by
  intro h0
  have := congrArg BitVec.toNat h0
  simp at this
  omega

theorem execResult_raise {i : Instr} {s : State} {e : Err} (he : Err.onByte e = false)
    (hn : e = .negBudget → s.pendingICNTAdjust < 0) : ExecResult i s (State.raise e .empty s) :=
  .raised e s.pendingICNTAdjust he (.inr rfl) hn

theorem execResult_withAddr {i : Instr} {s : State} {v : Operand} {k : Addr → State}
    (h : ∀ a, evenAddr a → ExecResult i s (k a)) : ExecResult i s (withAddr v s k) := by
  rcases withAddr_cases v s k with ⟨_, h'⟩ | ⟨_, h'⟩ <;> rw [h']
  · exact h _ (fieldAddr_even _)
  · exact execResult_raise rfl (by simp)

theorem execResult_withHist {i : Instr} {s : State} {v : Operand} {k : Hist → State}
    (h : ∀ b : BitVec 32, b ≠ 0 → ExecResult i s (k (.bits b))) : ExecResult i s (withHist v s k) := by
  rcases withHist_cases v s k with ⟨_, h'⟩ | ⟨h1, h2, h'⟩ | ⟨_, h'⟩ <;> rw [h']
  · exact execResult_raise rfl (by simp)
  · exact h _ (histBits_ne_zero h1 h2)
  · exact execResult_raise rfl (by simp)

theorem execResult_counted {i : Instr} {s : State} {v : Operand} {h : Hist} {hasAddr needIndirect : Bool}
    {after : After} (hr : retainable i = true) (hb : ∀ b, h = .bits b → b ≠ 0)
    (ha : ∀ b, AfterOk (openDispatch i (.count b) h hasAddr needIndirect after))
    (hu : s.pc = none → ∀ a, after ≠ .adopt a) :
    ExecResult i s (withBudget v s fun b s => s.openReplay i (.count b) h hasAddr needIndirect after) := by
  rcases withBudget_cases v s (fun b s => s.openReplay i (.count b) h hasAddr needIndirect after)
    with ⟨_, h'⟩ | ⟨h1, h'⟩ <;> rw [h']
  · exact .opened 0 _ (.inl rfl) ⟨rfl, hr, rfl, rfl, rfl, hb, by simp [openDispatch], ha _, hu⟩
  · exact .raised _ 0 rfl (.inl rfl) (fun _ => by omega)

theorem execResult_syncFrom {i : Instr} {s : State} {icnt : Operand} {a : Addr} {h : Hist} {needIndirect : Bool}
    (hr : retainable i = true) (hs : isSync i = true) (ha : evenAddr a) (hb : ∀ b, h = .bits b → b ≠ 0) :
    ExecResult i s (syncFrom i icnt a h needIndirect s) := by
  unfold syncFrom
  split
  · exact .adopted a (by assumption) hs ha hr
  · exact execResult_counted hr hb (fun b => ⟨rfl, ha⟩) (by simp [*])

theorem execResult_historyFull {i : Instr} {s : State} {v : Operand} {n : Nat} (hr : retainable i = true) :
    ExecResult i s (historyFull i v n s) := by
  apply execResult_withHist
  intro b hb
  exact .opened s.pendingICNTAdjust _ (.inr rfl)
    ⟨rfl, hr, rfl, rfl, rfl, by rintro _ ⟨⟩; exact hb, by simp [openDispatch], ⟨rfl, rfl, rfl⟩,
      by simp [openDispatch]⟩

/-- Everything an instruction can do: it always answers a next state, one of these. -/
theorem exec_result (i : Instr) (s : State) : ∃ t, exec i s = .next t ∧ ExecResult i s t := by
  cases i with
  | ownership p t =>
    exact ⟨_, rfl, by simpa using ExecResult.finished (i := .ownership p t) (s := s) 0 rfl⟩
  | directBranch icnt t => exact ⟨_, rfl, execResult_counted rfl (by simp) (fun _ => ⟨rfl, rfl⟩) (by simp)⟩
  | indirectBranch =>
    exact ⟨_, rfl, execResult_withAddr fun a ha =>
      execResult_counted rfl (by simp) (fun _ => ⟨rfl, rfl, ha⟩) (by simp)⟩
  | error e p t => exact ⟨_, rfl, .error e p t rfl⟩
  | progTraceSync =>
    exact ⟨_, rfl, execResult_withAddr fun a ha => execResult_syncFrom rfl rfl ha (by simp)⟩
  | directBranchSync =>
    exact ⟨_, rfl, execResult_withAddr fun a ha => execResult_syncFrom rfl rfl ha (by simp)⟩
  | indirectBranchSync =>
    exact ⟨_, rfl, execResult_withAddr fun a ha => execResult_syncFrom rfl rfl ha (by simp)⟩
  | resourceFull0 => exact ⟨_, rfl, .finished _ rfl⟩
  | resourceFull1 => exact ⟨_, rfl, execResult_historyFull rfl⟩
  | resourceFull2 => exact ⟨_, rfl, execResult_historyFull rfl⟩
  | resourceFullReserved => exact ⟨_, rfl, execResult_raise rfl (by simp)⟩
  | indirectBranchHist =>
    exact ⟨_, rfl, execResult_withAddr fun a ha => execResult_withHist fun b hb =>
      execResult_counted rfl (by rintro _ ⟨⟩; exact hb) (fun _ => ⟨rfl, rfl, ha⟩) (by simp)⟩
  | indirectBranchHistSync =>
    exact ⟨_, rfl, execResult_withAddr fun a ha => execResult_withHist fun b hb =>
      execResult_syncFrom rfl rfl ha (by rintro _ ⟨⟩; exact hb)⟩
  | repeatBranch b t =>
    rcases hp : s.prevMsg with _ | m
    · exact ⟨s.raise .repeatNoPrev .empty, by simp only [exec, execRepeatBranch, hp], execResult_raise rfl (by simp)⟩
    · exact ⟨_, by simp only [exec, execRepeatBranch, hp], .repeating b.val (by simp [hp])⟩
  | progTraceCorrelation0 =>
    exact ⟨_, rfl, execResult_counted rfl (by simp) (fun _ => ⟨rfl, rfl⟩) (by simp)⟩
  | progTraceCorrelation1 =>
    exact ⟨_, rfl, execResult_withHist fun b hb =>
      execResult_counted rfl (by rintro _ ⟨⟩; exact hb) (fun _ => ⟨rfl, rfl⟩) (by simp)⟩
  | progTraceCorrelationReserved => exact ⟨_, rfl, execResult_raise rfl (by simp)⟩
  | idle p => exact ⟨_, rfl, .idle p rfl⟩

/-! ### The close of a replay -/

/-- The states the close of a replay can leave. -/
inductive CloseResult (d : Dispatch) (s : State) : State → Prop where
  | raised (e : Err) (detail : Detail) (onMessage : Err.onByte e = false) (hn : e ≠ .negBudget) :
      CloseResult d s (s.raise e detail)
  | finished (pc : Option Addr) (h : d.after = .finish ∨ d.after = .again 0) (hp : pc = s.pc ∨ pc = none) :
      CloseResult d s (State.finish d.msg { s with pc := pc })
  | again (left : Nat) (pc : Option Addr) (h : d.after = .again (left + 1)) (hp : pc = s.pc ∨ pc = none) :
      CloseResult d s
        (State.openReplay d.msg .untilHist d.hist d.hasAddr d.needIndirect (.again left) { s with pc := pc })
  | delta (a : Addr) (pc : Option Addr) (h : d.after = .delta a)
      (indirect : d.needIndirect = true → d.lastIndirect = true) :
      CloseResult d s (State.finish d.msg (State.applyDelta a { s with pc := pc }))
  | adopted (a : Addr) (pc : Option Addr) (h : d.after = .adopt a) :
      CloseResult d s (State.finish d.msg (State.adoptAddr a { s with pc := pc }))

/-- Everything the close of a replay can do. -/
theorem closeReplay_result (d : Dispatch) (s : State) : CloseResult d s (closeReplay d s) := by
  have settled : ∀ pc, (pc = s.pc ∨ pc = none) → (d.needIndirect = true → d.lastIndirect = true) →
      CloseResult d s (runAfter d { s with pc := pc }) := by
    intro pc hp hn
    rcases runAfter_cases d { s with pc := pc } with ⟨h, h'⟩ | ⟨a, h, h'⟩ | ⟨a, h, h'⟩ | ⟨h, h'⟩ | ⟨l, h, h'⟩ <;>
      rw [h']
    · exact .finished pc (.inl h) hp
    · exact .delta a pc h hn
    · exact .adopted a pc h
    · exact .finished pc (.inr h) hp
    · exact .again l pc h hp
  unfold closeReplay
  rcases withSettled_cases d s (runAfter d) with
    ⟨_, _, h⟩ | ⟨_, _, h⟩ | ⟨_, ⟨_, h⟩ | ⟨_, _, _, h⟩ | ⟨_, h2, _, _, h⟩ | ⟨_, h2, _, h⟩⟩ <;> rw [h]
  · exact .raised _ _ rfl (by simp)
  · exact .raised _ _ rfl (by simp)
  · exact .raised _ _ rfl (by simp)
  · exact .raised _ _ rfl (by simp)
  · exact settled none (.inr rfl) h2
  · exact settled s.pc (.inl rfl) h2

/-! ### A replayed instruction -/

theorem countAndPush_frame (pc : Addr) (m : InstrMeta) (s : State) :
    countAndPush pc m s = { s with
      instrCount := s.instrCount + 1
      csMem := (countAndPush pc m s).csMem
      csTop := (countAndPush pc m s).csTop
      csSize := (countAndPush pc m s).csSize } := by
  unfold countAndPush
  dsimp only
  split
  · rw [State.push_frame]
  · rfl

theorem replayIndirect_frame (pc : Addr) (m : InstrMeta) (d : Dispatch) (s : State) :
    replayIndirect pc m d s = { s with
      records := s.records ++ [{ address := pc, cls := m.cls, size := m.size, destination := none, taken := true }]
      csTop := (replayIndirect pc m d s).csTop
      csSize := (replayIndirect pc m d s).csSize
      pc := (replayIndirect pc m d s).pc
      dispatch := (replayIndirect pc m d s).dispatch } := by
  unfold replayIndirect
  dsimp only
  split
  · split <;> rw [State.pop_frame] <;> rfl
  · rfl

/-- What a replayed instruction leaves as it is, and its one record: it writes the ring, `pc` and the working
registers besides. -/
theorem replayInstr_frame (pc : Addr) (m : InstrMeta) (d : Dispatch) (s : State) :
    ∃ r : Record, r.address = pc ∧ r.size = m.size ∧
      replayInstr pc m d s = { s with
        instrCount := s.instrCount + 1
        records := s.records ++ [r]
        csMem := (replayInstr pc m d s).csMem
        csTop := (replayInstr pc m d s).csTop
        csSize := (replayInstr pc m d s).csSize
        pc := (replayInstr pc m d s).pc
        dispatch := (replayInstr pc m d s).dispatch } := by
  unfold replayInstr
  dsimp only
  split
  · rw [replayIndirect_frame, countAndPush_frame]
    exact ⟨_, rfl, rfl, rfl⟩
  · unfold replayDirect
    rw [countAndPush_frame]
    exact ⟨_, rfl, rfl, rfl⟩

/-! ### The step -/

/-- The next states a step can answer. -/
inductive StepResult (s : State) : State → Prop where
  | closed (d : Dispatch) (hd : Dispatching s d) (stops : d.goesOn = false) : StepResult s (closeReplay d s)
  | replayRaised (d : Dispatch) (e : Err) (detail : Detail) (hd : Dispatching s d) (goes : d.goesOn = true)
      (onMessage : Err.onByte e = false) (hn : e ≠ .negBudget) : StepResult s (s.raise e detail)
  | replayed (d : Dispatch) (pc : Addr) (m : InstrMeta) (hd : Dispatching s d) (goes : d.goesOn = true)
      (hpc : s.pc = some pc) (hm : s.oracle.lookup pc = some m) (wf : m.wfAt pc = true)
      (fits : d.n.splits m.units = false) (hasBit : histExhausted m.cls d = false) :
      StepResult s (replayInstr pc m d s)
  | repeatEnded (hs : s.status = .run) (hd : s.dispatch = none) (hr : s.repeatLeft = some 0) :
      StepResult s { s with repeatLeft := none }
  | repeated (left : Nat) (m : Instr) (t : State) (hs : s.status = .run) (hd : s.dispatch = none)
      (hr : s.repeatLeft = some (left + 1)) (hp : s.prevMsg = some m)
      (hplan : plan s = .run m { s with repeatLeft := some left })
      (h : ExecResult m { s with repeatLeft := some left } t) : StepResult s t
  | repeatRaised (left : Nat) (hs : s.status = .run) (hd : s.dispatch = none) (hr : s.repeatLeft = some left)
      (hp : s.prevMsg = none) : StepResult s (s.raise .repeatNoPrev .empty)
  | ended (hf : Fetching s) (hi : s.framer.fstate = .idle) : StepResult s { s with status := .done }
  | truncated (hf : Fetching s) (hi : s.framer.fstate = .framing) : StepResult s (s.raise .truncatedMsg .empty)
  | more (hf : Fetching s) (b : Byte) (f : Framer) (hb : s.wire.read s.pos = some b)
      (h : frameByte s.cfg.catalog s.framer b = .more f) : StepResult s { s with pos := s.pos + 1, framer := f }
  | framingRaised (hf : Fetching s) (b : Byte) (f : Framer) (e : Err) (detail : Detail)
      (hb : s.wire.read s.pos = some b) (h : frameByte s.cfg.catalog s.framer b = .error e detail f) :
      StepResult s (State.raise e detail { s with pos := s.pos + 1, framer := f })
  | idle (hf : Fetching s) (b : Byte) (p : Payload) (hb : s.wire.read s.pos = some b)
      (h : frameByte s.cfg.catalog s.framer b = .idle p) :
      StepResult s { s with pos := s.pos + 1, idleCount := s.idleCount + 1 }
  | message (hf : Fetching s) (b : Byte) (f : Framer) (t : State) (hb : s.wire.read s.pos = some b)
      (h : frameByte s.cfg.catalog s.framer b = .message f)
      (hplan : plan s = .run f.instr (State.completeMessage f { s with pos := s.pos + 1 }))
      (hx : ExecResult f.instr (State.completeMessage f { s with pos := s.pos + 1 }) t) : StepResult s t

/-- Everything a step that answers a next state can have done. -/
theorem step_result {s t : State} (h : step s = .next t) : StepResult s t := by
  rcases step_cases s with ⟨_, h'⟩ | ⟨_, h'⟩ | ⟨_, h'⟩ | ⟨_, h'⟩ | ⟨d, hd, h'⟩ | ⟨left, hs, ht, hc, hd, hl⟩ |
    ⟨hf, hb, h'⟩ | ⟨b, hf, hb⟩
  · rw [h'] at h; cases h
  · rw [h'] at h; cases h
  · rw [h'] at h; cases h
  · rw [h'] at h; cases h
  · rw [h'] at h
    unfold dispatchStep at h
    split at h
    · next hg =>
      rcases replayStep_cases d s with ⟨_, h2⟩ | ⟨pc, hpc, ⟨_, h2⟩ | ⟨m, hm, ⟨_, h2⟩ | ⟨_, _, h2⟩ | ⟨_, _, _, h2⟩ |
        ⟨wf, fits, hasBit, h2⟩⟩⟩ <;> rw [h2] at h <;> cases h
      · exact .replayRaised d _ _ hd hg rfl (by simp)
      · exact .replayRaised d _ _ hd hg rfl (by simp)
      · exact .replayRaised d _ _ hd hg rfl (by simp)
      · exact .replayRaised d _ _ hd hg rfl (by simp)
      · exact .replayed d pc m hd hg hpc hm wf fits hasBit
    · next hg => cases h; exact .closed d hd (by simpa using hg)
  · rw [step_repeating ht hc hs hd hl] at h
    cases left with
    | zero => cases h; exact .repeatEnded hs hd hl
    | succ left =>
      rcases hp : s.prevMsg with _ | m
      · simp [hp] at h
        subst h
        exact .repeatRaised _ hs hd hl hp
      · have h : exec m { s with repeatLeft := some left } = .next t := by simpa [hp] using h
        obtain ⟨t', h1, h2⟩ := exec_result m { s with repeatLeft := some left }
        rw [h1] at h
        cases h
        have hplan : plan s = .run m { s with repeatLeft := some left } := by
          simp only [plan, ht, hc, planRun, hs, hd, hl, planRepeat, hp]
          rfl
        exact .repeated left m t hs hd hl hp hplan h2
  · rw [h'] at h
    cases h
    cases hi : s.framer.fstate <;> simp only [endOfStream, hi]
    · exact .ended hf hi
    · exact .truncated hf hi
  · rw [step_byte hf hb] at h
    rcases hfb : frameByte s.cfg.catalog s.framer b with p | f | f | ⟨e, detail, f⟩ | _ <;> rw [hfb] at h
    · cases h; exact .idle hf b p hb hfb
    · cases h; exact .more hf b f hb hfb
    · obtain ⟨t', h1, h2⟩ := exec_result f.instr (State.completeMessage f { s with pos := s.pos + 1 })
      simp only [h1] at h
      cases h
      refine .message hf b f _ hb hfb ?_ h2
      simp [plan, planRun, hf.running, hf.tolerance, hf.catalog, hf.noDispatch, hf.noRepeat, planFetch, State.wireNext, hb,
        planByte, hfb]
    · cases h; exact .framingRaised hf b f e detail hb hfb
    · cases h

end Sys2Proof.Machine
end

