-- ==== Sys2Proof/Tests/Slice0.lean ====
section
/-! SUPPORT. Small tests: ill-formed terms that the checks refuse, words written out from the spec's encodings, one step
of each instruction, and for every statement with hypotheses a concrete state that meets them. Expected values come from
95_test_vectors.md (F, M, K, P, B, Y, R, X) and 30_encoding.md. -/

namespace Sys2Proof.Tests

open Sys2Proof Sys2Proof.Machine

/-! ### Ill-formed terms -/

/-- A fixed field wider than its width. -/
theorem test_wf_refuses_wide_fixed :
    (Instr.indirectBranch 4 (some 0) none none).wellFormed defaultCatalog = false := by decide
/-- A variable field that the accumulator cannot hold. -/
theorem test_wf_refuses_wide_variable : (Instr.directBranch (some (2 ^ 64)) none).wellFormed defaultCatalog = false := by
  decide
/-- A field left out after a group it shares: its bits are received. -/
theorem test_wf_refuses_absent_in_group : (Instr.progTraceSync 1 none none none).wellFormed defaultCatalog = false := by
  decide
/-- A field left out before a present one. -/
theorem test_wf_refuses_gap : (Instr.directBranch none (some 1)).wellFormed defaultCatalog = false := by decide
/-- A sub-code of a reserved row that is another row's. -/
theorem test_wf_refuses_reserved_subcode :
    (Instr.resourceFullReserved 2 (some 0) none).wellFormed defaultCatalog = false ∧
    (Instr.resourceFullReserved 16 (some 0) none).wellFormed defaultCatalog = false ∧
    (Instr.progTraceCorrelationReserved 0 1 none none).wellFormed defaultCatalog = false ∧
    (Instr.progTraceCorrelationReserved 0 4 none none).wellFormed defaultCatalog = false := by decide
/-- An idle byte whose payload is a TCODE. -/
theorem test_wf_refuses_idle_tcode : (Instr.idle 3).wellFormed defaultCatalog = false := by decide
/-- A kind that the catalog lacks. -/
theorem test_wf_refuses_missing_kind : (Instr.ownership none none).wellFormed [] = false := by decide
/-- Catalogs that are not legal: a TCODE of seven bits, two entries of one TCODE, a layout that ends with a fixed field,
a field named twice, and a variable sub-code. -/
theorem test_legal_refuses :
    Catalog.legal [⟨.ownership, 64, [varField .PROCESS], none⟩] = false ∧
    Catalog.legal [⟨.ownership, 2, [varField .PROCESS], none⟩, ⟨.error, 2, [varField .PAD], none⟩] = false ∧
    Catalog.legal [⟨.ownership, 2, [fixedField .PROCESS 4], none⟩] = false ∧
    Catalog.legal [⟨.ownership, 2, [varField .PROCESS, varField .PROCESS], none⟩] = false ∧
    Catalog.legal [⟨.resourceFull, 2, [varField .RCODE], some ⟨.RCODE, [], [varField .RDATA]⟩⟩] = false := by decide
theorem test_default_catalog_legal : defaultCatalog.legal = true := by decide

/-! ### Words written out from the encodings (M1 to M34, F6, M40, M41) -/

theorem test_decode_ownership :
    decode defaultCatalog [0x08, 0x8C, 0x13] = .instr (.ownership (some 0x123) none) [] := by decide
theorem test_decode_directBranch :
    decode defaultCatalog [0x0C, 0x15, 0x27] = .instr (.directBranch (some 5) (some 9)) [] := by decide
theorem test_decode_indirectBranch :
    decode defaultCatalog [0x10, 0x6D, 0x13] = .instr (.indirectBranch 3 (some 6) (some 4) none) [] := by decide
theorem test_decode_error : decode defaultCatalog [0x20, 0x03] = .instr (.error 0 (some 0) none) [] := by decide
theorem test_decode_progTraceSync : decode defaultCatalog [0x24, 0xD5, 0x00, 0x00, 0x00, 0x00, 0x00, 0x07] =
    .instr (.progTraceSync 5 (some 3) (some 0x40000000) none) [] := by decide
theorem test_decode_directBranchSync : decode defaultCatalog [0x2C, 0x08, 0x05, 0x40, 0x83] =
    .instr (.directBranchSync 2 (some 4) (some 0x810) none) [] := by decide
theorem test_decode_indirectBranchSync : decode defaultCatalog [0x30, 0x08, 0x09, 0x00, 0x00, 0x07] =
    .instr (.indirectBranchSync 2 0 (some 2) (some 0x1000) none) [] := by decide
theorem test_decode_resourceFull0 :
    decode defaultCatalog [0x6C, 0x00, 0xE8, 0x0F] = .instr (.resourceFull0 (some 1000) none) [] := by decide
theorem test_decode_resourceFull1 : decode defaultCatalog [0x6C, 0x84, 0xA8, 0xA8, 0xA8, 0xA8, 0xAB] =
    .instr (.resourceFull1 (some 0xAAAAAAAA) none) [] := by decide
theorem test_decode_resourceFull2 : decode defaultCatalog [0x6C, 0xC8, 0xFC, 0xFC, 0xFC, 0xFC, 0xFD, 0x0F] =
    .instr (.resourceFull2 (some 0xFFFFFFFF) (some 3) none) [] := by decide
theorem test_decode_resourceFullReserved :
    decode defaultCatalog [0x6C, 0x63] = .instr (.resourceFullReserved 8 (some 1) none) [] := by decide
theorem test_decode_indirectBranchHist : decode defaultCatalog [0x70, 0xA1, 0x61, 0x37] =
    .instr (.indirectBranchHist 0 (some 10) (some 0x18) (some 0b1101) none) [] := by decide
theorem test_decode_indirectBranchHistSync :
    decode defaultCatalog [0x74, 0x08, 0x29, 0x00, 0x00, 0x05, 0x17] =
      .instr (.indirectBranchHistSync 2 0 (some 10) (some 0x1000) (some 0b101) none) [] := by decide
theorem test_decode_repeatBranch : decode defaultCatalog [0x78, 0x0B] = .instr (.repeatBranch (some 2) none) [] := by
  decide
theorem test_decode_progTraceCorrelation0 :
    decode defaultCatalog [0x84, 0x10, 0x1B] = .instr (.progTraceCorrelation0 4 (some 6) none) [] := by decide
theorem test_decode_progTraceCorrelation1 :
    decode defaultCatalog [0x84, 0x50, 0x19, 0x1B] = .instr (.progTraceCorrelation1 4 (some 6) (some 6) none) [] := by
  decide
theorem test_decode_progTraceCorrelationReserved :
    decode defaultCatalog [0x84, 0x90, 0x03] = .instr (.progTraceCorrelationReserved 4 2 (some 0) none) [] := by decide
theorem test_decode_idle : decode defaultCatalog [0x07, 0x0C] = .instr (.idle 1) [0x0C] := by decide
/-- F14, F15, F23: fields left out, a field that shares a group, two variable fields. -/
theorem test_decode_absent_fields :
    decode defaultCatalog [0x0F] = .instr (.directBranch none none) [] ∧
    decode defaultCatalog [0x24, 0x03] = .instr (.progTraceSync 0 (some 0) none none) [] ∧
    decode defaultCatalog [0x30, 0x0B] = .instr (.indirectBranchSync 2 0 none none none) [] := by decide
/-- F10, F11, F13, F8, F1 and an empty stream. -/
theorem test_decode_rejects_by_name :
    decode defaultCatalog [0x0D, 0x17] = .framingError .frameSeq .empty ∧
    decode defaultCatalog [0x13] = .framingError .fixedTruncated .empty ∧
    decode defaultCatalog [0x0C] = .framingError .truncatedMsg .empty ∧
    decode defaultCatalog [0x04, 0x17] = .framingError .unknownTcode (.payload 1) ∧
    decode defaultCatalog [0x0E] = .framingError .invalidMseo .empty ∧
    decode defaultCatalog [] = .endOfStream := by decide

/-! ### The encoder against the same table (M4, M9, M13, M14, M17, M19, M24, M34) -/

theorem test_encode_variable :
    encode defaultCatalog (.directBranch (some 64) none) = [0x0C, 0x00, 0x07] ∧
    encode defaultCatalog (.directBranch (some 5) (some 9)) = [0x0C, 0x15, 0x27] := by decide
theorem test_encode_indirectBranch :
    encode defaultCatalog (.indirectBranch 0 (some 16) (some 1) none) = [0x10, 0x00, 0x05, 0x07] ∧
    encode defaultCatalog (.indirectBranchSync 2 0 none none none) = [0x30, 0x0B] := by decide
theorem test_encode_progTraceSync : encode defaultCatalog (.progTraceSync 1 (some 0) (some (2 ^ 63 - 1)) none) =
    [0x24, 0x05, 0xFC, 0xFC, 0xFC, 0xFC, 0xFC, 0xFC, 0xFC, 0xFC, 0xFC, 0xFC, 0x1F] := by decide
theorem test_encode_indirectBranchHistSync :
    encode defaultCatalog (.indirectBranchHistSync 1 0 (some 0) (some 0x80) (some 0xFFFFFFFF) none) =
      [0x74, 0x04, 0x01, 0x00, 0x09, 0xFC, 0xFC, 0xFC, 0xFC, 0xFC, 0x0F] := by decide
theorem test_encode_resourceFull2 :
    encode defaultCatalog (.resourceFull2 (some 0b11) (some 0) none) = [0x6C, 0xC9, 0x03] ∧
    encode defaultCatalog (.resourceFull2 (some 0b11) none none) = [0x6C, 0xCB] := by decide

/-! ### Words of the opcode table -/

theorem test_table_word_directBranch : decodeTableWord 16 0x000C = some (.directBranch (some 0) none) := by decide
theorem test_table_word_idle : decodeTableWord 16 0x0007 = some (.idle 1) := by decide
/-- The word `M31` in the table's numbering: byte 0 is bits 7 to 0. -/
theorem test_table_word_correlation :
    decodeTableWord 32 0x1B195084 = some (.progTraceCorrelation1 4 (some 6) (some 6) none) := by decide
/-- A placed word is run by the next step: `Ownership` is then the retained message. -/
theorem test_placed_word_runs :
    (match step (State.reset.withFetchWord 16 0x0008) with
     | .next t => decide (t.prevMsg = some (.ownership (some 0) none) ∧ t.msgCount = 1)
     | _ => false) = true := by decide

/-! ### One step of each instruction -/

/-- What an outcome's next state is asked. -/
def nextIs (o : Answer) (p : State → Bool) : Bool :=
  match o with
  | .next t => p t
  | _ => false

/-- A session with this program, synchronized at an address. -/
def syncedAt (oracle : Oracle) (a : Addr) : State := { State.create defaultConfig [] oracle with pc := some a }

/-- The working registers of a replay that has just begun. -/
def replayOf (m : Instr) (n : Budget) (hist : Hist) (after : After) : Dispatch :=
  openDispatch m n hist false false after

/-- A session in that replay. -/
def replaying (oracle : Oracle) (a : Addr) (d : Dispatch) : State := { syncedAt oracle a with dispatch := some d }

theorem test_exec_ownership : nextIs (exec (.ownership (some 1) none) (syncedAt [] 8)) (fun t =>
    decide (t.pc = some 8 ∧ t.prevMsg = some (.ownership (some 1) none) ∧ t.dispatch = none)) = true := by decide
/-- The budget is the count plus the adjustment, which is cleared. -/
theorem test_exec_directBranch :
    nextIs (exec (.directBranch (some 3) none) { syncedAt [] 8 with pendingICNTAdjust := 4 }) (fun t =>
      decide (t.pendingICNTAdjust = 0 ∧ t.dispatch = some (replayOf (.directBranch (some 3) none) (.count 7) .noHist
        .finish))) = true := by decide
theorem test_exec_indirectBranch : nextIs (exec (.indirectBranch 0 (some 2) (some 0x18) none) (syncedAt [] 8)) (fun t =>
    decide (t.dispatch.map (fun d => (d.n, d.after, d.hasAddr, d.needIndirect)) =
      some (.count 2, .delta 0x30, true, true))) = true := by decide
/-- No error of the block: it desynchronizes and forgets. -/
theorem test_exec_error :
    nextIs (exec (.error 0 none none) { syncedAt [] 8 with csSize := 3, prevMsg := some (.ownership none none) })
      (fun t => decide (t.status = .run ∧ t.pc = none ∧ t.csSize = 0 ∧ t.prevMsg = none)) = true := by decide
/-- Unsynchronized (Y-1 style): the address is adopted and the count is dropped. -/
theorem test_exec_progTraceSync :
    nextIs (exec (.progTraceSync 1 (some 9) (some 0x800) none) State.reset) (fun t =>
      decide (t.pc = some 0x1000 ∧ t.lastAddr = 0x1000 ∧ t.dispatch = none)) = true := by decide
theorem test_exec_directBranchSync :
    nextIs (exec (.directBranchSync 2 (some 4) (some 0x810) none) (syncedAt [] 0x1000)) (fun t =>
      decide (t.pc = some 0x1000 ∧ t.dispatch.map (fun d => (d.n, d.after, d.hasAddr, d.needIndirect)) =
        some (.count 4, .adopt 0x1020, true, false))) = true := by decide
theorem test_exec_indirectBranchSync :
    nextIs (exec (.indirectBranchSync 2 0 (some 2) (some 0x1000) none) (syncedAt [] 8)) (fun t =>
      decide (t.dispatch.map (fun d => (d.n, d.after, d.needIndirect)) = some (.count 2, .adopt 0x2000, true))) =
      true := by decide
theorem test_exec_resourceFull0 :
    nextIs (exec (.resourceFull0 (some 1000) none) { syncedAt [] 8 with pendingICNTAdjust := 24 }) (fun t =>
      decide (t.pendingICNTAdjust = 1024 ∧ t.pc = some 8 ∧ t.dispatch = none)) = true := by decide
theorem test_exec_resourceFull1 : nextIs (exec (.resourceFull1 (some 0b1110) none) (syncedAt [] 8)) (fun t =>
    decide (t.dispatch.map (fun d => (d.n, d.hist, d.histLeft, d.after)) =
      some (.untilHist, .bits 0b1110, 3, .again 0))) = true := by decide
theorem test_exec_resourceFull2 : nextIs (exec (.resourceFull2 (some 0b11) (some 5) none) (syncedAt [] 8)) (fun t =>
    decide (t.dispatch.map (fun d => (d.histLeft, d.after)) = some (1, .again 5))) = true := by decide
theorem test_exec_resourceFullReserved : nextIs (exec (.resourceFullReserved 8 (some 1) none) (syncedAt [] 8))
    (fun t => decide (t.status = .error ∧ t.errCode = some .reserved ∧ t.pc = some 8)) = true := by decide
/-- An absent history reads 0, which has no stop bit. -/
theorem test_exec_indirectBranchHist :
    nextIs (exec (.indirectBranchHist 0 (some 1) (some 1) none none) { syncedAt [] 8 with pendingICNTAdjust := 4 })
      (fun t => decide (t.errCode = some .histNoStop ∧ t.pendingICNTAdjust = 4)) = true := by decide
theorem test_exec_indirectBranchHistSync :
    nextIs (exec (.indirectBranchHistSync 2 0 (some 10) (some 0x1000) (some 0b101) none) (syncedAt [] 8)) (fun t =>
      decide (t.dispatch.map (fun d => (d.n, d.histLeft, d.after, d.needIndirect)) =
        some (.count 10, 2, .adopt 0x2000, true))) = true := by decide
theorem test_exec_repeatBranch :
    nextIs (exec (.repeatBranch (some 2) none) { syncedAt [] 8 with prevMsg := some (.directBranch (some 1) none) })
      (fun t => decide (t.repeatLeft = some 2)) = true ∧
    nextIs (exec (.repeatBranch (some 2) none) (syncedAt [] 8)) (fun t => decide (t.errCode = some .repeatNoPrev)) =
      true := by decide
theorem test_exec_progTraceCorrelation0 :
    nextIs (exec (.progTraceCorrelation0 4 (some 6) none) (syncedAt [] 8)) (fun t =>
      decide (t.dispatch.map (fun d => (d.n, d.hist, d.hasAddr)) = some (.count 6, .noHist, false))) = true := by
  decide
theorem test_exec_progTraceCorrelation1 :
    nextIs (exec (.progTraceCorrelation1 4 (some 6) (some 0b110) none) (syncedAt [] 8)) (fun t =>
      decide (t.dispatch.map (fun d => (d.n, d.hist, d.histLeft)) = some (.count 6, .bits 0b110, 2))) = true := by
  decide
theorem test_exec_progTraceCorrelationReserved :
    nextIs (exec (.progTraceCorrelationReserved 4 2 (some 0) none) State.reset) (fun t =>
      decide (t.errCode = some .reserved ∧ errCodeNumber t.errCode = 27)) = true := by decide
theorem test_exec_idle : nextIs (exec (.idle 63) State.reset) (fun t => decide (t.idleCount = 1 ∧ t.msgCount = 0)) =
    true := by decide

/-! ### Replay steps -/

/-- The address after the top of the address space is 0 (P-6). -/
theorem test_replay_wraps :
    nextIs (step (replaying [(0xFFFFFFFFFFFFFFFE, linearMeta 2)] 0xFFFFFFFFFFFFFFFE
      (replayOf (.directBranch (some 1) none) (.count 1) .noHist .finish))) (fun t => decide (t.pc = some 0)) = true := by
  decide
/-- A branch that is not the last instruction of the budget is not taken (P-2): its record and text line. -/
theorem test_replay_branch_not_taken :
    nextIs (step (replaying [(0x404, branchMeta 2 0x400)] 0x404
      (replayOf (.directBranch (some 2) none) (.count 2) .noHist .finish))) (fun t =>
        decide (t.pc = some 0x406 ∧ t.records.map Record.line = ["0x404,BN2,0x400"])) = true := by decide
theorem test_record_lines :
    Record.line ⟨0x1000, (linearMeta 4).cls, 4, none, false⟩ = "0x1000,L4" ∧
    Record.line ⟨0x1004, (callMeta true 4 0x2000).cls, 4, some 0x2000, true⟩ = "0x1004,C4,0x2000" ∧
    Record.line ⟨0x2000, (returnMeta 4).cls, 4, none, true⟩ = "0x2000,R4" ∧
    Record.line ⟨0x10, (indirectJumpMeta 2).cls, 2, none, true⟩ = "0x10,JI2" := by decide
/-- K1: three entries, five pushes. -/
theorem test_ring_drops_oldest :
    (popMany 4 (pushAll [0x10, 0x20, 0x30, 0x40, 0x50]
      (State.create { defaultConfig with csDepth := 3 } [] []))).1 = [some 0x50, some 0x40, some 0x30, none] := by
  decide
/-- The ports the host reads after an error (F1). -/
theorem test_stat : nextIs (step (State.create defaultConfig [0x0E] [])) (fun t =>
    decide (t.stat = ⟨.error, 1, ⟨0, 0, 0, .empty⟩, 1, 0, 0, 1⟩)) = true := by decide
/-- The sentinel word of an absent address. -/
theorem test_none_word : addrWord none = 0xFFFFFFFFFFFFFFFF ∧ addrWord (some 0x10) = 0x10 := by decide

/-! ### States that meet the hypotheses of the statements

One theorem per statement that has hypotheses, with every clause at a boundary of its range. -/

/-- A session that fetches from this stream. -/
def fetching (bytes : List Byte) : State := State.create defaultConfig bytes []

theorem test_fetching (bytes : List Byte) : Fetching (fetching bytes) := ⟨rfl, rfl, test_default_catalog_legal, rfl, rfl⟩

/-- The same inside a message. -/
def framing (f : Framer) (bytes : List Byte) : State := { fetching bytes with framer := f }

theorem test_framing (f : Framer) (bytes : List Byte) : Fetching (framing f bytes) :=
  ⟨rfl, rfl, test_default_catalog_legal, rfl, rfl⟩

/-- The registers inside a `DirectBranch` that has received `n` bits of ICNT. -/
def inIcnt (n : Nat) : Framer :=
  { fstate := .framing, kind := .directBranch, fields := [(.TCODE, 3)], fidx := 0, acc := 0, accBits := n }

/-- The registers after the TCODE byte of a `ProgTraceSync`, whose first field is fixed. -/
def inSync : Framer :=
  { fstate := .framing, kind := .progTraceSync, fields := [(.TCODE, 9)], fidx := 0, acc := 0, accBits := 0 }

theorem test_syncedAt (oracle : Oracle) (a : Addr) : Fetching (syncedAt oracle a) :=
  ⟨rfl, rfl, test_default_catalog_legal, rfl, rfl⟩

theorem test_replaying (oracle : Oracle) (a : Addr) (d : Dispatch) : Dispatching (replaying oracle a d) d :=
  ⟨rfl, rfl, test_default_catalog_legal, rfl⟩

theorem test_meets_DecodeOfEncodeGivesInstr :
    (Instr.directBranch (some (2 ^ 64 - 1)) (some 0)).wellFormed defaultCatalog = true ∧
    (Instr.ownership none none).wellFormed defaultCatalog = true ∧
    (Instr.indirectBranchSync 15 3 none none none).wellFormed defaultCatalog = true ∧
    (Instr.resourceFullReserved 15 (some 3) none).wellFormed defaultCatalog = true ∧
    (Instr.progTraceCorrelationReserved 15 3 none none).wellFormed defaultCatalog = true ∧
    (Instr.idle 63).wellFormed defaultCatalog = true := by decide

theorem test_meets_DecodedInstrIsWellFormed :
    decode defaultCatalog [0x0C, 0x17, 0xFF] = .instr (.directBranch (some 5) none) [0xFF] := by decide

theorem test_meets_InstrEndsAtFirstEndMarker :
    decode defaultCatalog [0x0C, 0x00, 0x07, 0x07] = .instr (.directBranch (some 64) none) [0x07] := by decide

theorem test_meets_InvalidMarkerRaises :
    (fetching [0x0E]).wire.read (fetching [0x0E]).pos = some 0x0E ∧ mseo 0x0E = 2#2 ∧
    (framing inSync [0xFE]).wire.read 0 = some 0xFE ∧ mseo 0xFE = 2#2 := by decide

theorem test_meets_UnknownTcodeRaises :
    (∀ b ∈ [0x04, 0x05, 0x07, 0xFC, 0xFD, 0xFF], (fetching [b]).wire.read 0 = some b ∧
      (fetching [b]).framer.fstate = .idle ∧ (fetching [b]).cfg.catalog.byTcode (mdo b).toNat = none) ∧
    mseo 0x04 = 0#2 ∧ mseo 0x05 = 1#2 ∧ mseo 0x07 = 3#2 := by decide

theorem test_meets_IdleByteOnlyCounts :
    (fetching [0xFF]).framer.fstate = .idle ∧ (fetching [0xFF]).wire.read 0 = some 0xFF ∧ mseo 0xFF = 3#2 ∧
    (fetching [0xFF]).cfg.catalog.byTcode (mdo 0xFF).toNat = none := by decide

theorem test_meets_EndOfStreamEndsRun :
    (fetching []).wire.read 0 = none ∧ (fetching []).framer.fstate = .idle ∧
    (framing inSync []).wire.read 0 = none ∧ (framing inSync []).framer.fstate = .framing := by decide

/-- The first bit past the accumulator is bit 4 of a group at 60; a whole group of ones still fits at 58; the zero group
at 78 that ends the message of F20, with no fixed field to come. -/
theorem test_meets_FieldOverflowExactlyOnHighOnes :
    (framing (inIcnt 60) [0x40]).framer.active defaultCatalog = some (varField .ICNT) ∧
    (framing (inIcnt 60) [0x40]).wire.read 0 = some 0x40 ∧ mseo 0x40 ≠ 2#2 ∧ (mdo 0x40).getLsbD 4 = true ∧
    64 ≤ (inIcnt 60).accBits + 4 ∧
    (framing (inIcnt 58) [0xFC]).wire.read 0 = some 0xFC ∧ mseo 0xFC = 0#2 ∧
    (∀ j < 6, (mdo 0xFC).getLsbD j = true → (inIcnt 58).accBits + j < 64) ∧
    (framing (inIcnt 78) [0x03]).wire.read 0 = some 0x03 ∧ mseo 0x03 = 3#2 ∧
    (∀ j < 6, (mdo 0x03).getLsbD j = true → (inIcnt 78).accBits + j < 64) ∧
    (∀ later ∈ (inIcnt 78).layout defaultCatalog, later.kind.isFixed = false) := by decide
/-- F20: zero groups past position 64 change nothing. -/
theorem test_zero_groups_do_not_overflow :
    decode defaultCatalog [0x0C, 0x14, 0, 0, 0, 0, 0, 0, 0, 0, 0, 0, 0, 0x03] =
      .instr (.directBranch (some 5) none) [] := by decide

/-- A catalog with a fixed field of more bits than a group. -/
def wideCatalog : Catalog := [⟨.ownership, 2, [fixedField .PROCESS 8, varField .TSTAMP], none⟩]

/-- On the TCODE byte; on a fixed field; on a field without a bit; on the last field; and a field it ends. -/
theorem test_meets_MisplacedEndFieldRaises :
    wideCatalog.legal = true ∧ (defaultCatalog.byTcode (mdo 0x0D).toNat).isSome = true ∧ mseo 0x0D = 1#2 ∧
    (∃ f spec, distribute wideCatalog 5#6 ⟨.framing, .ownership, [(.TCODE, 2)], 0, 0, 0⟩ = .ok f ∧
      f.active wideCatalog = some spec ∧ spec.kind.isFixed = true) ∧
    (∃ f spec, distribute defaultCatalog (mdo 0x09) ⟨.framing, .indirectBranchSync, [(.TCODE, 12)], 0, 0, 0⟩ = .ok f ∧
      f.active defaultCatalog = some spec ∧ spec.kind.isFixed = false ∧ f.accBits = 0) ∧
    (∃ f spec, distribute defaultCatalog (mdo 0x05) ⟨.framing, .directBranch, [(.TCODE, 3), (.ICNT, 5)], 1, 0, 0⟩ =
        .ok f ∧ f.active defaultCatalog = some spec ∧ f.fidx + 1 = (f.layout defaultCatalog).length) ∧
    (∃ f spec, distribute defaultCatalog (mdo 0x15) (inIcnt 0) = .ok f ∧ f.active defaultCatalog = some spec ∧
      spec.kind.isFixed = false ∧ 0 < f.accBits ∧ f.fidx + 1 ≠ (f.layout defaultCatalog).length) :=
  ⟨by decide, by decide, by decide,
    ⟨⟨.framing, .ownership, [(.TCODE, 2)], 0, 5, 6⟩, fixedField .PROCESS 8, by decide, by decide, by decide⟩,
    ⟨⟨.framing, .indirectBranchSync, [(.TCODE, 12), (.SYNC, 2), (.BTYPE, 0)], 2, 0, 0⟩, varField .ICNT,
      by decide, by decide, by decide, by decide⟩,
    ⟨⟨.framing, .directBranch, [(.TCODE, 3), (.ICNT, 5)], 1, 1, 6⟩, varField .TSTAMP, by decide, by decide, by decide⟩,
    ⟨⟨.framing, .directBranch, [(.TCODE, 3)], 0, 5, 6⟩, varField .ICNT, by decide, by decide, by decide, by decide,
      by decide⟩⟩

/-- A catalog with a fixed field after a variable one. -/
def lateFixedCatalog : Catalog :=
  [⟨.ownership, 2, [varField .PROCESS, fixedField .ETYPE 4, varField .TSTAMP], none⟩]

/-- A session with this catalog that fetches from this stream. -/
def fetchingUnder (cat : Catalog) (bytes : List Byte) : State :=
  State.create { defaultConfig with catalog := cat } bytes []

/-- On the TCODE byte (F11), and on a byte that leaves a fixed field two bits short; with a variable field active and a
fixed one to come, on the TCODE byte and on one that brings the variable field's bits. -/
theorem test_meets_TruncatedFixedFieldRaises :
    (∃ e spec, defaultCatalog.byTcode (mdo 0x13).toNat = some e ∧
      (Framer.start e (mdo 0x13)).active defaultCatalog = some spec ∧ spec.kind.isFixed = true) ∧ mseo 0x13 = 3#2 ∧
    (∃ f spec, distribute wideCatalog 5#6 ⟨.framing, .ownership, [(.TCODE, 2)], 0, 0, 0⟩ = .ok f ∧
      f.active wideCatalog = some spec ∧ spec.kind.isFixed = true) ∧
    Fetching (fetchingUnder lateFixedCatalog [0x0B]) ∧
    nextIs (step (fetchingUnder lateFixedCatalog [0x0B])) (fun t => decide (t.errCode = some .fixedTruncated)) = true ∧
    (∃ f spec, distribute lateFixedCatalog 5#6 ⟨.framing, .ownership, [(.TCODE, 2)], 0, 0, 0⟩ = .ok f ∧
      f.active lateFixedCatalog = some spec ∧ f.fidx < 1 ∧
      (f.layout lateFixedCatalog)[1]? = some (fixedField .ETYPE 4) ∧ (fixedField .ETYPE 4).kind.isFixed = true) :=
  ⟨⟨⟨.indirectBranch, 4, [fixedField .BTYPE 2, varField .ICNT, addrField .UADDR, varField .TSTAMP], none⟩,
      fixedField .BTYPE 2, by decide, by decide, by decide⟩, by decide,
    ⟨⟨.framing, .ownership, [(.TCODE, 2)], 0, 5, 6⟩, fixedField .PROCESS 8, by decide, by decide, by decide⟩,
    ⟨rfl, rfl, by decide, rfl, rfl⟩, by decide,
    ⟨⟨.framing, .ownership, [(.TCODE, 2)], 0, 5, 6⟩, varField .PROCESS, by decide, by decide, by decide, by decide,
      by decide⟩⟩

/-- A message in progress under the default catalog, and a catalog with one TCODE twice. -/
theorem test_meets_LegalCatalogIsNeverRefused : defaultCatalog.legal = true ∧ FramerOk defaultCatalog inSync ∧
    (fetchingUnder (wideCatalog ++ wideCatalog) []).cfg.tolerateFirstUnknown = false ∧
    (fetchingUnder (wideCatalog ++ wideCatalog) []).cfg.catalog.legal = false := by
  refine ⟨by decide, fun _ => ⟨⟨.progTraceSync, 9,
    [fixedField .SYNC 4, varField .ICNT, addrField .FADDR, varField .TSTAMP], none⟩, by decide, by decide, ?_, ?_⟩,
    by decide, by decide⟩
  · intro name
    cases name <;> simp [inSync, Fields.get]
  · rintro spec w ⟨⟩ ⟨⟩
    exact .inl (by decide)

/-- A message's last byte, and an idle byte. -/
theorem test_meets_StepRunsDecodedInstr :
    decodeFrom defaultCatalog (inIcnt 0) [0x17] = .instr (.directBranch (some 5) none) [] ∧
    (framing (inIcnt 0) [0x17]).wire.read 0 = some 0x17 ∧
    decodeFrom defaultCatalog Framer.reset [0xFF] = .instr (.idle 63) [] ∧ (fetching [0xFF]).wire.read 0 = some 0xFF := by
  decide

theorem test_meets_MessageBytesRunInstr :
    (Instr.directBranch (some 64) none).wellFormed defaultCatalog = true ∧
    wireHolds (fetching [0x0C, 0x00, 0x07]) (encode defaultCatalog (.directBranch (some 64) none)) ∧
    (Instr.idle 1).wellFormed defaultCatalog = true ∧
    wireHolds (fetching [0x07]) (encode defaultCatalog (.idle 1)) := by
  refine ⟨by decide, fun k b h => ?_, by decide, fun k b h => ?_⟩
  · have e : encode defaultCatalog (.directBranch (some 64) none) = [0x0C, 0x00, 0x07] := by decide
    rw [e] at h
    rw [← h]
    exact (congrArg _ (Nat.zero_add k)).trans (State.create_read ..)
  · have e : encode defaultCatalog (.idle 1) = [0x07] := by decide
    rw [e] at h
    rw [← h]
    exact (congrArg _ (Nat.zero_add k)).trans (State.create_read ..)

/-- No dispatch in progress, outside a `RepeatBranch` and inside one: for `Ownership`, `Error` (outside) and
`ResourceFull` with RCODE 0. -/
theorem test_meets_OwnershipCompletes :
    State.reset.dispatch = none ∧ State.reset.repeatLeft = none ∧
    ({ State.reset with repeatLeft := some 1 } : State).dispatch = none := by decide
theorem test_meets_ErrorMessageDesynchronizes : (syncedAt [] 8).dispatch = none ∧ (syncedAt [] 8).repeatLeft = none := by
  decide
theorem test_meets_CountOverflowAdds : (syncedAt [] 8).dispatch = none := by decide

/-- The smallest sum that is no error is 0, with an adjustment and without; the address and history fields are tried at
the ends of their ranges. -/
theorem test_meets_CountedBranchEntersReplay :
    0 ≤ (Operand.val none : Int) + State.reset.pendingICNTAdjust ∧
    0 ≤ (Operand.val (some 3) : Int) + ({ State.reset with pendingICNTAdjust := -3 } : State).pendingICNTAdjust := by
  decide
theorem test_meets_CorrelationHistoryEntersReplay :
    0 ≤ (Operand.val (some 6) : Int) + State.reset.pendingICNTAdjust ∧ 0 < Operand.val (some 1) ∧
    Operand.val (some 1) < 2 ^ 32 := by decide
theorem test_meets_IndirectBranchEntersReplay :
    0 ≤ (Operand.val (some 6) : Int) + State.reset.pendingICNTAdjust ∧ Operand.val (some (2 ^ 63 - 1)) < 2 ^ 63 ∧
    0 < Operand.val (some (2 ^ 32 - 1)) ∧ Operand.val (some (2 ^ 32 - 1)) < 2 ^ 32 := by decide
theorem test_meets_SyncWhileUnsynchronizedAdopts :
    State.reset.pc = none ∧ State.reset.dispatch = none ∧ Operand.val (some (2 ^ 63 - 1)) < 2 ^ 63 ∧
    0 < Operand.val (some 1) ∧ Operand.val (some (2 ^ 32 - 1)) < 2 ^ 32 := by decide
theorem test_meets_SyncWhileSynchronizedEntersReplay :
    (syncedAt [] 8).pc ≠ none ∧ Operand.val (some (2 ^ 63 - 1)) < 2 ^ 63 ∧
    0 ≤ (Operand.val (some 0) : Int) + (syncedAt [] 8).pendingICNTAdjust ∧ 0 < Operand.val (some 1) ∧
    Operand.val (some 1) < 2 ^ 32 := by decide
theorem test_meets_HistoryFullEntersReplay :
    0 < Operand.val (some 1) ∧ Operand.val (some 1) < 2 ^ 32 ∧ Operand.val (some (2 ^ 32 - 1)) < 2 ^ 32 := by decide
/-- The instructions of the statement, at the ends of the reserved ranges. -/
theorem test_meets_ReservedSubcodesRaise :
    (Instr.resourceFullReserved 3 none none).subcodeOk = true ∧ (Instr.resourceFullReserved 15 none none).subcodeOk = true ∧
    (Instr.progTraceCorrelationReserved 0 2 none none).subcodeOk = true ∧
    (Instr.progTraceCorrelationReserved 15 3 none none).subcodeOk = true := by decide
theorem test_meets_RepeatBranchStartsLoop :
    ({ State.reset with prevMsg := some (.ownership none none) } : State).prevMsg = some (.ownership none none) ∧
    State.reset.prevMsg = none := by decide
/-- The last turn, and the end of the loop. -/
theorem test_meets_RepeatTurnRunsPrevious :
    ({ State.reset with prevMsg := some (.ownership none none), repeatLeft := some 1 } : State).status = .run ∧
    ({ State.reset with prevMsg := some (.ownership none none), repeatLeft := some 1 } : State).dispatch = none ∧
    ({ State.reset with prevMsg := some (.ownership none none), repeatLeft := some 1 } : State).repeatLeft =
      some (0 + 1) ∧
    ({ State.reset with repeatLeft := some 0 } : State).repeatLeft = some 0 ∧
    State.reset.cfg.tolerateFirstUnknown = false ∧ State.reset.cfg.catalog.legal = true := by decide
theorem test_meets_AddressOutOfRangeRaises : 2 ^ 63 ≤ Operand.val (some (2 ^ 63)) := by decide
theorem test_meets_HistoryOutOfRangeRaises :
    Operand.val (some (2 ^ 63 - 1)) < 2 ^ 63 ∧ Operand.val none = 0 ∧ 2 ^ 32 ≤ Operand.val (some (2 ^ 32)) := by
  decide
theorem test_meets_NegativeBudgetRaises :
    (Operand.val (some 0) : Int) + ({ syncedAt [] 8 with pendingICNTAdjust := -1 } : State).pendingICNTAdjust < 0 ∧
    ({ syncedAt [] 8 with pendingICNTAdjust := -1 } : State).pc ≠ none ∧
    (Operand.val (some 0) : Int) + ({ State.reset with pendingICNTAdjust := -1 } : State).pendingICNTAdjust < 0 ∧
    State.reset.pc = none ∧ Operand.val (some 0) < 2 ^ 63 ∧
    0 < Operand.val (some 1) ∧ Operand.val (some 1) < 2 ^ 32 := by decide
theorem test_meets_UninterpretedFieldsChangeNoOutcome :
    stripped (.indirectBranch 3 (some 1) (some 2) (some 9)) = stripped (.indirectBranch 0 (some 1) (some 2) none) := by
  decide
theorem test_meets_RetainedUninterpretedFieldsChangeNoStep :
    strippedState { State.reset with prevMsg := some (.ownership (some 5) none) } =
      strippedState { State.reset with prevMsg := some (.ownership none (some 1)) } := by decide

theorem test_even : evenAddr 8 := by unfold evenAddr; decide

/-- A counted replay with no history, and one with a history whose bits are used up. -/
def counted (n : Nat) : Dispatch := replayOf (.directBranch (some n) none) (.count n) .noHist .finish
def spent (n : Budget) : Dispatch := { replayOf (.resourceFull1 (some 1) none) n (.bits 1) (.again 0) with histLeft := 0 }

/-- Each of the four checks: unsynchronized, an unknown address, a four-byte instruction against one unit, and a branch
with no history bit left. -/
theorem test_meets_ReplayChecksRaiseInOrder :
    Dispatching ({ State.reset with dispatch := some (counted 1) }) (counted 1) ∧
    Dispatching (replaying [] 8 (counted 1)) (counted 1) ∧
    (counted 1).goesOn = true ∧ (replaying [] 8 (counted 1)).oracle.lookup 8 = none ∧
    (replaying [(8, linearMeta 4)] 8 (counted 1)).oracle.lookup 8 = some (linearMeta 4) ∧
    (linearMeta 4).wf = true ∧ evenAddr 8 ∧ (counted 1).n = .count 1 ∧ (linearMeta 4).size = 4 ∧
    (spent (.count 1)).goesOn = true ∧ (branchMeta 2 0).wf = true ∧ (branchMeta 2 0).cls.branch = true ∧
    ¬ ((spent (.count 1)).n = .count 1 ∧ (branchMeta 2 0).size = 4) ∧
    (spent (.count 1)).hist ≠ .noHist ∧ (spent (.count 1)).histLeft = 0 :=
  ⟨⟨rfl, rfl, test_default_catalog_legal, rfl⟩, test_replaying .., by decide, by decide, by decide, by decide,
    test_even, by decide, by decide, by decide, by decide, by decide, by decide, by decide, by decide⟩

/-- A size that is none, and an odd address. -/
theorem test_meets_IllFormedAnswerIsRefused :
    Dispatching (replaying [(8, linearMeta 3)] 8 (counted 1)) (counted 1) ∧ (counted 1).goesOn = true ∧
    (replaying [(8, linearMeta 3)] 8 (counted 1)).oracle.lookup 8 = some (linearMeta 3) ∧ (linearMeta 3).wf = false ∧
    Dispatching (replaying [(9, linearMeta 2)] 9 (counted 1)) (counted 1) ∧
    (replaying [(9, linearMeta 2)] 9 (counted 1)).oracle.lookup 9 = some (linearMeta 2) ∧ ¬ evenAddr 9 :=
  ⟨test_replaying .., by decide, by decide, by decide, test_replaying .., by decide, by unfold evenAddr; decide⟩
/-- U15 and R48: an odd destination is used as it is; an answer there is refused, no answer is `E_UNKNOWN_ADDR`. -/
theorem test_odd_destination :
    nextIs (step (replaying [(8, jumpMeta 2 9)] 8 (counted 2))) (fun t => decide (t.pc = some 9)) = true ∧
    nextIs (step (replaying [(8, jumpMeta 2 9)] 9 (counted 1))) (fun t => decide (t.errCode = some .unknownAddr)) =
      true := by decide

/-- The hypotheses the statements on one replayed instruction share, with the smallest budgets: one unit for a two-byte
instruction, two for a four-byte one, and no budget. -/
theorem test_meets_replayed_statements (m : Nat → InstrMeta) (size : Nat) (h : twoOrFour size) :
    Dispatching (replaying [(8, m size)] 8 (counted (size / 2))) (counted (size / 2)) ∧
    (counted (size / 2)).goesOn = true ∧ (replaying [(8, m size)] 8 (counted (size / 2))).pc = some 8 ∧ evenAddr 8 ∧
    (replaying [(8, m size)] 8 (counted (size / 2))).oracle.lookup 8 = some (m size) ∧
    ¬ ((counted (size / 2)).n = .count 1 ∧ size = 4) := by
  refine ⟨test_replaying .., ?_, rfl, test_even, by simp [replaying, syncedAt, State.create, Oracle.lookup], ?_⟩ <;>
    rcases h with rfl | rfl <;> decide
theorem test_meets_LinearStepAdvances : (replaying [(8, linearMeta 4)] 8 (counted 2)).oracle.lookup 8 =
    some (linearMeta 4) ∧ (counted 2).goesOn = true ∧ twoOrFour 4 := ⟨by decide, by decide, .inr rfl⟩
theorem test_meets_JumpAndCallGoToDestination :
    (replaying [(8, jumpMeta 2 0)] 8 (counted 1)).oracle.lookup 8 = some (jumpMeta 2 0) ∧
    (replaying [(8, callMeta true 2 0)] 8 (counted 1)).oracle.lookup 8 = some (callMeta true 2 0) ∧
    (counted 1).goesOn = true ∧ twoOrFour 2 := ⟨by decide, by decide, by decide, .inl rfl⟩
theorem test_meets_IndirectStopsReplay :
    (replaying [(8, indirectJumpMeta 2)] 8 (counted 1)).oracle.lookup 8 = some (indirectJumpMeta 2) ∧
    (replaying [(8, indirectCallMeta false 2)] 8 (counted 1)).oracle.lookup 8 = some (indirectCallMeta false 2) ∧
    (counted 1).goesOn = true ∧ twoOrFour 2 := ⟨by decide, by decide, by decide, .inl rfl⟩
/-- An entry to pop; an empty ring; COUNTING mode. -/
theorem test_meets_ReturnPopsOrStops :
    (replaying [(8, returnMeta 2)] 8 (counted 1)).oracle.lookup 8 = some (returnMeta 2) ∧ (counted 1).goesOn = true ∧
    twoOrFour 2 ∧ (replaying [] 8 (counted 1)).cfg.csMode = .addressed ∧
    0 < ({ replaying [(8, returnMeta 2)] 8 (counted 1) with csSize := 1 } : State).csSize ∧
    (replaying [(8, returnMeta 2)] 8 (counted 1)).csSize = 0 ∧
    ({ State.reset with cfg := { defaultConfig with csMode := .counting } } : State).cfg.csMode = .counting :=
  ⟨by decide, by decide, .inl rfl, by decide, by decide, by decide, by decide⟩
/-- A branch that uses the budget up and one that leaves one unit. -/
theorem test_meets_BranchWithoutHistoryTakenWhenLast :
    Dispatching (replaying [(8, branchMeta 2 0)] 8 (counted 1)) (counted 1) ∧ (counted 1).stopped = .none ∧
    (counted 1).n = .count 1 ∧ 2 / 2 ≤ 1 ∧ (counted 2).n = .count 2 ∧ 2 / 2 ≤ 2 ∧ (counted 1).hist = .noHist ∧
    (replaying [(8, branchMeta 2 0)] 8 (counted 1)).oracle.lookup 8 = some (branchMeta 2 0) ∧ evenAddr 8 ∧ twoOrFour 2 :=
  ⟨test_replaying .., by decide, by decide, by decide, by decide, by decide, by decide, by decide, test_even, .inl rfl⟩

/-- A history replay of `0b10` with its one bit left. -/
def oneBit : Dispatch := replayOf (.resourceFull1 (some 2) none) .untilHist (.bits 2) (.again 0)

theorem test_meets_BranchWithHistoryTakesNextBit :
    Dispatching (replaying [(8, branchMeta 4 0)] 8 oneBit) oneBit ∧ oneBit.goesOn = true ∧
    ¬ (oneBit.n = .count 1 ∧ 4 = 4) ∧ oneBit.hist = .bits 2 ∧ oneBit.histLeft = 0 + 1 ∧
    (replaying [(8, branchMeta 4 0)] 8 oneBit).oracle.lookup 8 = some (branchMeta 4 0) ∧ evenAddr 8 ∧ twoOrFour 4 :=
  ⟨test_replaying .., by decide, by decide, by decide, by decide, by decide, test_even, .inr rfl⟩

/-- One replay that each clause of `Settle` raises on; the last two with `pc` known and with `pc = NONE`. -/
theorem test_meets_SettleRaisesInOrder :
    (∀ d : Dispatch, Dispatching (replaying [] 8 d) d ∧ (replaying [] 8 d).pc = some 8) ∧
    (∀ d : Dispatch, Dispatching ({ State.reset with dispatch := some d }) d) ∧ State.reset.pc = none ∧
    ({ counted 1 with stopped := .ret } : Dispatch).goesOn = false ∧
    ({ counted 1 with stopped := .ret } : Dispatch).n ≠ .count 0 ∧
    ({ counted 1 with stopped := .other } : Dispatch).goesOn = false ∧
    ({ counted 0 with histLeft := 1 } : Dispatch).goesOn = false ∧
    ({ counted 0 with histLeft := 1 } : Dispatch).n = .count 0 ∧
    ({ counted 0 with needIndirect := true } : Dispatch).goesOn = false ∧
    ({ counted 0 with needIndirect := true } : Dispatch).histLeft = 0 ∧
    ({ counted 0 with needIndirect := true } : Dispatch).lastIndirect = false :=
  ⟨fun _ => ⟨test_replaying .., rfl⟩, fun _ => ⟨rfl, rfl, test_default_catalog_legal, rfl⟩, by decide, by decide,
    by decide, by decide, by decide, by decide, by decide, by decide, by decide⟩

/-- A replay that settles with no address, after no stop and after one; with one repetition left; with a delta, outside a `RepeatBranch` and inside;
with an absolute address. -/
theorem test_meets_SettledReplayEndsHandler :
    (counted 0).goesOn = false ∧ (counted 0).n = .count 0 ∧ (counted 0).stopped = .none ∧ (counted 0).histLeft = 0 ∧
    (counted 0).needIndirect = false ∧ retainable (counted 0).msg = true ∧ (counted 0).hasAddr = false ∧
    (counted 0).after = .finish ∧ (spent .untilHist).goesOn = false ∧ (spent .untilHist).after = .again 0 ∧
    ({ spent .untilHist with after := .again (0 + 1) } : Dispatch).goesOn = false ∧
    ({ counted 0 with stopped := .other, lastIndirect := true } : Dispatch).goesOn = false ∧
    ({ counted 0 with hasAddr := true, after := .delta 2 } : Dispatch).goesOn = false ∧
    ({ counted 0 with hasAddr := true, after := .adopt 2 } : Dispatch).goesOn = false ∧
    (replaying [] 8 (counted 0)).repeatLeft = none ∧
    ({ replaying [] 8 (counted 0) with repeatLeft := some 0 } : State).repeatLeft ≠ none := by decide

theorem test_meets_HistoryFullReplaysOnePlusHrepeatTimes :
    evenAddr 8 ∧ Fetching (syncedAt [(8, branchMeta 2 8)] 8) ∧ (syncedAt [(8, branchMeta 2 8)] 8).pc = some 8 ∧
    (syncedAt [(8, branchMeta 2 8)] 8).oracle.lookup 8 = some (branchMeta 2 8) ∧
    Operand.val (some 1) = 2 ^ (0 + 1) - 1 ∧ Operand.val (some (2 ^ 32 - 1)) = 2 ^ (31 + 1) - 1 ∧
    Operand.val (some 3) = 3 := ⟨test_even, test_syncedAt .., by decide, by decide, by decide, by decide, by decide⟩

theorem test_meets_DirectBranchReplaysLinearRun :
    evenAddr 8 ∧ Fetching (syncedAt [(8, linearMeta 4)] 8) ∧
    (∀ j < 1, (syncedAt [(8, linearMeta 4)] 8).oracle.lookup (8 + BitVec.ofNat 64 (4 * j)) = some (linearMeta 4)) ∧
    (Operand.val (some 2) : Int) + (syncedAt [(8, linearMeta 4)] 8).pendingICNTAdjust = 2 * (1 : Nat) :=
  ⟨test_even, test_syncedAt .., by decide, by decide⟩

/-- The empty ring of depth 8, of depth 1 when full, and of depth 0; and of depth 1 when full in COUNTING mode. -/
theorem test_meets_RingIsBoundedDeque :
    RingOk State.reset ∧ State.reset.cfg.csMode = .addressed ∧
    RingOk ((State.create { defaultConfig with csDepth := 1 } [] []).push 8) ∧
    RingOk (State.create { defaultConfig with csDepth := 0 } [] []) ∧
    RingOk ((State.create { defaultConfig with csDepth := 1, csMode := .counting } [] []).push 8) :=
  ⟨⟨by decide, by decide, by decide⟩, by decide, ⟨by decide, by decide, by decide⟩, ⟨by decide, by decide, by decide⟩,
    ⟨by decide, by decide, by decide⟩⟩

theorem test_meets_PopsGiveMostRecentPushes :
    RingOk State.reset ∧ State.reset.csSize = 0 ∧ 0 < State.reset.cfg.csDepth ∧
    State.reset.cfg.csDepth ≤ (List.replicate 8 (0 : Addr)).length ∧ State.reset.cfg.csMode = .addressed ∧
    RingOk (State.create { defaultConfig with csDepth := 1, csMode := .counting } [] []) :=
  ⟨⟨by decide, by decide, by decide⟩, by decide, by decide, by decide, by decide, ⟨by decide, by decide, by decide⟩⟩

/-- A session in the invariant, with a byte to read. -/
theorem test_meets_StepKeepsInvariant :
    SessionInv (fetching [0xFF]) ∧ nextIs (step (fetching [0xFF])) (fun t => decide (t.pos = 1)) = true := by
  refine ⟨⟨by decide, by decide, by decide, by decide, by decide, ?_, by decide, by decide, by decide, by decide, ?_,
    by unfold evenAddr; decide, by decide, by decide, ?_⟩, by decide⟩
  · rintro r ⟨⟩
  · rintro m ⟨⟩
  · rintro d ⟨⟩

theorem test_meets_NegBudgetIsUnreachable :
    (match Sys2Proof.core.run 1 (State.create defaultConfig [0xFF] []) with
     | .next t => decide (State.pos t = 1)
     | _ => false) = true := by decide

/-- A sync message that ends with this byte synchronizes the block. -/
theorem test_meets_OnlySyncSynchronizes :
    (framing inSync [0x03]).pc = none ∧
    nextIs (step (framing inSync [0x03])) (fun t => decide (t.pc ≠ none)) = true := by decide

/-- The three writers of `lastAddr`: a sync kind that arrives unsynchronized, a delta, an absolute address. -/
theorem test_meets_LastAddrOnlyByAddressMessages :
    nextIs (step (framing { inSync with fields := [(.TCODE, 9), (.SYNC, 0), (.ICNT, 0)], fidx := 2 } [0x07]))
      (fun t => decide (t.lastAddr = 2)) = true ∧
    nextIs (step (replaying [] 8 { counted 0 with hasAddr := true, after := .delta 4 }))
      (fun t => decide (t.lastAddr = 4)) = true ∧
    nextIs (step (replaying [] 8 { counted 0 with hasAddr := true, after := .adopt 6 }))
      (fun t => decide (t.lastAddr = 6)) = true := by decide

/-- Steps that answer a next state: one that emits, one that reads a byte, one that raises. -/
theorem test_meets_RecordsAreOnlyAppended :
    nextIs (step (replaying [(8, linearMeta 2)] 8 (counted 1))) (fun t => decide (t.records.length = 1)) = true := by
  decide
theorem test_meets_RunParametersAreNeverWritten :
    nextIs (step (fetching [0xFF])) (fun t => decide (t.wire.read 0 = some 0xFF)) = true := by decide
theorem test_meets_PosCountsBytesRead :
    (fetching [0xFF]).wire.read 0 = some 0xFF ∧
    nextIs (step (fetching [0xFF])) (fun t => decide (t.pos = 1)) = true ∧
    (fetching []).wire.read 0 = none ∧
    nextIs (step (fetching [])) (fun t => decide (t.pos = 0)) = true := by decide
theorem test_meets_RaisingStepKeepsTheRest :
    nextIs (step (fetching [0x0E])) (fun t => decide (t.status = .error ∧ t.errInfo.byteOffset = 0)) = true ∧
    nextIs (step (framing inSync [])) (fun t => decide (t.status = .error ∧ t.errInfo.byteOffset = 0)) = true := by
  decide
theorem test_meets_StoppedBlockHasNoStep :
    State.reset.cfg.tolerateFirstUnknown = false ∧ State.reset.cfg.catalog.legal = true ∧ ({ State.reset with status := .done } : State).status = .done ∧
    ({ State.reset with status := .error } : State).status = .error := by decide
theorem test_meets_ToleranceIsRefused :
    (State.create { defaultConfig with tolerateFirstUnknown := true } [] []).cfg.tolerateFirstUnknown = true := by decide

/-- No budget left, and some. -/
theorem test_meets_CountedReplayEnds :
    (∀ d : Dispatch, Dispatching (replaying [] 8 d) d) ∧ (counted 0).n = .count 0 ∧ (counted 3).n = .count 3 ∧
    ∀ left, (counted 3).after ≠ .again left :=
  ⟨fun _ => test_replaying .., by decide, by decide, by rintro left ⟨⟩⟩
theorem test_meets_HistoryReplayCanHang :
    Dispatching (replaying [(8, jumpMeta 2 8)] 8 oneBit) oneBit ∧ oneBit.stopped = .none ∧ oneBit.n = .untilHist ∧
    0 < oneBit.histLeft ∧ (replaying [(8, jumpMeta 2 8)] 8 oneBit).pc = some 8 ∧ evenAddr 8 ∧ twoOrFour 2 ∧
    (replaying [(8, jumpMeta 2 8)] 8 oneBit).oracle.lookup 8 = some (jumpMeta 2 8) :=
  ⟨test_replaying .., by decide, by decide, by decide, by decide, test_even, .inl rfl, by decide⟩

end Sys2Proof.Tests
end

section
/-! PROOF. What every step keeps and what it writes (10_state.md): the session's invariant, `lastAddr`, the parameters of
the run, `pos`, and the stopped block. Each statement is a walk through the lists of next states of Laws/Step.lean. -/

namespace Sys2Proof.Machine

open Sys2Proof

/-! ### The errors of the framer -/

theorem endField_error {cat : Catalog} {f f' : Framer} {e : Err} {detail : Detail}
    (h : endField cat f = .error e detail f') : e = .frameSeq := by
  unfold endField at h
  split at h
  · cases h
  · split at h <;> cases h
    rfl

theorem endMessage_error {cat : Catalog} {f f' : Framer} {e : Err} {detail : Detail}
    (h : endMessage cat f = .error e detail f') : e = .fixedTruncated := by
  unfold endMessage at h
  split at h
  · cases h
  · dsimp only at h
    split at h
    · cases h; rfl
    · split at h <;> cases h
      rfl

theorem endOfByte_error_onByte {cat : Catalog} {m : Marker} {f f' : Framer} {e : Err} {detail : Detail}
    (h : endOfByte cat m f = .error e detail f') : Err.onByte e = true := by
  cases m with
  | more => cases h
  | endField => rw [endField_error h]; rfl
  | endMessage => rw [endMessage_error h]; rfl
  | invalid => cases h; rfl

/-- The framer raises only the errors whose offset is that of the byte just read (60_exceptions.md R202). -/
theorem frameByte_error_onByte {cat : Catalog} {f f' : Framer} {b : Byte} {e : Err} {detail : Detail}
    (h : frameByte cat f b = .error e detail f') : Err.onByte e = true := by
  unfold frameByte at h
  split at h
  · cases h; rfl
  · split at h
    · split at h
      · split at h <;> cases h
        rfl
      · exact endOfByte_error_onByte h
    · split at h
      · exact endOfByte_error_onByte h
      · cases h; rfl
      · cases h

/-! ### The call-stack ring (10_state.md R25) -/

theorem SessionInv.ringOk {s : State} (h : SessionInv s) : RingOk s := ⟨h.ringLength, h.ringSize, h.ringTop⟩

/-- A push keeps the ring's registers in range. -/
theorem RingOk.push {s : State} (h : RingOk s) (a : Addr) : RingOk (s.push a) := by
  rcases State.push_cases a s with ⟨-, e⟩ | ⟨hD, -, e⟩ | ⟨-, -, e⟩ <;> rw [e]
  · exact h
  · exact ⟨by simpa using h.length, Nat.min_le_right .., .inl (Nat.mod_lt _ hD)⟩
  · exact { h with size := Nat.min_le_right .. }

/-- A pop keeps the ring's registers in range. -/
theorem RingOk.pop {s : State} (h : RingOk s) : RingOk s.pop.2 := by
  have shrunk : s.csSize - 1 ≤ s.cfg.csDepth := Nat.le_trans (Nat.sub_le ..) h.size
  rcases State.pop_cases s with ⟨-, e⟩ | ⟨-, -, e⟩ | ⟨hpos, -, e⟩ <;> rw [e]
  · exact h
  · exact { h with size := shrunk }
  · have hD : 0 < s.cfg.csDepth := Nat.lt_of_lt_of_le hpos h.size
    exact { h with size := shrunk, top := .inl (Nat.mod_lt _ hD) }

theorem countAndPush_ringOk {s : State} (h : RingOk s) (pc : Addr) (m : InstrMeta) : RingOk (countAndPush pc m s) := by
  have counted : RingOk { s with instrCount := s.instrCount + 1 } := { h with }
  unfold countAndPush
  dsimp only
  split
  · exact counted.push _
  · exact counted

theorem replayIndirect_ringOk {s : State} (h : RingOk s) (pc : Addr) (m : InstrMeta) (d : Dispatch) :
    RingOk (replayIndirect pc m d s) := by
  unfold replayIndirect
  dsimp only
  split
  · have popped : RingOk (s.emit ⟨pc, m.cls, m.size, none, true⟩).pop.2 := RingOk.pop { h with }
    split <;> exact { popped with }
  · exact { h with }

/-- A replayed instruction keeps the ring's registers in range. -/
theorem replayInstr_ringOk {s : State} (h : RingOk s) (pc : Addr) (m : InstrMeta) (d : Dispatch) :
    RingOk (replayInstr pc m d s) := by
  have pushed := countAndPush_ringOk h pc m
  unfold replayInstr
  dsimp only
  split
  · exact replayIndirect_ringOk pushed pc m _
  · exact { pushed with }

/-! ### `pc` and the working registers after a replayed instruction -/

/-- A direct instruction that is taken has a destination (20_memory.md R44). -/
theorem InstrMeta.dest_of_directTaken {m : InstrMeta} {hist : Hist} {histLeft : Nat} {n : Budget} (wf : m.wf = true)
    (direct : m.cls.indirect = false) (taken : directTaken m.cls hist histLeft n = true) : m.dest.isSome = true := by
  simp only [InstrMeta.wf, Bool.and_eq_true] at wf
  obtain ⟨-, row⟩ := wf
  split at row <;> simp_all [directTaken]

theorem replayDirect_pc {pc : Addr} {m : InstrMeta} {d : Dispatch} {s : State} (wf : m.wf = true)
    (direct : m.cls.indirect = false) : (replayDirect pc m d s).pc.isSome = true := by
  show (if directTaken m.cls d.hist d.histLeft d.n then m.dest else some (m.nextAddr pc)).isSome = true
  split
  · next taken => exact InstrMeta.dest_of_directTaken wf direct taken
  · rfl

theorem replayIndirect_pc {pc : Addr} {m : InstrMeta} {d : Dispatch} {s : State} (h : s.pc.isSome = true) :
    (replayIndirect pc m d s).pc.isSome = true := by
  unfold replayIndirect
  dsimp only
  split
  · split
    · rfl
    · show (State.pop _).2.pc.isSome = true
      rw [State.pop_frame]
      exact h
  · exact h

/-- A replayed instruction leaves the block synchronized (42_replay.md R126 to R128). -/
theorem replayInstr_pc {pc : Addr} {m : InstrMeta} {d : Dispatch} {s : State} (wf : m.wf = true)
    (h : s.pc.isSome = true) : (replayInstr pc m d s).pc.isSome = true := by
  unfold replayInstr
  dsimp only
  split
  · exact replayIndirect_pc (by rw [countAndPush_frame]; exact h)
  · next direct => exact replayDirect_pc wf (by simpa using direct)

/-- What a replayed instruction does to the working registers: the budget is charged, at most one history bit is
consumed, and the replay stops only at an indirect instruction (42_replay.md R123, R126, R127). -/
structure Replayed (m : InstrMeta) (d d' : Dispatch) : Prop where
  msg : d'.msg = d.msg
  budget : d'.n = d.n.charge m.units
  hist : d'.hist = d.hist
  histLeft : d'.histLeft ≤ d.histLeft
  stopIsIndirect : d'.stopped ≠ .none → d'.lastIndirect = true
  hasAddr : d'.hasAddr = d.hasAddr
  needIndirect : d'.needIndirect = d.needIndirect
  after : d'.after = d.after

theorem directHistLeft_le (cls : ClassFlags) (hist : Hist) (histLeft : Nat) :
    directHistLeft cls hist histLeft ≤ histLeft := by
  unfold directHistLeft
  split
  · cases hist with
    | noHist => exact Nat.le_refl _
    | bits _ => exact Nat.sub_le ..
  · exact Nat.le_refl _

theorem replayIndirect_dispatch (pc : Addr) (m : InstrMeta) (d : Dispatch) (s : State) :
    ∃ stopped, (replayIndirect pc m d s).dispatch = some { d with lastIndirect := true, stopped := stopped } := by
  unfold replayIndirect
  dsimp only
  split
  · split
    · exact ⟨d.stopped, rfl⟩
    · exact ⟨.ret, rfl⟩
  · exact ⟨.other, rfl⟩

theorem replayInstr_dispatch (pc : Addr) (m : InstrMeta) {d : Dispatch} (s : State) (running : d.stopped = .none) :
    ∃ d', (replayInstr pc m d s).dispatch = some d' ∧ Replayed m d d' := by
  unfold replayInstr
  dsimp only
  split
  · obtain ⟨stopped, h⟩ := replayIndirect_dispatch pc m { d with n := d.n.charge m.units } (countAndPush pc m s)
    exact ⟨_, h, rfl, rfl, rfl, Nat.le_refl _, fun _ => rfl, rfl, rfl, rfl⟩
  · exact ⟨_, rfl, rfl, rfl, rfl, directHistLeft_le .., fun h => absurd running h, rfl, rfl, rfl⟩

theorem Budget.charge_eq_untilHist {n : Budget} {u : Nat} : n.charge u = .untilHist ↔ n = .untilHist := by
  cases n <;> simp [Budget.charge]

theorem Dispatch.goesOn_stopped {d : Dispatch} (h : d.goesOn = true) : d.stopped = .none := by
  simp only [Dispatch.goesOn, Bool.and_eq_true, decide_eq_true_eq] at h
  exact h.1

/-! ### The working registers' invariant -/

/-- The working registers' invariant reads only `pc` of the state, and only whether it is NONE. -/
theorem DispatchOk.of_pc {s t : State} {d : Dispatch} (h : DispatchOk s d) (hpc : t.pc = none → s.pc = none) :
    DispatchOk t d :=
  { h with unsync := fun ht => h.unsync (hpc ht) }

theorem AfterOk.replayed {m : InstrMeta} {d d' : Dispatch} (h : AfterOk d) (hr : Replayed m d d') : AfterOk d' := by
  unfold AfterOk at h ⊢
  rw [hr.after, hr.hasAddr, hr.needIndirect, hr.budget]
  cases hk : d.after <;> simpa [hk, Budget.charge_eq_untilHist] using h

/-- A replayed instruction keeps the working registers in agreement. -/
theorem DispatchOk.replayed {s t : State} {m : InstrMeta} {d d' : Dispatch} (h : DispatchOk s d)
    (hr : Replayed m d d') (hpc : t.pc.isSome = true) : DispatchOk t d' where
  histBound := by rw [hr.hist]; exact Nat.le_trans hr.histLeft h.histBound
  stopBit := by rw [hr.hist]; exact h.stopBit
  untilHasHist := by rw [hr.hist, hr.budget, Budget.charge_eq_untilHist]; exact h.untilHasHist
  stopIsIndirect := hr.stopIsIndirect
  unsync := fun hn => by simp [hn] at hpc
  msgRetained := by rw [hr.msg]; exact h.msgRetained
  afterOk := h.afterOk.replayed hr

/-- An instruction opens its dispatch with working registers in agreement. -/
theorem Opened.dispatchOk {i : Instr} {s t : State} {d : Dispatch} (h : Opened i s d)
    (hpc : t.pc = none → s.pc = none) : DispatchOk t d where
  histBound := Nat.le_of_eq h.left
  stopBit := h.stopBit
  untilHasHist := h.untilHasHist
  stopIsIndirect := fun hs => absurd h.notStopped hs
  unsync := fun hn => ⟨h.notIndirect, h.unsync (hpc hn)⟩
  msgRetained := by rw [h.msg]; exact h.retained
  afterOk := h.afterOk

/-- A further turn of a history replay opens with working registers in agreement (45_msg_resource_repeat_misc.md
R163). -/
theorem DispatchOk.again {s t : State} {d : Dispatch} {left : Nat} (h : DispatchOk s d)
    (ha : d.after = .again (left + 1)) :
    DispatchOk t (openDispatch d.msg .untilHist d.hist d.hasAddr d.needIndirect (.again left)) := by
  have hok := h.afterOk
  simp only [AfterOk, ha] at hok
  obtain ⟨hasAddr, needIndirect, untilHist⟩ := hok
  exact
    { histBound := Nat.le_refl _
      stopBit := h.stopBit
      untilHasHist := fun _ => h.untilHasHist untilHist
      stopIsIndirect := fun stops => absurd rfl stops
      unsync := fun _ => ⟨rfl, nofun⟩
      msgRetained := h.msgRetained
      afterOk := ⟨hasAddr, needIndirect, rfl⟩ }

/-! ### The session's invariant, one update at a time -/

theorem evenAddr.xor {a b : Addr} (ha : evenAddr a) (hb : evenAddr b) : evenAddr (a ^^^ b) := by
  simp_all [evenAddr]

/-- `prevMsg` only ever receives a message it may hold (10_state.md R24). -/
theorem nextPrevMsg_retainable {m p : Instr} {prev : Option Instr} (h : ∀ q, prev = some q → retainable q = true)
    (hp : nextPrevMsg m prev = some p) : retainable p = true := by
  cases m with
  | error => cases hp
  | repeatBranch => exact h p hp
  | idle => exact h p hp
  | _ => cases hp; rfl

/-- A running session has raised nothing. -/
theorem SessionInv.errCode_of_run {s : State} (h : SessionInv s) (hs : s.status = .run) : s.errCode = none := by
  have noError : ¬ s.errCode.isSome = true := fun he => by simp [h.errorStatus.mpr he] at hs
  simpa using noError

/-- Raising an error other than `E_NEG_BUDGET` keeps the invariant; the step may have cleared the adjustment. -/
theorem SessionInv.raise {s : State} (h : SessionInv s) {e : Err} (detail : Detail) {adjust : Int}
    (he : e ≠ .negBudget) (ha : 0 ≤ adjust) :
    SessionInv (State.raise e detail { s with pendingICNTAdjust := adjust }) :=
  { h with
    errorStatus := by simp
    errorOnce := by simp
    noNegBudget := by simpa using he
    adjustNonneg := ha
    working := fun d hd => (h.working d hd).of_pc id }

/-- The end of a handler keeps the invariant, whatever it wrote to `pc`, `lastAddr`, the adjustment and the depth of the
ring, as long as these are in range. -/
theorem SessionInv.finish {s : State} (h : SessionInv s) (m : Instr) (pc : Option Addr) {base : Addr} {adjust : Int}
    {size : Nat} (hb : evenAddr base) (ha : 0 ≤ adjust) (hsize : size ≤ s.cfg.csDepth) :
    SessionInv (State.finish m
      { s with pc := pc, lastAddr := base, pendingICNTAdjust := adjust, csSize := size }) :=
  { h with
    baseEven := hb
    adjustNonneg := ha
    ringSize := hsize
    prevRetained := fun p hp => by
      simp only [State.finish_prevMsg] at hp
      split at hp
      · exact h.prevRetained p hp
      · exact nextPrevMsg_retainable h.prevRetained hp
    dispatchIdle := fun hd => h.dispatchIdle (.inr (by simpa using hd))
    repeatHasPrev := fun hr => by
      rw [State.finish_repeatLeft] at hr
      simpa [hr] using h.repeatHasPrev hr
    working := fun d hd => by simp at hd }

/-- Entering a replay between messages keeps the invariant. -/
theorem SessionInv.enterReplay {s : State} (h : SessionInv s) {pc : Option Addr} {adjust : Int} {d : Dispatch}
    (idle : s.framer.fstate = .idle) (ha : 0 ≤ adjust)
    (hd : DispatchOk { s with pc := pc, pendingICNTAdjust := adjust, dispatch := some d } d) :
    SessionInv { s with pc := pc, pendingICNTAdjust := adjust, dispatch := some d } :=
  { h with
    adjustNonneg := ha
    dispatchIdle := fun _ => idle
    working := by rintro _ ⟨⟩; exact hd }

/-- Reading a byte keeps the invariant, whatever the framer registers then hold: no dispatch is in progress. -/
theorem SessionInv.framed {s : State} (h : SessionInv s) (hf : Fetching s) (f : Framer) (msgs : Nat) :
    SessionInv { s with pos := s.pos + 1, framer := f, msgCount := msgs } :=
  { h with
    dispatchIdle := fun hd => by simp [hf.noDispatch, hf.noRepeat] at hd
    working := fun d hd => by simp [hf.noDispatch] at hd }

/-- A `RepeatBranch` loop that goes on, with a message to repeat, keeps the invariant. -/
theorem SessionInv.repeating {s : State} (h : SessionInv s) (n : Nat) (idle : s.framer.fstate = .idle)
    (prev : s.prevMsg.isSome = true) : SessionInv { s with repeatLeft := some n } :=
  { h with
    dispatchIdle := fun _ => idle
    repeatHasPrev := fun _ => prev
    working := fun d hd => (h.working d hd).of_pc id }

/-! ### The session's invariant, one list of next states at a time -/

/-- An instruction run between messages keeps the invariant. -/
theorem SessionInv.exec {i : Instr} {s t : State} (h : SessionInv s) (idle : s.framer.fstate = .idle)
    (hx : ExecResult i s t) : SessionInv t := by
  have adjusted : ∀ adjust : Int, adjust = 0 ∨ adjust = s.pendingICNTAdjust → 0 ≤ adjust := by
    rintro _ (rfl | rfl)
    · exact Int.le_refl 0
    · exact h.adjustNonneg
  cases hx with
  | idle => exact { h with working := fun d hd => (h.working d hd).of_pc id }
  | raised e adjust _ ha hn =>
    exact h.raise _ (fun he => absurd (hn he) (Int.not_lt.mpr h.adjustNonneg)) (adjusted adjust ha)
  | opened adjust d ha hd => exact h.enterReplay idle (adjusted adjust ha) (hd.dispatchOk id)
  | finished n => exact h.finish i s.pc h.baseEven (Int.add_nonneg h.adjustNonneg (Int.natCast_nonneg n)) h.ringSize
  | adopted a _ _ even => exact h.finish i (some a) even (Int.le_refl 0) h.ringSize
  | error => exact h.finish i none h.baseEven (Int.le_refl 0) (Nat.zero_le _)
  | repeating n prev => exact h.repeating n idle prev

/-- The close of a replay keeps the invariant. -/
theorem SessionInv.close {d : Dispatch} {s t : State} (h : SessionInv s) (hd : s.dispatch = some d)
    (hc : CloseResult d s t) : SessionInv t := by
  have ok := h.working d hd
  have afterOk := ok.afterOk
  unfold AfterOk at afterOk
  cases hc with
  | raised e detail _ hn => exact h.raise detail hn h.adjustNonneg
  | finished pc => exact h.finish d.msg pc h.baseEven h.adjustNonneg h.ringSize
  | again left pc ha =>
    exact h.enterReplay (h.dispatchIdle (.inl (by simp [hd]))) h.adjustNonneg (ok.again ha)
  | delta a pc ha =>
    rw [ha] at afterOk
    obtain ⟨-, -, even⟩ := afterOk
    refine h.finish d.msg (some _) ?_ h.adjustNonneg h.ringSize
    split
    · exact h.baseEven
    · exact h.baseEven.xor even
  | adopted a pc ha =>
    rw [ha] at afterOk
    exact h.finish d.msg (some a) afterOk.2 h.adjustNonneg h.ringSize

/-- A replayed instruction keeps the invariant: its record is for the address the oracle answered for, and it is
counted. -/
theorem SessionInv.replay {d : Dispatch} {s : State} {pc : Addr} {m : InstrMeta} (h : SessionInv s)
    (hd : s.dispatch = some d) (goes : d.goesOn = true) (hpc : s.pc = some pc) (hm : s.oracle.lookup pc = some m)
    (wf : m.wfAt pc = true) : SessionInv (replayInstr pc m d s) := by
  have ring := replayInstr_ringOk h.ringOk pc m d
  obtain ⟨d', hd', hrep⟩ := replayInstr_dispatch pc m s (Dispatch.goesOn_stopped goes)
  have hwf : m.wf = true := by
    simp only [InstrMeta.wfAt, Bool.and_eq_true] at wf
    exact wf.2
  have hpc' : (replayInstr pc m d s).pc.isSome = true := replayInstr_pc hwf (by simp [hpc])
  obtain ⟨r, hr, hsize, frame⟩ := replayInstr_frame pc m d s
  rw [frame] at ring ⊢
  exact
    { h with
      ringLength := ring.length
      ringSize := ring.size
      ringTop := ring.top
      recordCount := by simp [h.recordCount]
      recordsKnown := fun r' hr' => by
        rcases List.mem_append.mp hr' with old | new
        · exact h.recordsKnown r' old
        · obtain rfl := List.mem_singleton.mp new
          exact ⟨m, by simpa [hr] using hm, by simpa [hr] using wf, hsize⟩
      dispatchIdle := fun _ => h.dispatchIdle (.inl (by simp [hd]))
      working := fun d'' hd'' => by
        obtain rfl : d' = d'' := Option.some.inj (hd'.symm.trans hd'')
        exact (h.working d hd).replayed hrep hpc' }

/-- Settles O49: each next state that a step can answer is in the invariant. -/
theorem stepKeepsInvariant : Obligations.StepKeepsInvariant := by
  intro s t h hstep
  have idleIn : s.repeatLeft.isSome = true → s.framer.fstate = .idle := fun hr => h.dispatchIdle (.inr hr)
  cases step_result hstep with
  | closed d hd => exact h.close hd.inDispatch (closeReplay_result d s)
  | replayRaised d e detail _ _ _ hn => exact h.raise detail hn h.adjustNonneg
  | replayed d pc m hd goes hpc hm wf => exact h.replay hd.inDispatch goes hpc hm wf
  | repeatEnded _ hd =>
    exact { h with
      dispatchIdle := fun hx => by simp [hd] at hx
      repeatHasPrev := nofun
      working := fun d hd => (h.working d hd).of_pc id }
  | repeated left m t _ _ hr hp _ hx =>
    have idle := idleIn (by simp [hr])
    exact (h.repeating left idle (by simp [hp])).exec idle hx
  | repeatRaised => exact h.raise _ nofun h.adjustNonneg
  | ended hf =>
    exact { h with
      errorStatus := by simp [h.errCode_of_run hf.running]
      working := fun d hd => (h.working d hd).of_pc id }
  | truncated => exact h.raise _ nofun h.adjustNonneg
  | more hf b f => exact h.framed hf f s.msgCount
  | framingRaised hf b f e detail _ hfb =>
    have notNegBudget : e ≠ .negBudget := by
      rintro rfl
      exact nomatch frameByte_error_onByte hfb
    exact (h.framed hf f s.msgCount).raise detail notNegBudget h.adjustNonneg
  | idle hf b p =>
    have read := h.framed hf s.framer s.msgCount
    exact { read with working := fun d hd => (read.working d hd).of_pc id }
  | message hf b f t _ _ _ hx =>
    exact (h.framed hf { f with fstate := .idle } (s.msgCount + 1)).exec rfl hx

/-! ### The parameters of the run and `pos` -/

/-- Two states with the same parameters of the run (10_state.md R11, R22) and the same number of bytes read. -/
structure SameRun (s t : State) : Prop where
  cfg : t.cfg = s.cfg
  oracle : t.oracle = s.oracle
  wire : t.wire = s.wire
  pos : t.pos = s.pos

theorem ExecResult.sameRun {i : Instr} {s t : State} (h : ExecResult i s t) : SameRun s t := by
  cases h <;> exact ⟨rfl, rfl, rfl, rfl⟩

/-- No instruction writes a parameter of the run or reads a byte. -/
theorem exec_sameRun {i : Instr} {s t : State} (h : exec i s = .next t) : SameRun s t := by
  obtain ⟨t', h', hx⟩ := exec_result i s
  obtain rfl : t = t' := Host.Outcome.next.inj (h.symm.trans h')
  exact hx.sameRun

/-- The close of a replay writes no parameter of the run and reads no byte. -/
theorem CloseResult.sameRun {d : Dispatch} {s t : State} (h : CloseResult d s t) : SameRun s t := by
  cases h <;> exact ⟨rfl, rfl, rfl, rfl⟩

theorem replayInstr_sameRun (pc : Addr) (m : InstrMeta) (d : Dispatch) (s : State) :
    SameRun s (replayInstr pc m d s) := by
  obtain ⟨r, -, -, frame⟩ := replayInstr_frame pc m d s
  rw [frame]
  exact ⟨rfl, rfl, rfl, rfl⟩

/-- A step that fetches with a byte at `pos` reads it, whatever the framer makes of it, and writes no parameter of the
run. -/
theorem step_sameRun_of_byte {s t : State} {b : Byte} (hf : Fetching s) (hb : s.wire.read s.pos = some b)
    (h : step s = .next t) : SameRun { s with pos := s.pos + 1 } t := by
  rw [step_byte hf hb] at h
  cases hfb : frameByte s.cfg.catalog s.framer b <;> rw [hfb] at h
  case idle p => exact exec_sameRun h
  case more f => cases h; exact ⟨rfl, rfl, rfl, rfl⟩
  case message f =>
    obtain ⟨cfg, oracle, wire, pos⟩ := exec_sameRun h
    exact ⟨cfg, oracle, wire, pos⟩
  case error e detail f => cases h; exact ⟨rfl, rfl, rfl, rfl⟩
  case illegal => cases h

/-- A step that does not fetch, or has no byte at `pos`, reads none and writes no parameter of the run. -/
theorem step_sameRun_of_noByte {s t : State} (noByte : ¬ (Fetching s ∧ (s.wire.read s.pos).isSome = true))
    (h : step s = .next t) : SameRun s t := by
  cases step_result h with
  | closed d => exact (closeReplay_result d s).sameRun
  | replayRaised => exact ⟨rfl, rfl, rfl, rfl⟩
  | replayed d pc m => exact replayInstr_sameRun pc m d s
  | repeatEnded => exact ⟨rfl, rfl, rfl, rfl⟩
  | repeated left m t _ _ _ _ _ hx =>
    obtain ⟨cfg, oracle, wire, pos⟩ := hx.sameRun
    exact ⟨cfg, oracle, wire, pos⟩
  | repeatRaised => exact ⟨rfl, rfl, rfl, rfl⟩
  | ended => exact ⟨rfl, rfl, rfl, rfl⟩
  | truncated => exact ⟨rfl, rfl, rfl, rfl⟩
  | more hf b f hb => exact absurd ⟨hf, by simp [hb]⟩ noByte
  | framingRaised hf b f e detail hb => exact absurd ⟨hf, by simp [hb]⟩ noByte
  | idle hf b p hb => exact absurd ⟨hf, by simp [hb]⟩ noByte
  | message hf b f t hb => exact absurd ⟨hf, by simp [hb]⟩ noByte

/-- Settles O54: a step that reads a byte writes no parameter of the run, and no other step does. -/
theorem runParametersAreNeverWritten : Obligations.RunParametersAreNeverWritten := by
  intro s t h
  have kept : t.cfg = s.cfg ∧ t.oracle = s.oracle ∧ t.wire = s.wire := by
    by_cases byte : Fetching s ∧ (s.wire.read s.pos).isSome = true
    · obtain ⟨hf, hsome⟩ := byte
      obtain ⟨b, hb⟩ := Option.isSome_iff_exists.mp hsome
      obtain ⟨cfg, oracle, wire, -⟩ := step_sameRun_of_byte hf hb h
      exact ⟨cfg, oracle, wire⟩
    · obtain ⟨cfg, oracle, wire, -⟩ := step_sameRun_of_noByte byte h
      exact ⟨cfg, oracle, wire⟩
  obtain ⟨cfg, oracle, wire⟩ := kept
  exact ⟨cfg, oracle, wire, fun k => by rw [wire]⟩

/-- Settles O55: the two cases are those of whether the step finds a byte. -/
theorem posCountsBytesRead : Obligations.PosCountsBytesRead := by
  intro s t h
  exact ⟨fun hf b hb => (step_sameRun_of_byte hf hb h).pos, fun noByte => (step_sameRun_of_noByte noByte h).pos⟩

/-! ### `lastAddr` -/

/-- An instruction writes `lastAddr` only when it is a sync message that arrives unsynchronized (44_msg_sync.md R151). -/
theorem ExecResult.lastAddr {i : Instr} {s t : State} (h : ExecResult i s t) :
    t.lastAddr = s.lastAddr ∨ (s.pc = none ∧ isSync i = true) := by
  cases h with
  | adopted a unsync sync => exact .inr ⟨unsync, sync⟩
  | _ => exact .inl rfl

/-- The close of a replay writes `lastAddr` only by the address of a sync kind or, outside a `RepeatBranch`, by the
delta of a branch (43_msg_branch.md R144, 44_msg_sync.md R151). -/
theorem CloseResult.lastAddr {d : Dispatch} {s t : State} (h : CloseResult d s t) :
    t.lastAddr = s.lastAddr ∨
    ∃ a, (d.after = .adopt a ∧ t.lastAddr = a) ∨
      (d.after = .delta a ∧ s.repeatLeft = none ∧ t.lastAddr = s.lastAddr ^^^ a) := by
  cases h with
  | raised => exact .inl rfl
  | finished => exact .inl rfl
  | again => exact .inl rfl
  | delta a pc ha =>
    cases hr : s.repeatLeft with
    | none => exact .inr ⟨a, .inr ⟨ha, rfl, by simp [State.rep]⟩⟩
    | some left => exact .inl (by simp [State.rep])
  | adopted a pc ha => exact .inr ⟨a, .inl ⟨ha, rfl⟩⟩

/-- Settles O52: the writers are the close of a replay and a sync message that arrives unsynchronized, from the wire or
in a `RepeatBranch` loop. -/
theorem lastAddrOnlyByAddressMessages : Obligations.LastAddrOnlyByAddressMessages := by
  intro s t h changed
  cases step_result h with
  | closed d hd stops =>
    obtain ⟨a, writer⟩ := (closeReplay_result d s).lastAddr.resolve_left changed
    exact .inl ⟨d, a, hd.inDispatch, stops, writer⟩
  | replayed d pc m =>
    obtain ⟨r, -, -, frame⟩ := replayInstr_frame pc m d s
    rw [frame] at changed
    exact absurd rfl changed
  | repeated left m t _ hd _ _ hplan hx =>
    obtain ⟨unsync, sync⟩ := hx.lastAddr.resolve_left changed
    exact .inr ⟨hd, unsync, m, _, hplan, sync⟩
  | message hf b f t _ _ hplan hx =>
    obtain ⟨unsync, sync⟩ := hx.lastAddr.resolve_left changed
    exact .inr ⟨hf.noDispatch, unsync, f.instr, _, hplan, sync⟩
  | _ => exact absurd rfl changed

/-! ### The stopped block -/

/-- Settles O56. -/
theorem stoppedBlockHasNoStep : Obligations.StoppedBlockHasNoStep := by
  intro s tolerance legal
  exact ⟨step_done tolerance legal, step_error tolerance legal⟩

end Sys2Proof.Machine
end

section
/-! PROOF. The spaces (20_memory.md): the record output, to which a step appends, and the oracle's answers, those that
are well-formed and what a replay step makes of the others. -/

namespace Sys2Proof.Machine

open Sys2Proof

/-! ### The record output (20_memory.md R45) -/

/-- Two states with the same records, and as many instructions counted (10_state.md R17). -/
structure SameOutput (s t : State) : Prop where
  records : t.records = s.records
  instrCount : t.instrCount = s.instrCount

/-- No instruction emits a record: its replay does, in later steps. -/
theorem ExecResult.sameOutput {i : Instr} {s t : State} (h : ExecResult i s t) : SameOutput s t := by
  cases h <;> exact ⟨rfl, rfl⟩

/-- The close of a replay emits no record. -/
theorem CloseResult.sameOutput {d : Dispatch} {s t : State} (h : CloseResult d s t) : SameOutput s t := by
  cases h <;> exact ⟨rfl, rfl⟩

/-- A step either emits nothing, or replays an instruction and emits one record, which it counts. -/
theorem step_output {s t : State} (h : step s = .next t) :
    SameOutput s t ∨ ∃ r, t.records = s.records ++ [r] ∧ t.instrCount = s.instrCount + 1 := by
  cases step_result h with
  | closed d => exact .inl (closeReplay_result d s).sameOutput
  | replayed d pc m =>
    obtain ⟨r, -, -, frame⟩ := replayInstr_frame pc m d s
    rw [frame]
    exact .inr ⟨r, rfl, rfl⟩
  | repeated left m t _ _ _ _ _ hx =>
    obtain ⟨records, instrCount⟩ := hx.sameOutput
    exact .inl ⟨records, instrCount⟩
  | message _ b f t _ _ _ hx =>
    obtain ⟨records, instrCount⟩ := hx.sameOutput
    exact .inl ⟨records, instrCount⟩
  | _ => exact .inl ⟨rfl, rfl⟩

/-- Settles O53: the records appended are none, or the one of the instruction replayed. -/
theorem recordsAreOnlyAppended : Obligations.RecordsAreOnlyAppended := by
  intro s t h
  rcases step_output h with ⟨records, instrCount⟩ | ⟨r, records, instrCount⟩
  · exact ⟨[], Nat.zero_le 1, by simpa using records, instrCount⟩
  · exact ⟨[r], Nat.le_refl 1, records, instrCount⟩

/-! ### The well-formed oracle answers (20_memory.md R44) -/

/-- The rows of the table for one size. -/
def TableRow (size : Nat) (m : InstrMeta) : Prop :=
  m = linearMeta size ∨ (∃ d, m = branchMeta size d) ∨ (∃ d, m = jumpMeta size d) ∨ m = indirectJumpMeta size ∨
    (∃ j d, m = callMeta j size d) ∨ (∃ j, m = indirectCallMeta j size) ∨ m = returnMeta size

theorem TableRow.wf {size : Nat} {m : InstrMeta} (row : TableRow size m) (h : twoOrFour size) : m.wf = true := by
  have sizeOk : (decide (size = 2) || decide (size = 4)) = true := by simpa [twoOrFour] using h
  rcases row with rfl | ⟨d, rfl⟩ | ⟨d, rfl⟩ | rfl | ⟨_ | _, d, rfl⟩ | ⟨_ | _, rfl⟩ | rfl <;>
    exact Bool.and_eq_true_iff.mpr ⟨sizeOk, rfl⟩

/-- The class flags of a well-formed answer select its row, and its destination is there exactly in the rows that have
one. -/
theorem InstrMeta.tableRow_of_wf {m : InstrMeta} (wf : m.wf = true) : twoOrFour m.size ∧ TableRow m.size m := by
  obtain ⟨cls, size, dest⟩ := m
  simp only [InstrMeta.wf, Bool.and_eq_true, Bool.or_eq_true, decide_eq_true_eq] at wf
  obtain ⟨sizeOk, row⟩ := wf
  refine ⟨sizeOk, ?_⟩
  unfold TableRow
  split at row
  case h_1 =>
    obtain rfl := Option.isNone_iff_eq_none.mp row
    exact .inl rfl
  case h_2 =>
    obtain ⟨d, rfl⟩ := Option.isSome_iff_exists.mp row
    exact .inr (.inl ⟨d, rfl⟩)
  case h_3 =>
    obtain ⟨d, rfl⟩ := Option.isSome_iff_exists.mp row
    exact .inr (.inr (.inl ⟨d, rfl⟩))
  case h_4 =>
    obtain rfl := Option.isNone_iff_eq_none.mp row
    exact .inr (.inr (.inr (.inl rfl)))
  case h_5 j =>
    obtain ⟨d, rfl⟩ := Option.isSome_iff_exists.mp row
    exact .inr (.inr (.inr (.inr (.inl ⟨j, d, rfl⟩))))
  case h_6 j =>
    obtain rfl := Option.isNone_iff_eq_none.mp row
    exact .inr (.inr (.inr (.inr (.inr (.inl ⟨j, rfl⟩)))))
  case h_7 =>
    obtain rfl := Option.isNone_iff_eq_none.mp row
    exact .inr (.inr (.inr (.inr (.inr (.inr rfl)))))
  case h_8 => cases row

theorem InstrMeta.wf_iff_tableRow {m : InstrMeta} : m.wf = true ↔ ∃ size, twoOrFour size ∧ TableRow size m :=
  ⟨fun wf => ⟨m.size, InstrMeta.tableRow_of_wf wf⟩, fun ⟨_, sizeOk, row⟩ => row.wf sizeOk⟩

/-- An answer for an address is tested for its row and for the evenness of the address (notes/assumptions/9.md). -/
theorem InstrMeta.wfAt_iff {m : InstrMeta} {a : Addr} : m.wfAt a = true ↔ m.wf = true ∧ evenAddr a := by
  simp [InstrMeta.wfAt, evenAddr, and_comm]

/-- Settles O33. -/
theorem wellFormedAnswersAreTheTable : Obligations.WellFormedAnswersAreTheTable :=
  fun _ => ⟨InstrMeta.wf_iff_tableRow, fun _ => InstrMeta.wfAt_iff⟩

/-! ### The answers the model refuses (20_memory.md R44) -/

/-- While the replay loop goes on, a step of the dispatch is a replay step (42_replay.md R121). -/
theorem step_replaying {s : State} {d : Dispatch} (hd : Dispatching s d) (goes : d.goesOn = true) :
    step s = replayStep d s :=
  (step_dispatching hd).trans (if_pos goes)

theorem replayStep_of_not_wfAt {s : State} {a : Addr} {m : InstrMeta} (d : Dispatch) (hpc : s.pc = some a)
    (hm : s.oracle.lookup a = some m) (ill : m.wfAt a = false) : replayStep d s = .refused .illFormedOracleAnswer := by
  simp [replayStep, hpc, hm, ill]

/-- Settles O34: an answer outside the table, or for an odd address, fails the test of the replay step. -/
theorem illFormedAnswerIsRefused : Obligations.IllFormedAnswerIsRefused := by
  intro s d a m hd goes hpc hm bad
  have ill : m.wfAt a = false := by
    refine Bool.eq_false_iff.mpr fun wfAt => ?_
    obtain ⟨wf, even⟩ := InstrMeta.wfAt_iff.mp wfAt
    rcases bad with notWf | odd
    · exact absurd wf (Bool.eq_false_iff.mp notWf)
    · exact odd even
  rw [step_replaying hd goes]
  exact replayStep_of_not_wfAt d hpc hm ill

end Sys2Proof.Machine
end

section
/-! PROOF. Decoding (30_encoding.md): everything a byte can do to the framer, where an instruction ends, and the words
written out. -/

namespace Sys2Proof

/-! ### What a byte does to the framer (40_framer_ops.md R92 to R98) -/

/-- The registers `g` with which the byte `b` reaches the end-of-byte test: started by a TCODE byte (40_framer_ops.md
R92, R94), or with the byte's payload distributed (R96). -/
def Taken (cat : Catalog) (f : Framer) (b : Byte) (g : Framer) : Prop :=
  (f.fstate = .idle ∧ ∃ e, cat.byTcode (mdo b).toNat = some e ∧ g = Framer.start e (mdo b)) ∨
  (f.fstate = .framing ∧ distribute cat (mdo b) f = .ok g)

/-- What a byte can do to the framer. -/
inductive ByteResult (cat : Catalog) (f : Framer) (b : Byte) : FrameStep → Prop where
  | idle (ends : marker b = .endMessage) (noTcode : cat.byTcode (mdo b).toNat = none) :
      ByteResult cat f b (.idle (mdo b))
  | more (g : Framer) (taken : Taken cat f b g) (goesOn : marker b = .more) : ByteResult cat f b (.more g)
  | fieldEnded (g : Framer) (spec : FieldSpec) (taken : Taken cat f b g) (goesOn : marker b = .endField)
      (active : g.active cat = some spec) (notFixed : spec.kind.isFixed = false) :
      ByteResult cat f b (.more (g.complete spec.name g.acc))
  | message (g : Framer) (spec : FieldSpec) (taken : Taken cat f b g) (ends : marker b = .endMessage)
      (active : g.active cat = some spec) (notFixed : spec.kind.isFixed = false)
      (laterNotFixed : ∀ later ∈ (g.layout cat).drop (g.fidx + 1), later.kind.isFixed = false) :
      ByteResult cat f b (.message (g.storeLast spec.name))
  | error (e : Err) (detail : Detail) (g : Framer) : ByteResult cat f b (.error e detail g)
  | illegal : ByteResult cat f b .illegal

theorem byteResult_endField {cat : Catalog} {f g : Framer} {b : Byte} (taken : Taken cat f b g)
    (hm : marker b = .endField) : ByteResult cat f b (endField cat g) := by
  unfold endField
  split
  · exact .illegal
  next spec active =>
    split
    · exact .error ..
    next notMisplaced =>
      obtain ⟨notFixed, -⟩ := not_or.mp notMisplaced
      exact .fieldEnded g spec taken hm active (by simpa using notFixed)

theorem byteResult_endMessage {cat : Catalog} {f g : Framer} {b : Byte} (taken : Taken cat f b g)
    (hm : marker b = .endMessage) : ByteResult cat f b (endMessage cat g) := by
  unfold endMessage
  split
  · exact .illegal
  next spec active =>
    split
    · exact .error ..
    next notFixed =>
      dsimp only
      split
      · exact .error ..
      next laterNotFixed =>
        exact .message g spec taken hm active (by simpa using notFixed) (by simpa using laterNotFixed)

theorem byteResult_endOfByte {cat : Catalog} {f g : Framer} {b : Byte} (taken : Taken cat f b g) :
    ByteResult cat f b (endOfByte cat (marker b) g) := by
  cases hm : marker b with
  | more => exact .more g taken hm
  | endField => exact byteResult_endField taken hm
  | endMessage => exact byteResult_endMessage taken hm
  | invalid => exact .error ..

/-- Everything a byte can do to the framer. -/
theorem frameByte_result (cat : Catalog) (f : Framer) (b : Byte) : ByteResult cat f b (frameByte cat f b) := by
  unfold frameByte
  split
  · exact .error ..
  · split
    next idle =>
      split
      next noTcode =>
        split
        next ends => exact .idle ends noTcode
        · exact .error ..
      next e he => exact byteResult_endOfByte (.inl ⟨idle, e, he, rfl⟩)
    next framing =>
      split
      next g hg => exact byteResult_endOfByte (.inr ⟨framing, hg⟩)
      · exact .error ..
      · exact .illegal

/-! ### The end of an instruction (30_encoding.md R60) -/

/-- The bytes `bytes` end an instruction at their byte `k`, the first with the end marker, and `rest` comes after. -/
def EndsAt (bytes rest : List Byte) (k : Nat) : Prop :=
  ∃ b, bytes[k]? = some b ∧ marker b = .endMessage ∧ rest = bytes.drop (k + 1) ∧
    ∀ j < k, ∀ c, bytes[j]? = some c → marker c ≠ .endMessage

theorem endsAt_zero {b : Byte} {rest : List Byte} (ends : marker b = .endMessage) : EndsAt (b :: rest) rest 0 :=
  ⟨b, rfl, ends, rfl, nofun⟩

theorem EndsAt.cons {b : Byte} {bytes rest : List Byte} {k : Nat} (h : EndsAt bytes rest k)
    (goesOn : marker b ≠ .endMessage) : EndsAt (b :: bytes) rest (k + 1) := by
  obtain ⟨c, hc, ends, hrest, before⟩ := h
  refine ⟨c, hc, ends, hrest, fun j hj d hd => ?_⟩
  cases j with
  | zero => cases hd; exact goesOn
  | succ j => exact before j (Nat.lt_of_succ_lt_succ hj) d hd

/-- Whatever registers the framer starts with, an instruction ends at the first end marker. -/
theorem decodeFrom_endsAt {cat : Catalog} {bytes rest : List Byte} {i : Instr} {f : Framer}
    (h : decodeFrom cat f bytes = .instr i rest) : ∃ k, EndsAt bytes rest k := by
  induction bytes generalizing f with
  | nil => cases hs : f.fstate <;> simp [decodeFrom, hs] at h
  | cons b bytes ih =>
    have goesOn : ∀ g, marker b ≠ .endMessage → decodeFrom cat g bytes = .instr i rest →
        ∃ k, EndsAt (b :: bytes) rest k := by
      intro g hb hg
      obtain ⟨k, hk⟩ := ih hg
      exact ⟨k + 1, hk.cons hb⟩
    rw [decodeFrom] at h
    generalize hr : frameByte cat f b = r at h
    cases hr ▸ frameByte_result cat f b with
    | idle ends => cases h; exact ⟨0, endsAt_zero ends⟩
    | more g _ hm => exact goesOn g (by simp [hm]) h
    | fieldEnded g spec _ hm => exact goesOn _ (by simp [hm]) h
    | message g spec _ ends => cases h; exact ⟨0, endsAt_zero ends⟩
    | error => cases h
    | illegal => cases h

/-- Settles O3, with the framer at rest before the first byte. -/
theorem instrEndsAtFirstEndMarker : Obligations.InstrEndsAtFirstEndMarker :=
  fun _ _ _ _ h => decodeFrom_endsAt h

/-! ### Words written out (95_test_vectors.md section 3) -/

/-- Settles O4: the words are closed, so the decoder is evaluated on each. -/
theorem specWordsDecode : Obligations.SpecWordsDecode := by
  refine ⟨?_, ?_, ?_, ?_, ?_, ?_⟩ <;> decide

end Sys2Proof
end

section
/-! PROOF. The fields that no handler reads (30_encoding.md R75). Blanking them in an instruction and in the messages a
state retains commutes with each operation of the model, hence with `exec` and, up to the message the framer completes,
with `step`. -/

namespace Sys2Proof.Machine

open Sys2Proof

/-! ### Blanking -/

/-- The working registers with the message blanked. -/
def strippedDispatch (d : Dispatch) : Dispatch := { d with msg := stripped d.msg }

/-- The outcome with the messages retained blanked. -/
def strippedAnswer : Answer → Answer
  | .next s => .next (strippedState s)
  | .fault r => .fault r
  | .refused r => .refused r

theorem strippedAnswer_next (s : State) : strippedAnswer (.next s) = .next (strippedState s) := rfl

theorem strippedAnswer_next_eq {s t : State} (h : strippedState s = t) : strippedAnswer (.next s) = .next t :=
  congrArg Host.Outcome.next h

theorem strippedAnswer_refused (r : Refusal) : strippedAnswer (.refused r) = .refused r := rfl

/-- Outcomes differ at most in blanked fields when they are equal once blanked. -/
theorem sameOutcome_iff {a b : Answer} : sameOutcome a b ↔ strippedAnswer a = strippedAnswer b := by
  cases a <;> cases b <;> simp [sameOutcome, strippedAnswer]

theorem stripped_stripped (i : Instr) : stripped (stripped i) = stripped i := by cases i <;> rfl

theorem strippedState_strippedState (s : State) : strippedState (strippedState s) = strippedState s := by
  simp [strippedState, stripped_stripped, Function.comp_def]

/-! ### The operations on the state -/

theorem strippedState_raise (e : Err) (detail : Detail) (s : State) :
    strippedState (s.raise e detail) = (strippedState s).raise e detail := rfl

/-- Which messages `prevMsg` retains does not depend on a blanked field (10_state.md R24). -/
theorem nextPrevMsg_stripped (m : Instr) (prev : Option Instr) :
    (nextPrevMsg m prev).map stripped = nextPrevMsg (stripped m) (prev.map stripped) := by
  cases m <;> rfl

theorem strippedState_finish (m : Instr) (s : State) :
    strippedState (s.finish m) = (strippedState s).finish (stripped m) := by
  cases hr : s.repeatLeft <;> simp [strippedState, State.finish, hr, nextPrevMsg_stripped]

theorem strippedState_openReplay (m : Instr) (n : Budget) (hist : Hist) (hasAddr needIndirect : Bool) (after : After)
    (s : State) :
    strippedState (s.openReplay m n hist hasAddr needIndirect after) =
      (strippedState s).openReplay (stripped m) n hist hasAddr needIndirect after := rfl

theorem strippedState_applyDelta (a : Addr) (s : State) :
    strippedState (s.applyDelta a) = (strippedState s).applyDelta a := rfl

theorem strippedState_adoptAddr (a : Addr) (s : State) :
    strippedState (s.adoptAddr a) = (strippedState s).adoptAddr a := rfl

theorem strippedState_emit (r : Record) (s : State) : strippedState (s.emit r) = (strippedState s).emit r := rfl

theorem strippedState_push (a : Addr) (s : State) : strippedState (s.push a) = (strippedState s).push a := by
  by_cases hD : s.cfg.csDepth = 0
  · simp [State.push, strippedState, hD]
  · cases hm : s.cfg.csMode <;> simp [State.push, strippedState, hD, hm]

theorem pop_strippedState (s : State) : (strippedState s).pop = (s.pop.1, strippedState s.pop.2) := by
  by_cases hS : s.csSize = 0
  · simp [State.pop, strippedState, hS]
  · cases hm : s.cfg.csMode <;> simp [State.pop, strippedState, hS, hm]

/-! ### The operand forms -/

theorem strippedState_withAddr {v : Operand} {s : State} {k k' : Addr → State}
    (hk : ∀ a, strippedState (k a) = k' a) : strippedState (withAddr v s k) = withAddr v (strippedState s) k' := by
  simp only [withAddr, apply_ite strippedState, hk, strippedState_raise]

theorem strippedState_withHist {v : Operand} {s : State} {k k' : Hist → State}
    (hk : ∀ h, strippedState (k h) = k' h) : strippedState (withHist v s k) = withHist v (strippedState s) k' := by
  simp only [withHist, apply_ite strippedState, hk, strippedState_raise]

theorem strippedState_withBudget {v : Operand} {s : State} {k k' : Nat → State → State}
    (hk : ∀ b t, strippedState (k b t) = k' b (strippedState t)) :
    strippedState (withBudget v s k) = withBudget v (strippedState s) k' := by
  simp only [withBudget, apply_ite strippedState, hk, strippedState_raise]
  rfl

/-- A counted replay (42_replay.md R131). -/
theorem strippedState_counted (i : Instr) (icnt : Operand) (hist : Hist) (hasAddr needIndirect : Bool) (after : After)
    (s : State) :
    strippedState (withBudget icnt s fun b s => s.openReplay i (.count b) hist hasAddr needIndirect after) =
      withBudget icnt (strippedState s) fun b s =>
        s.openReplay (stripped i) (.count b) hist hasAddr needIndirect after :=
  strippedState_withBudget fun _ _ => strippedState_openReplay ..

theorem strippedState_syncFrom (i : Instr) (icnt : Operand) (a : Addr) (hist : Hist) (needIndirect : Bool)
    (s : State) :
    strippedState (syncFrom i icnt a hist needIndirect s) =
      syncFrom (stripped i) icnt a hist needIndirect (strippedState s) := by
  have samePc : (strippedState s).pc = s.pc := rfl
  unfold syncFrom
  rw [samePc]
  cases s.pc with
  | none => exact strippedState_finish ..
  | some pc => exact strippedState_counted ..

theorem strippedState_historyFull (i : Instr) (rdata : Operand) (left : Nat) (s : State) :
    strippedState (historyFull i rdata left s) = historyFull (stripped i) rdata left (strippedState s) :=
  strippedState_withHist fun _ => strippedState_openReplay ..

/-! ### The meanings -/

theorem strippedAnswer_execRepeatBranch (bcnt tstamp : Operand) (s : State) :
    strippedAnswer (execRepeatBranch bcnt tstamp s) = execRepeatBranch bcnt none (strippedState s) := by
  have blankedPrev : (strippedState s).prevMsg = s.prevMsg.map stripped := rfl
  unfold execRepeatBranch
  rw [blankedPrev]
  cases s.prevMsg <;> rfl

/-- Blanking commutes with the meaning of every instruction. -/
theorem strippedAnswer_exec (i : Instr) (s : State) :
    strippedAnswer (exec i s) = exec (stripped i) (strippedState s) := by
  cases i with
  | ownership => exact strippedAnswer_next_eq (strippedState_finish ..)
  | directBranch => exact strippedAnswer_next_eq (strippedState_counted ..)
  | indirectBranch => exact strippedAnswer_next_eq (strippedState_withAddr fun _ => strippedState_counted ..)
  | error => exact strippedAnswer_next_eq (strippedState_finish ..)
  | progTraceSync => exact strippedAnswer_next_eq (strippedState_withAddr fun _ => strippedState_syncFrom ..)
  | directBranchSync => exact strippedAnswer_next_eq (strippedState_withAddr fun _ => strippedState_syncFrom ..)
  | indirectBranchSync => exact strippedAnswer_next_eq (strippedState_withAddr fun _ => strippedState_syncFrom ..)
  | resourceFull0 => exact strippedAnswer_next_eq (strippedState_finish ..)
  | resourceFull1 => exact strippedAnswer_next_eq (strippedState_historyFull ..)
  | resourceFull2 => exact strippedAnswer_next_eq (strippedState_historyFull ..)
  | resourceFullReserved => rfl
  | indirectBranchHist =>
    exact strippedAnswer_next_eq
      (strippedState_withAddr fun _ => strippedState_withHist fun _ => strippedState_counted ..)
  | indirectBranchHistSync =>
    exact strippedAnswer_next_eq
      (strippedState_withAddr fun _ => strippedState_withHist fun _ => strippedState_syncFrom ..)
  | repeatBranch bcnt tstamp => exact strippedAnswer_execRepeatBranch bcnt tstamp s
  | progTraceCorrelation0 => exact strippedAnswer_next_eq (strippedState_counted ..)
  | progTraceCorrelation1 => exact strippedAnswer_next_eq (strippedState_withHist fun _ => strippedState_counted ..)
  | progTraceCorrelationReserved => rfl
  | idle => rfl

/-- Instructions and states that are equal once blanked have outcomes that are. -/
theorem exec_congr_stripped {i j : Instr} {s t : State} (hij : stripped i = stripped j)
    (hst : strippedState s = strippedState t) : strippedAnswer (exec i s) = strippedAnswer (exec j t) := by
  rw [strippedAnswer_exec, strippedAnswer_exec, hij, hst]

/-- Settles O30: the meaning commutes with blanking, and both instructions are the same once blanked. -/
theorem uninterpretedFieldsChangeNoOutcome : Obligations.UninterpretedFieldsChangeNoOutcome :=
  fun _ _ _ hij => sameOutcome_iff.mpr (exec_congr_stripped hij rfl)

/-! ### The replay -/

theorem strippedState_countAndPush (pc : Addr) (m : InstrMeta) (s : State) :
    strippedState (countAndPush pc m s) = countAndPush pc m (strippedState s) := by
  unfold countAndPush
  dsimp only
  split
  · exact strippedState_push ..
  · rfl

theorem strippedState_replayIndirect (pc : Addr) (m : InstrMeta) (d : Dispatch) (s : State) :
    strippedState (replayIndirect pc m d s) = replayIndirect pc m (strippedDispatch d) (strippedState s) := by
  unfold replayIndirect
  dsimp only
  rw [← strippedState_emit, pop_strippedState]
  split
  · dsimp only
    generalize State.pop _ = popped
    obtain ⟨r, t⟩ := popped
    have sameMode : (strippedState t).cfg.csMode = t.cfg.csMode := rfl
    dsimp only
    rw [sameMode]
    cases t.cfg.csMode <;> cases r <;> rfl
  · rfl

theorem strippedState_replayDirect (pc : Addr) (m : InstrMeta) (d : Dispatch) (s : State) :
    strippedState (replayDirect pc m d s) = replayDirect pc m (strippedDispatch d) (strippedState s) := rfl

theorem strippedState_replayInstr (pc : Addr) (m : InstrMeta) (d : Dispatch) (s : State) :
    strippedState (replayInstr pc m d s) = replayInstr pc m (strippedDispatch d) (strippedState s) := by
  unfold replayInstr
  dsimp only
  rw [← strippedState_countAndPush]
  split
  · exact strippedState_replayIndirect ..
  · exact strippedState_replayDirect ..

/-- The checks of a replay step read neither message (42_replay.md R122). -/
theorem strippedAnswer_replayStep (d : Dispatch) (s : State) :
    strippedAnswer (replayStep d s) = replayStep (strippedDispatch d) (strippedState s) := by
  have samePc : (strippedState s).pc = s.pc := rfl
  have sameOracle : (strippedState s).oracle = s.oracle := rfl
  unfold replayStep
  rw [samePc, sameOracle]
  cases s.pc with
  | none => rfl
  | some pc =>
    dsimp only
    cases s.oracle.lookup pc with
    | none => rfl
    | some m =>
      dsimp only
      simp only [apply_ite strippedAnswer, strippedAnswer_next, strippedAnswer_refused, strippedState_raise,
        strippedState_replayInstr]
      rfl

theorem strippedState_runAfter (d : Dispatch) (s : State) :
    strippedState (runAfter d s) = runAfter (strippedDispatch d) (strippedState s) := by
  have sameAfter : (strippedDispatch d).after = d.after := rfl
  unfold runAfter
  rw [sameAfter]
  cases d.after with
  | finish => exact strippedState_finish ..
  | delta => exact strippedState_finish ..
  | adopt => exact strippedState_finish ..
  | again left =>
    cases left with
    | zero => exact strippedState_finish ..
    | succ left => exact strippedState_openReplay ..

theorem strippedState_closeReplay (d : Dispatch) (s : State) :
    strippedState (closeReplay d s) = closeReplay (strippedDispatch d) (strippedState s) := by
  unfold closeReplay withSettled
  simp only [apply_ite strippedState, strippedState_raise, strippedState_runAfter]
  rfl

theorem strippedAnswer_dispatchStep (d : Dispatch) (s : State) :
    strippedAnswer (dispatchStep d s) = dispatchStep (strippedDispatch d) (strippedState s) := by
  have sameGoesOn : (strippedDispatch d).goesOn = d.goesOn := rfl
  unfold dispatchStep
  rw [sameGoesOn]
  split
  · exact strippedAnswer_replayStep d s
  · exact strippedAnswer_next_eq (strippedState_closeReplay d s)

/-! ### The step -/

theorem Dispatching.stripped {s : State} {d : Dispatch} (h : Dispatching s d) :
    Dispatching (strippedState s) (strippedDispatch d) :=
  ⟨h.running, h.tolerance, h.catalog, by simp [strippedState, strippedDispatch, h.inDispatch]⟩

theorem Fetching.stripped {s : State} (h : Fetching s) : Fetching (strippedState s) :=
  ⟨h.running, h.tolerance, h.catalog, by simp [strippedState, h.noDispatch], h.noRepeat⟩

theorem strippedState_endOfStream (s : State) : strippedState (endOfStream s) = endOfStream (strippedState s) := by
  have sameFramer : (strippedState s).framer = s.framer := rfl
  unfold endOfStream
  rw [sameFramer]
  cases s.framer.fstate <;> rfl

theorem strippedAnswer_strippedAnswer (a : Answer) : strippedAnswer (strippedAnswer a) = strippedAnswer a := by
  cases a with
  | next s => exact strippedAnswer_next_eq (strippedState_strippedState s)
  | fault => rfl
  | refused => rfl

/-- A byte step. A message that the framer completes is run as it was received, in both states. -/
theorem strippedAnswer_step_byte {s : State} {b : Byte} (hf : Fetching s) (hb : s.wire.read s.pos = some b) :
    strippedAnswer (step (strippedState s)) = strippedAnswer (step s) := by
  have sameFraming : frameByte (strippedState s).cfg.catalog (strippedState s).framer b =
      frameByte s.cfg.catalog s.framer b := rfl
  rw [step_byte hf hb, step_byte hf.stripped hb, sameFraming]
  cases frameByte s.cfg.catalog s.framer b with
  | idle p => exact exec_congr_stripped rfl (strippedState_strippedState { s with pos := s.pos + 1 })
  | more f => exact strippedAnswer_next_eq (strippedState_strippedState { s with pos := s.pos + 1, framer := f })
  | message f =>
    exact exec_congr_stripped rfl
      (strippedState_strippedState (State.completeMessage f { s with pos := s.pos + 1 }))
  | error e detail f =>
    exact strippedAnswer_next_eq
      (strippedState_strippedState (State.raise e detail { s with pos := s.pos + 1, framer := f }))
  | illegal => rfl

/-- A turn of a `RepeatBranch` loop: the message retained is run, blanked in one of the two states. -/
theorem step_repeating_stripped {s : State} {left : Nat} (ht : s.cfg.tolerateFirstUnknown = false)
    (hc : s.cfg.catalog.legal = true) (hr : s.status = .run) (hd : s.dispatch = none) (hl : s.repeatLeft = some left) :
    step (strippedState s) = strippedAnswer (step s) := by
  have noDispatch : (strippedState s).dispatch = none := by simp [strippedState, hd]
  have blankedPrev : (strippedState s).prevMsg = s.prevMsg.map stripped := rfl
  rw [step_repeating ht hc hr hd hl, step_repeating (s := strippedState s) ht hc hr noDispatch hl, blankedPrev]
  cases left with
  | zero => rfl
  | succ left =>
    cases s.prevMsg with
    | none => rfl
    | some m => exact (strippedAnswer_exec m { s with prevMsg := some m, repeatLeft := some left }).symm

/-- A step of a running block: it takes a step of a dispatch, a turn of a loop, the end of the stream or a byte. -/
theorem strippedAnswer_step_running {s : State} (ht : s.cfg.tolerateFirstUnknown = false)
    (hc : s.cfg.catalog.legal = true) (hr : s.status = .run) :
    strippedAnswer (step (strippedState s)) = strippedAnswer (step s) := by
  cases hd : s.dispatch with
  | some d =>
    have dispatching : Dispatching s d := ⟨hr, ht, hc, hd⟩
    rw [step_dispatching dispatching, step_dispatching dispatching.stripped, ← strippedAnswer_dispatchStep,
      strippedAnswer_strippedAnswer]
  | none =>
    cases hl : s.repeatLeft with
    | some left => rw [step_repeating_stripped ht hc hr hd hl, strippedAnswer_strippedAnswer]
    | none =>
      have fetching : Fetching s := ⟨hr, ht, hc, hd, hl⟩
      cases hb : s.wire.read s.pos with
      | some b => exact strippedAnswer_step_byte fetching hb
      | none =>
        rw [step_endOfStream fetching hb, step_endOfStream fetching.stripped hb, ← strippedState_endOfStream]
        exact strippedAnswer_next_eq (strippedState_strippedState _)

/-- Blanking the messages retained changes the outcome of a step in blanked fields only. -/
theorem strippedAnswer_step (s : State) : strippedAnswer (step (strippedState s)) = strippedAnswer (step s) := by
  cases ht : s.cfg.tolerateFirstUnknown with
  | true => rw [step_refused ht, step_refused (s := strippedState s) ht]
  | false =>
    cases hc : s.cfg.catalog.legal with
    | false => rw [step_illegal ht hc, step_illegal (s := strippedState s) ht hc]
    | true =>
      cases hs : s.status with
      | run => exact strippedAnswer_step_running ht hc hs
      | done => rw [step_done ht hc hs, step_done (s := strippedState s) ht hc hs]
      | error => rw [step_error ht hc hs, step_error (s := strippedState s) ht hc hs]

/-- Settles O31: both steps agree with that of the one blanked state. -/
theorem retainedUninterpretedFieldsChangeNoStep : Obligations.RetainedUninterpretedFieldsChangeNoStep := by
  intro s t hst
  refine sameOutcome_iff.mpr ?_
  rw [← strippedAnswer_step s, ← strippedAnswer_step t, hst]

end Sys2Proof.Machine
end

section
/-! PROOF. What the decoder accepts is well-formed (30_encoding.md R63, R64, R71, R72, R74, R77). The framer keeps an
invariant under every legal catalog: the fields before the active one were received and fit, no other was, and the
bits taken add up to whole groups. The field map of a completed message then fits its layout, and the message read from
that map has the same fields. -/

namespace Sys2Proof

/-! ### Field maps -/

@[simp] theorem Fields.get_set (fs : Fields) (name other : FieldName) (v : Nat) :
    Fields.get (Fields.set fs name v) other = if name = other then some v else Fields.get fs other := by
  induction fs with
  | nil => rfl
  | cons entry rest ih =>
    obtain ⟨n, u⟩ := entry
    by_cases hn : n = name
    · subst hn
      by_cases ho : n = other <;> simp [Fields.set, Fields.get, ho]
    · by_cases ho : n = other
      · subst ho
        simp [Fields.set, Fields.get, hn, Ne.symm hn]
      · simp [Fields.set, Fields.get, hn, ho, ih]

@[simp] theorem Fields.get_cons (name other : FieldName) (v : Nat) (rest : Fields) :
    Fields.get ((name, v) :: rest) other = if name = other then some v else Fields.get rest other := rfl

@[simp] theorem Fields.get_append (fs gs : Fields) (name : FieldName) :
    Fields.get (fs ++ gs) name = (Fields.get fs name).or (Fields.get gs name) := by
  induction fs with
  | nil => rfl
  | cons entry rest ih =>
    by_cases hn : entry.1 = name <;> simp [Fields.get, hn, ih]

@[simp] theorem Operand.get_entry (o : Operand) (name other : FieldName) :
    Fields.get (Operand.entry name o) other = if name = other then o else none := by
  cases o <;> simp [Operand.entry, Fields.get]

/-! ### Operands that fit a layout, one field at a time (30_encoding.md R64, R74, R80) -/

/-- A field of a layout: a fixed one that is present, a variable one that is present, or one that is left out at a group
boundary with every field after it. -/
theorem operandsFit_cons {spec : FieldSpec} {used : Nat} {rest : List FieldSpec} {vals : Fields} :
    operandsFit (spec :: rest) used vals = true ↔
      (∃ w v, spec.kind = .fixed w ∧ Fields.get vals spec.name = some v ∧ v < 2 ^ w ∧
        operandsFit rest ((used + w) % mdoBits) vals = true) ∨
      (∃ v, spec.kind.isFixed = false ∧ Fields.get vals spec.name = some v ∧ v < 2 ^ accWidth ∧
        operandsFit rest 0 vals = true) ∨
      (spec.kind.isFixed = false ∧ Fields.get vals spec.name = none ∧ used = 0 ∧
        ∀ later ∈ rest, later.kind.isFixed = false ∧ Fields.get vals later.name = none) := by
  obtain ⟨name, kind⟩ := spec
  cases kind <;> cases hv : Fields.get vals name <;> simp [operandsFit, FieldKind.isFixed, hv]

/-- Whether operands fit depends on the values of the layout's fields alone. -/
theorem operandsFit_congr {l : List FieldSpec} {used : Nat} {vals vals' : Fields}
    (same : ∀ spec ∈ l, Fields.get vals' spec.name = Fields.get vals spec.name)
    (h : operandsFit l used vals = true) : operandsFit l used vals' = true := by
  induction l generalizing used with
  | nil => rfl
  | cons spec rest ih =>
    obtain ⟨sameHead, sameRest⟩ := List.forall_mem_cons.mp same
    rw [operandsFit_cons, sameHead]
    rcases operandsFit_cons.mp h with ⟨w, v, hk, hv, hw, hr⟩ | ⟨v, hk, hv, hw, hr⟩ | ⟨hk, hv, hu, hr⟩
    · exact .inl ⟨w, v, hk, hv, hw, ih sameRest hr⟩
    · exact .inr (.inl ⟨v, hk, hv, hw, ih sameRest hr⟩)
    · refine .inr (.inr ⟨hk, hv, hu, fun later hl => ?_⟩)
      rw [sameRest later hl]
      exact hr later hl

/-- A fixed field of a layout that operands fit is present, in its width. -/
theorem fixed_of_operandsFit {l : List FieldSpec} {used w : Nat} {vals : Fields} {spec : FieldSpec}
    (h : operandsFit l used vals = true) (mem : spec ∈ l) (fixed : spec.kind = .fixed w) :
    ∃ v, v < 2 ^ w ∧ Fields.get vals spec.name = some v := by
  have isFixed : spec.kind.isFixed = true := by rw [fixed]; rfl
  induction l generalizing used with
  | nil => cases mem
  | cons first rest ih =>
    rcases operandsFit_cons.mp h with ⟨w', v, hk, hv, hw, hr⟩ | ⟨v, hk, hv, hw, hr⟩ | ⟨hk, hv, hu, hr⟩ <;>
      rcases List.mem_cons.mp mem with rfl | later
    · obtain rfl : w = w' := FieldKind.fixed.inj (fixed.symm.trans hk)
      exact ⟨v, hw, hv⟩
    · exact ih hr later
    · simp [hk] at isFixed
    · exact ih hr later
    · simp [hk] at isFixed
    · simp [hr spec later] at isFixed

/-- Fields that are not fixed may all be left out at a group boundary. -/
theorem operandsFit_of_absent {l : List FieldSpec} {vals : Fields}
    (h : ∀ spec ∈ l, spec.kind.isFixed = false ∧ Fields.get vals spec.name = none) :
    operandsFit l 0 vals = true := by
  cases l with
  | nil => rfl
  | cons spec rest =>
    obtain ⟨⟨notFixed, absent⟩, later⟩ := List.forall_mem_cons.mp h
    exact operandsFit_cons.mpr (.inr (.inr ⟨notFixed, absent, rfl, later⟩))

/-! ### Fields received -/

/-- The fields of `done` were received and fit; `used` payload bits of a group were taken by the fixed fields at its
end, since its last variable field. -/
inductive Received (vals : Fields) : List FieldSpec → Nat → Prop where
  | nil : Received vals [] 0
  | fixedField {done : List FieldSpec} {used : Nat} {spec : FieldSpec} {w v : Nat} (before : Received vals done used)
      (fixed : spec.kind = .fixed w) (value : Fields.get vals spec.name = some v) (fits : v < 2 ^ w) :
      Received vals (done ++ [spec]) ((used + w) % mdoBits)
  | variableField {done : List FieldSpec} {used : Nat} {spec : FieldSpec} {v : Nat} (before : Received vals done used)
      (notFixed : spec.kind.isFixed = false) (value : Fields.get vals spec.name = some v) (fits : v < 2 ^ accWidth) :
      Received vals (done ++ [spec]) 0

/-- After the fields received, the rest of the layout is left to fit. -/
theorem Received.operandsFit_append {vals : Fields} {done : List FieldSpec} {used : Nat} (h : Received vals done used)
    {todo : List FieldSpec} (rest : operandsFit todo used vals = true) : operandsFit (done ++ todo) 0 vals = true := by
  induction h generalizing todo with
  | nil => exact rest
  | fixedField _ fixed value fits ih =>
    rw [List.append_assoc]
    exact ih (operandsFit_cons.mpr (.inl ⟨_, _, fixed, value, fits, rest⟩))
  | variableField _ notFixed value fits ih =>
    rw [List.append_assoc]
    exact ih (operandsFit_cons.mpr (.inr (.inl ⟨_, notFixed, value, fits, rest⟩)))

theorem Received.used_lt {vals : Fields} {done : List FieldSpec} {used : Nat} (h : Received vals done used) :
    used < mdoBits := by
  cases h with
  | nil => decide
  | fixedField => exact Nat.mod_lt _ (by decide)
  | variableField => decide

theorem Received.congr {vals vals' : Fields} {done : List FieldSpec} {used : Nat} (h : Received vals done used)
    (same : ∀ spec ∈ done, Fields.get vals' spec.name = Fields.get vals spec.name) : Received vals' done used := by
  induction h with
  | nil => exact .nil
  | fixedField _ fixed value fits ih =>
    rw [List.forall_mem_append] at same
    obtain ⟨sameDone, sameLast⟩ := same
    exact .fixedField (ih sameDone) fixed ((sameLast _ (List.mem_singleton_self _)).trans value) fits
  | variableField _ notFixed value fits ih =>
    rw [List.forall_mem_append] at same
    obtain ⟨sameDone, sameLast⟩ := same
    exact .variableField (ih sameDone) notFixed ((sameLast _ (List.mem_singleton_self _)).trans value) fits

/-! ### The layouts of a legal entry (40_framer_ops.md R95) -/

theorem SubLayout.select_cases (sub : SubLayout) (v : Nat) :
    sub.select v = sub.otherwise ∨ ∃ row ∈ sub.variants, sub.select v = row.2 := by
  unfold SubLayout.select
  split
  next row found => exact .inr ⟨row, List.mem_of_find?_eq_some found, rfl⟩
  · exact .inl rfl

/-- The layout settled so far begins with the base, and one of the entry's layouts begins with it. -/
theorem CatalogEntry.layout_prefix (e : CatalogEntry) (fs : Fields) :
    e.base <+: e.layout fs ∧ ∃ l ∈ e.layouts, e.layout fs <+: l := by
  unfold CatalogEntry.layout CatalogEntry.layouts
  cases e.sub with
  | none => exact ⟨List.prefix_refl _, e.base, List.mem_singleton_self _, List.prefix_refl _⟩
  | some sub =>
    dsimp only
    cases Fields.get fs sub.field with
    | none => exact ⟨List.prefix_refl _, _, List.mem_cons_self, List.prefix_append ..⟩
    | some v =>
      refine ⟨List.prefix_append .., _, ?_, List.prefix_refl _⟩
      rcases sub.select_cases v with h | ⟨row, mem, h⟩ <;> simp only [h]
      · exact List.mem_cons_self
      · exact List.mem_cons_of_mem _ (List.mem_map_of_mem mem)

/-- A legal entry's layout names no field twice, nor TCODE. -/
theorem CatalogEntry.layout_nodup {e : CatalogEntry} (legal : e.legal = true) (fs : Fields) :
    (FieldName.TCODE :: (e.layout fs).map FieldSpec.name).Nodup := by
  obtain ⟨-, l, mem, isPrefix⟩ := e.layout_prefix fs
  have distinct : (FieldName.TCODE :: l.map FieldSpec.name).Nodup := by
    simp only [CatalogEntry.legal, Bool.and_eq_true, List.all_eq_true, decide_eq_true_eq] at legal
    obtain ⟨⟨-, layoutsOk⟩, -⟩ := legal
    exact (layoutsOk l mem).2
  exact distinct.sublist ((isPrefix.sublist.map _).cons_cons _)

/-- The sub-code of a legal entry is a fixed field of its base layout. -/
theorem CatalogEntry.subcode_fixed {e : CatalogEntry} (legal : e.legal = true) {sub : SubLayout}
    (hs : e.sub = some sub) : ∃ spec ∈ e.base, spec.kind.isFixed = true ∧ spec.name = sub.field := by
  simp only [CatalogEntry.legal, hs, Bool.and_eq_true] at legal
  obtain ⟨-, subOk⟩ := legal
  split at subOk
  next spec last =>
    simp only [Bool.and_eq_true, decide_eq_true_eq] at subOk
    exact ⟨spec, List.mem_of_getLast? last, subOk.1, subOk.2⟩
  · cases subOk

/-- The layout depends on the sub-code alone. -/
theorem CatalogEntry.layout_congr {e : CatalogEntry} {fs vals : Fields}
    (same : ∀ sub, e.sub = some sub → Fields.get vals sub.field = Fields.get fs sub.field) :
    e.layout vals = e.layout fs := by
  unfold CatalogEntry.layout
  cases hs : e.sub with
  | none => rfl
  | some sub => simp only [same sub hs]

/-- Receiving the sub-code only extends the layout. -/
theorem CatalogEntry.layout_set_subcode {e : CatalogEntry} {fs : Fields} {sub : SubLayout} (hs : e.sub = some sub)
    (absent : Fields.get fs sub.field = none) (v : Nat) :
    e.layout (Fields.set fs sub.field v) = e.layout fs ++ sub.select v := by
  simp [CatalogEntry.layout, hs, absent]

theorem CatalogEntry.layout_set_other {e : CatalogEntry} {name : FieldName}
    (other : ∀ sub, e.sub = some sub → name ≠ sub.field) (fs : Fields) (v : Nat) :
    e.layout (Fields.set fs name v) = e.layout fs :=
  e.layout_congr fun sub hs => by simp [other sub hs]

/-- A field that is not fixed is no sub-code, so receiving it leaves the layout as it is. -/
theorem CatalogEntry.layout_set_notFixed {e : CatalogEntry} (legal : e.legal = true) {fs : Fields} {spec : FieldSpec}
    (mem : spec ∈ e.layout fs) (notFixed : spec.kind.isFixed = false) (v : Nat) :
    e.layout (Fields.set fs spec.name v) = e.layout fs := by
  refine e.layout_set_other (fun sub hs same => ?_) fs v
  obtain ⟨code, codeMem, fixed, codeName⟩ := CatalogEntry.subcode_fixed legal hs
  have distinct := (List.nodup_cons.mp (CatalogEntry.layout_nodup legal fs)).2
  obtain rfl : code = spec :=
    List.inj_on_of_nodup_map distinct ((e.layout_prefix fs).1.subset codeMem) mem (codeName.trans same.symm)
  simp [fixed] at notFixed

/-! ### The framer's invariant -/

/-- The registers of a message being received, with `avail` bits of the current group not yet given to a field: the
fields `done` were received and fit, no field of `todo` was, the bits taken and those available make whole groups, and
the value of an active fixed field fits the bits it has received. -/
structure Receiving (cat : Catalog) (e : CatalogEntry) (done todo : List FieldSpec) (used avail : Nat) (f : Framer) :
    Prop where
  entry : cat.byKind f.kind = some e
  legal : e.legal = true
  layout : e.layout f.fields = done ++ todo
  index : f.fidx = done.length
  received : Received f.fields done used
  only : ∀ name v, Fields.get f.fields name = some v → name ∈ FieldName.TCODE :: done.map FieldSpec.name
  aligned : (used + f.accBits + avail) % mdoBits = 0
  bounded : ∀ spec w, todo.head? = some spec → spec.kind = .fixed w → f.accBits ≤ w ∧ f.acc.toNat < 2 ^ f.accBits

/-- The registers are those of a message being received under a legal catalog. -/
def FieldsFit (cat : Catalog) (avail : Nat) (f : Framer) : Prop :=
  ∃ e done todo used, Receiving cat e done todo used avail f

section
variable {cat : Catalog} {e : CatalogEntry} {done todo rest : List FieldSpec} {used avail : Nat} {f : Framer}
  {spec : FieldSpec}

theorem Receiving.framer_layout (h : Receiving cat e done todo used avail f) : f.layout cat = done ++ todo := by
  simp [Framer.layout, h.entry, h.layout]

theorem Receiving.active_eq (h : Receiving cat e done todo used avail f) : f.active cat = todo.head? := by
  simp [Framer.active, h.framer_layout, h.index, List.getElem?_append_right, List.head?_eq_getElem?]

/-- The active field is the first one to do. -/
theorem Receiving.todo_of_active (h : Receiving cat e done todo used avail f) (active : f.active cat = some spec) :
    ∃ rest, todo = spec :: rest := by
  rw [h.active_eq] at active
  exact List.head?_eq_some_iff.mp active

theorem Receiving.nodup (h : Receiving cat e done todo used avail f) :
    (FieldName.TCODE :: (done ++ todo).map FieldSpec.name).Nodup :=
  h.layout ▸ CatalogEntry.layout_nodup h.legal f.fields

/-- No field to do was received. -/
theorem Receiving.absent (h : Receiving cat e done todo used avail f) (mem : spec ∈ todo) :
    Fields.get f.fields spec.name = none := by
  rw [Option.eq_none_iff_forall_ne_some]
  intro v hv
  have distinct := h.nodup
  rw [List.map_append, ← List.cons_append] at distinct
  exact List.disjoint_of_nodup_append distinct (h.only _ v hv) (List.mem_map_of_mem mem)

theorem Receiving.name_ne_later {later : FieldSpec} (h : Receiving cat e done (spec :: rest) used avail f)
    (mem : later ∈ rest) : spec.name ≠ later.name := by
  have distinct : ((spec :: rest).map FieldSpec.name).Nodup :=
    (List.nodup_cons.mp h.nodup).2.sublist ((List.sublist_append_right ..).map _)
  obtain ⟨notLater, -⟩ := List.nodup_cons.mp distinct
  exact fun same => notLater (same ▸ List.mem_map_of_mem mem)

/-- Writing the active field leaves the fields received before as they are. -/
theorem Receiving.received_set (h : Receiving cat e done (spec :: rest) used avail f) (v : Nat) :
    Received (Fields.set f.fields spec.name v) done used := by
  refine h.received.congr fun before mem => ?_
  have distinct := h.nodup
  rw [List.map_append, ← List.cons_append] at distinct
  have ne : before.name ≠ spec.name := fun same =>
    List.disjoint_of_nodup_append distinct (List.mem_cons_of_mem _ (List.mem_map_of_mem mem))
      (same ▸ List.mem_cons_self)
  rw [Fields.get_set, if_neg ne.symm]

/-- Receiving the active field may extend what is to do after it. -/
theorem Receiving.layout_set (h : Receiving cat e done (spec :: rest) used avail f) (v : Nat) :
    ∃ rest', e.layout (Fields.set f.fields spec.name v) = (done ++ [spec]) ++ rest' := by
  by_cases isSub : ∃ sub, e.sub = some sub ∧ spec.name = sub.field
  · obtain ⟨sub, hs, same⟩ := isSub
    have absent := h.absent (spec := spec) List.mem_cons_self
    rw [same] at absent ⊢
    exact ⟨rest ++ sub.select v, by simp [e.layout_set_subcode hs absent, h.layout]⟩
  · refine ⟨rest, ?_⟩
    rw [e.layout_set_other (fun sub hs same => isSub ⟨sub, hs, same⟩), h.layout]
    simp

/-- Completing the active field with a value that fits goes on with the next one. -/
theorem Receiving.complete {used' avail' : Nat} {v : BitVec 64} (h : Receiving cat e done (spec :: rest) used avail f)
    (received : Received (Fields.set f.fields spec.name v.toNat) (done ++ [spec]) used')
    (aligned : (used' + avail') % mdoBits = 0) : FieldsFit cat avail' (f.complete spec.name v) := by
  obtain ⟨rest', layout⟩ := h.layout_set v.toNat
  refine ⟨e, done ++ [spec], rest', used', h.entry, h.legal, layout, by simp [Framer.complete, h.index], received, ?_,
    aligned, fun _ w _ _ => ⟨Nat.zero_le w, Nat.one_pos⟩⟩
  intro name u hu
  simp only [Framer.complete, Fields.get_set] at hu
  split at hu
  next same => simp [same]
  · have := h.only name u hu
    simp only [List.map_append, List.mem_cons, List.mem_append] at this ⊢
    exact this.imp_right .inl

/-- A fixed field is completed by its value. -/
theorem Receiving.complete_fixed {w k : Nat} {v : BitVec 64} (h : Receiving cat e done (spec :: rest) used avail f)
    (fixed : spec.kind = .fixed w) (fits : v.toNat < 2 ^ w) (taken : f.accBits + k = w) (hk : k ≤ avail) :
    FieldsFit cat (avail - k) (f.complete spec.name v) := by
  have aligned := h.aligned
  have received := h.received_set v.toNat
  refine h.complete (.fixedField received fixed (by simp) fits) ?_
  simp only [mdoBits] at *
  omega

/-- A variable field is completed at the end of a byte. -/
theorem Receiving.complete_variable (h : Receiving cat e done (spec :: rest) used 0 f)
    (notFixed : spec.kind.isFixed = false) : FieldsFit cat 0 (f.complete spec.name f.acc) :=
  h.complete (.variableField (h.received_set _) notFixed (by simp) f.acc.isLt) rfl

/-! ### Distributing a group (40_framer_ops.md R96) -/

/-- Bits put above those the accumulator holds. -/
theorem acc_or_shift_lt {acc : BitVec 64} {n x k : Nat} (hacc : acc.toNat < 2 ^ n) (hx : x < 2 ^ k) :
    (acc ||| (BitVec.ofNat 64 x <<< n)).toNat < 2 ^ (n + k) := by
  rw [BitVec.toNat_or]
  refine Nat.or_lt_two_pow (hacc.trans_le (Nat.pow_le_pow_right Nat.two_pos (Nat.le_add_right n k))) ?_
  calc (BitVec.ofNat 64 x <<< n).toNat
      ≤ (x % 2 ^ 64) <<< n := by simpa using Nat.mod_le ..
    _ ≤ x * 2 ^ n := by rw [Nat.shiftLeft_eq]; exact Nat.mul_le_mul_right _ (Nat.mod_le ..)
    _ < 2 ^ k * 2 ^ n := Nat.mul_lt_mul_of_pos_right hx (Nat.two_pow_pos n)
    _ = 2 ^ (n + k) := by rw [← Nat.pow_add, Nat.add_comm]

/-- A fixed field that stays active has taken `k` more bits. -/
theorem Receiving.accumulate_fixed {w k : Nat} {acc : BitVec 64} (h : Receiving cat e done (spec :: rest) used avail f)
    (fixed : spec.kind = .fixed w) (taken : f.accBits + k ≤ w) (hk : k ≤ avail)
    (fits : acc.toNat < 2 ^ (f.accBits + k)) :
    Receiving cat e done (spec :: rest) used (avail - k) { f with acc := acc, accBits := f.accBits + k } :=
  { h with
    aligned := by
      have aligned := h.aligned
      simp only [mdoBits] at *
      omega
    bounded := by
      rintro _ w' ⟨⟩ hw
      obtain rfl : w = w' := FieldKind.fixed.inj (fixed.symm.trans hw)
      exact ⟨taken, fits⟩ }

/-- A variable field takes all the bits there are. -/
theorem Receiving.accumulate_variable {acc : BitVec 64} (h : Receiving cat e done (spec :: rest) used avail f)
    (notFixed : spec.kind.isFixed = false) :
    Receiving cat e done (spec :: rest) used 0 { f with acc := acc, accBits := f.accBits + avail } :=
  { h with
    aligned := by simpa [Nat.add_assoc] using h.aligned
    bounded := by
      rintro _ w ⟨⟩ hw
      simp [hw, FieldKind.isFixed] at notFixed }

/-- Distributing the bits of a group keeps the invariant and leaves none over. -/
theorem distributeLoop_fieldsFit {fuel g : Nat} {f' : Framer} (h : FieldsFit cat avail f)
    (hd : distributeLoop cat fuel g avail f = .ok f') : FieldsFit cat 0 f' := by
  induction fuel generalizing g avail f with
  | zero =>
    unfold distributeLoop at hd
    split at hd
    next none => cases hd; exact none ▸ h
    · cases hd
  | succ fuel ih =>
    unfold distributeLoop at hd
    split at hd
    next none => cases hd; exact none ▸ h
    next =>
      obtain ⟨e, done, todo, used, h⟩ := h
      split at hd
      · cases hd
      next name w active =>
        obtain ⟨rest, rfl⟩ := h.todo_of_active active
        obtain ⟨bitsLe, accLt⟩ := h.bounded _ w rfl rfl
        have hk : min (w - f.accBits) avail ≤ avail := Nat.min_le_right ..
        have fits := acc_or_shift_lt accLt (Nat.mod_lt g (Nat.two_pow_pos (min (w - f.accBits) avail)))
        dsimp only at hd
        split at hd
        next full =>
          rw [full] at fits
          exact ih (h.complete_fixed rfl fits full hk) hd
        next =>
          have taken : f.accBits + min (w - f.accBits) avail ≤ w := by omega
          exact ih ⟨e, done, _, used, h.accumulate_fixed rfl taken hk fits⟩ hd
      next name kind notFixed active =>
        obtain ⟨rest, rfl⟩ := h.todo_of_active active
        dsimp only at hd
        split at hd
        · cases hd
          refine ⟨e, done, _, used, h.accumulate_variable ?_⟩
          cases kind with
          | fixed w => exact absurd rfl (notFixed w)
          | _ => rfl
        · cases hd

/-! ### A byte (40_framer_ops.md R92 to R98) -/

theorem Catalog.legal_of_byKind {k : Kind} (legal : cat.legal = true) (found : cat.byKind k = some e) :
    e.legal = true := by
  simp only [Catalog.legal, Bool.and_eq_true, List.all_eq_true] at legal
  exact legal.2 e (List.mem_of_find?_eq_some found)

/-- A message begins with no field received but TCODE. -/
theorem fieldsFit_start {p : Payload} (legal : cat.legal = true) (mem : e ∈ cat) :
    FieldsFit cat 0 (Framer.start e p) := by
  obtain ⟨first, found⟩ : ∃ first, cat.byKind e.kind = some first :=
    Option.isSome_iff_exists.mp (List.find?_isSome.mpr ⟨e, mem, beq_self_eq_true _⟩)
  refine ⟨first, [], _, 0, found, Catalog.legal_of_byKind legal found, rfl, rfl, .nil, fun name v hv => ?_, rfl,
    fun _ w _ _ => ⟨Nat.zero_le w, Nat.one_pos⟩⟩
  simp only [Framer.start, Fields.get_cons] at hv
  split at hv
  next same => simp [same]
  · cases hv

theorem distribute_fieldsFit {p : Payload} {g : Framer} (h : FieldsFit cat 0 f) (hd : distribute cat p f = .ok g) :
    FieldsFit cat 0 g := by
  unfold distribute at hd
  split at hd
  · cases hd
  · obtain ⟨e, done, todo, used, h⟩ := h
    have aligned : (used + f.accBits + mdoBits) % mdoBits = 0 := by simpa using h.aligned
    exact distributeLoop_fieldsFit ⟨e, done, todo, used, { h with aligned := aligned }⟩ hd

/-- A byte reaches the end-of-byte test with the invariant. -/
theorem Taken.fieldsFit {b : Byte} {g : Framer} (taken : Taken cat f b g) (legal : cat.legal = true)
    (h : f.fstate = .framing → FieldsFit cat 0 f) : FieldsFit cat 0 g := by
  rcases taken with ⟨-, e, he, rfl⟩ | ⟨framing, hd⟩
  · exact fieldsFit_start legal (List.mem_of_find?_eq_some he)
  · exact distribute_fieldsFit (h framing) hd

/-- The registers hold a message whose fields fit its layout. -/
def MessageFits (cat : Catalog) (f : Framer) : Prop :=
  ∃ e, cat.byKind f.kind = some e ∧ e.legal = true ∧ operandsFit (e.layout f.fields) 0 f.fields = true

/-- Completing the message at a field that is not fixed, with none that is fixed after it. -/
theorem Receiving.messageFits (h : Receiving cat e done (spec :: rest) used 0 f) (notFixed : spec.kind.isFixed = false)
    (laterNotFixed : ∀ later ∈ rest, later.kind.isFixed = false) : MessageFits cat (f.storeLast spec.name) := by
  have laterAbsent : ∀ later ∈ rest, later.kind.isFixed = false ∧ Fields.get f.fields later.name = none :=
    fun later mem => ⟨laterNotFixed later mem, h.absent (List.mem_cons_of_mem _ mem)⟩
  unfold Framer.storeLast
  split
  next received =>
    have layout := CatalogEntry.layout_set_notFixed h.legal (h.layout ▸ List.mem_append_right done List.mem_cons_self)
      notFixed f.acc.toNat
    refine ⟨e, h.entry, h.legal, ?_⟩
    rw [layout, h.layout]
    refine (h.received_set _).operandsFit_append (operandsFit_cons.mpr (.inr (.inl
      ⟨f.acc.toNat, notFixed, by simp, f.acc.isLt, operandsFit_of_absent fun later mem => ?_⟩)))
    obtain ⟨notFixedLater, absent⟩ := laterAbsent later mem
    exact ⟨notFixedLater, by rw [Fields.get_set, if_neg (h.name_ne_later mem), absent]⟩
  next notReceived =>
    have atBoundary : used = 0 := by
      have aligned := h.aligned
      have bound := h.received.used_lt
      simp only [mdoBits] at *
      omega
    refine ⟨e, h.entry, h.legal, ?_⟩
    rw [h.layout]
    refine h.received.operandsFit_append ?_
    rw [atBoundary]
    exact operandsFit_of_absent (List.forall_mem_cons.mpr ⟨⟨notFixed, h.absent List.mem_cons_self⟩, laterAbsent⟩)

end

/-! ### The decoder -/

/-- Under a legal catalog the decoder accepts an idle byte whose payload is no TCODE, or a message whose fields fit. -/
theorem decodeFrom_accepts {cat : Catalog} {bytes rest : List Byte} {i : Instr} {f : Framer} (legal : cat.legal = true)
    (inv : f.fstate = .framing → FieldsFit cat 0 f) (h : decodeFrom cat f bytes = .instr i rest) :
    (∃ p, i = .idle p ∧ cat.byTcode p.toNat = none) ∨ ∃ f', i = f'.instr ∧ MessageFits cat f' := by
  induction bytes generalizing f with
  | nil => cases hs : f.fstate <;> simp [decodeFrom, hs] at h
  | cons b bytes ih =>
    rw [decodeFrom] at h
    generalize hr : frameByte cat f b = r at h
    cases hr ▸ frameByte_result cat f b with
    | idle _ noTcode => cases h; exact .inl ⟨_, rfl, noTcode⟩
    | more g taken => exact ih (fun _ => taken.fieldsFit legal inv) h
    | fieldEnded g spec taken _ active notFixed =>
      obtain ⟨e, done, todo, used, receiving⟩ := taken.fieldsFit legal inv
      obtain ⟨todo, rfl⟩ := receiving.todo_of_active active
      exact ih (fun _ => receiving.complete_variable notFixed) h
    | message g spec taken _ active notFixed laterNotFixed =>
      obtain ⟨e, done, todo, used, receiving⟩ := taken.fieldsFit legal inv
      obtain ⟨todo, rfl⟩ := receiving.todo_of_active active
      cases h
      refine .inr ⟨_, rfl, receiving.messageFits notFixed fun later mem => laterNotFixed later ?_⟩
      simpa [receiving.framer_layout, receiving.index] using mem
    | error => cases h
    | illegal => cases h

/-! ### The message of a field map (30_encoding.md R71, R72) -/

theorem Instr.ofFields_kind (k : Kind) (fs : Fields) : (Instr.ofFields k fs).kind = some k := by
  cases k with
  | resourceFull => unfold Instr.ofFields; dsimp only; split <;> rfl
  | progTraceCorrelation => unfold Instr.ofFields; dsimp only; split <;> rfl
  | _ => rfl

/-- A message is well-formed if it has the fields of a field map that fits its layout. -/
theorem wellFormed_of_sameFields {cat : Catalog} {k : Kind} {e : CatalogEntry} {i : Instr} {fs : Fields}
    (kind : i.kind = some k) (found : cat.byKind k = some e) (legal : e.legal = true) (subcode : i.subcodeOk = true)
    (fits : operandsFit (e.layout fs) 0 fs = true)
    (same : ∀ spec ∈ e.layout fs, Fields.get i.fields spec.name = Fields.get fs spec.name) :
    i.wellFormed cat = true := by
  have layout : e.layout i.fields = e.layout fs := by
    refine e.layout_congr fun sub hs => ?_
    obtain ⟨code, mem, -, name⟩ := CatalogEntry.subcode_fixed legal hs
    rw [← name]
    exact same code ((e.layout_prefix fs).1.subset mem)
  have fits' := operandsFit_congr same fits
  cases i with
  | idle => cases kind
  | _ => simp_all [Instr.wellFormed]

/-- The message of a field map has the map's fields and a sub-code of its row. -/
def Agrees (e : CatalogEntry) (fs : Fields) (i : Instr) : Prop :=
  i.subcodeOk = true ∧ ∀ spec ∈ e.layout fs, Fields.get i.fields spec.name = Fields.get fs spec.name

theorem fixed_of_base {e : CatalogEntry} {fs : Fields} {name : FieldName} {w : Nat}
    (fits : operandsFit (e.layout fs) 0 fs = true) (inBase : fixedField name w ∈ e.base) :
    ∃ v, v < 2 ^ w ∧ Fields.get fs name = some v :=
  fixed_of_operandsFit fits ((e.layout_prefix fs).1.subset inBase) rfl

/-- The RCODE received is that of one of the four rows (30_encoding.md R71). -/
theorem ofFields_agrees_resourceFull {e : CatalogEntry} {fs : Fields}
    (found : defaultCatalog.byKind .resourceFull = some e) (fits : operandsFit (e.layout fs) 0 fs = true) :
    Agrees e fs (Instr.ofFields .resourceFull fs) := by
  have inBase : fixedField .RCODE 4 ∈ e.base := by cases found; simp
  obtain ⟨v, bound, code⟩ := fixed_of_base fits inBase
  have row : v = 0 ∨ v = 1 ∨ v = 2 ∨ ∃ n ≤ 12, v = n + 3 := by
    by_cases reserved : 3 ≤ v
    · exact .inr (.inr (.inr ⟨v - 3, by omega, by omega⟩))
    · omega
  cases found
  rcases row with rfl | rfl | rfl | ⟨n, hn, rfl⟩ <;>
    simp [*, Agrees, Instr.ofFields, Instr.fields, Instr.subcodeOk, Fields.fixed, CatalogEntry.layout,
      SubLayout.select, fixedField, varField]

/-- The CDF received is that of one of the three rows (30_encoding.md R72). -/
theorem ofFields_agrees_progTraceCorrelation {e : CatalogEntry} {fs : Fields}
    (found : defaultCatalog.byKind .progTraceCorrelation = some e)
    (fits : operandsFit (e.layout fs) 0 fs = true) : Agrees e fs (Instr.ofFields .progTraceCorrelation fs) := by
  have eventInBase : fixedField .EVCODE 4 ∈ e.base := by cases found; simp
  have codeInBase : fixedField .CDF 2 ∈ e.base := by cases found; simp
  obtain ⟨ev, -, event⟩ := fixed_of_base fits eventInBase
  obtain ⟨v, bound, code⟩ := fixed_of_base fits codeInBase
  have row : v = 0 ∨ v = 1 ∨ ∃ n ≤ 1, v = n + 2 := by
    by_cases reserved : 2 ≤ v
    · exact .inr (.inr ⟨v - 2, by omega, by omega⟩)
    · omega
  cases found
  rcases row with rfl | rfl | ⟨n, hn, rfl⟩ <;>
    simp [*, Agrees, Instr.ofFields, Instr.fields, Instr.subcodeOk, Fields.fixed, CatalogEntry.layout,
      SubLayout.select, fixedField, varField]

/-- A message read from a field map that fits has that map's fields: a fixed field is present, so its value is no
default. -/
theorem ofFields_agrees {k : Kind} {e : CatalogEntry} {fs : Fields} (found : defaultCatalog.byKind k = some e)
    (fits : operandsFit (e.layout fs) 0 fs = true) : Agrees e fs (Instr.ofFields k fs) := by
  have present : ∀ spec ∈ e.layout fs, ∀ w, spec.kind = .fixed w →
      some (fs.fixed spec.name) = Fields.get fs spec.name := by
    intro spec mem w fixed
    obtain ⟨v, -, hv⟩ := fixed_of_operandsFit fits mem fixed
    simp [Fields.fixed, hv]
  cases k with
  | resourceFull => exact ofFields_agrees_resourceFull found fits
  | progTraceCorrelation => exact ofFields_agrees_progTraceCorrelation found fits
  | _ =>
    cases found
    simp_all [Agrees, Instr.ofFields, Instr.fields, Instr.subcodeOk, CatalogEntry.layout, fixedField, varField,
      addrField]

/-- Settles O2: the framer at rest has nothing to fit, and what it accepts from there is well-formed in both cases. -/
theorem decodedInstrIsWellFormed : Obligations.DecodedInstrIsWellFormed := by
  have legal : defaultCatalog.legal = true := by decide
  intro bytes i rest h
  have atRest : Framer.reset.fstate = .framing → FieldsFit defaultCatalog 0 Framer.reset := by rintro ⟨⟩
  rcases decodeFrom_accepts legal atRest h with ⟨p, rfl, noTcode⟩ | ⟨f, rfl, e, found, entryLegal, fits⟩
  · simp [Instr.wellFormed, Instr.subcodeOk, noTcode]
  · obtain ⟨subcode, same⟩ := ofFields_agrees found fits
    exact wellFormed_of_sameFields (Instr.ofFields_kind ..) found entryLegal subcode fits same

end Sys2Proof
end

section
/-! PROOF. The framer's invariant under a legal catalog (40_framer_ops.md R95, R96): the active field exists, so no byte
meets a missing one. A fixed field never ends the layout settled so far, except a sub-code about to be received, which
then extends it. -/

namespace Sys2Proof

open Sys2Proof.Machine

/-! ### Layouts settled so far (40_framer_ops.md R95) -/

theorem CatalogEntry.layouts_endVariable {e : CatalogEntry} (legal : e.legal = true) {l : List FieldSpec}
    (mem : l ∈ e.layouts) : endsVariable l = true := by
  simp only [CatalogEntry.legal, Bool.and_eq_true, List.all_eq_true] at legal
  obtain ⟨⟨-, layoutsOk⟩, -⟩ := legal
  exact (layoutsOk l mem).1

theorem endsVariable_iff {l : List FieldSpec} :
    endsVariable l = true ↔ ∃ spec, l.getLast? = some spec ∧ spec.kind.isFixed = false := by
  unfold endsVariable
  cases l.getLast? <;> simp

/-- The layout settled so far is one of the entry's, or the base that a sub-code not yet received ends. -/
theorem CatalogEntry.layout_cases (e : CatalogEntry) (fs : Fields) :
    e.layout fs ∈ e.layouts ∨ ∃ sub, e.sub = some sub ∧ Fields.get fs sub.field = none ∧ e.layout fs = e.base := by
  unfold CatalogEntry.layout CatalogEntry.layouts
  cases e.sub with
  | none => exact .inl (List.mem_singleton_self _)
  | some sub =>
    dsimp only
    cases absent : Fields.get fs sub.field with
    | none => exact .inr ⟨sub, rfl, absent, rfl⟩
    | some v =>
      left
      rcases sub.select_cases v with h | ⟨row, mem, h⟩ <;> simp only [h]
      · exact List.mem_cons_self
      · exact List.mem_cons_of_mem _ (List.mem_map_of_mem mem)

/-- What ends the layout settled so far: a variable field, or a sub-code not yet received. -/
theorem CatalogEntry.layout_getLast {e : CatalogEntry} (legal : e.legal = true) (fs : Fields) :
    ∃ spec, (e.layout fs).getLast? = some spec ∧
      (spec.kind.isFixed = true → ∃ sub, e.sub = some sub ∧ spec.name = sub.field ∧ Fields.get fs sub.field = none) := by
  rcases e.layout_cases fs with mem | ⟨sub, hs, absent, layout⟩
  · obtain ⟨spec, last, notFixed⟩ := endsVariable_iff.mp (CatalogEntry.layouts_endVariable legal mem)
    exact ⟨spec, last, by simp [notFixed]⟩
  · simp only [CatalogEntry.legal, hs, Bool.and_eq_true] at legal
    obtain ⟨-, subOk⟩ := legal
    rw [layout]
    split at subOk
    next spec last =>
      simp only [Bool.and_eq_true, decide_eq_true_eq] at subOk
      exact ⟨spec, last, fun _ => ⟨sub, hs, subOk.2, absent⟩⟩
    · cases subOk

/-- Receiving a field only extends the layout. -/
theorem CatalogEntry.layout_isPrefix_set {e : CatalogEntry} {fs : Fields} {name : FieldName}
    (absent : Fields.get fs name = none) (v : Nat) : e.layout fs <+: e.layout (Fields.set fs name v) := by
  by_cases isSub : ∃ sub, e.sub = some sub ∧ name = sub.field
  · obtain ⟨sub, hs, rfl⟩ := isSub
    rw [e.layout_set_subcode hs absent]
    exact List.prefix_append ..
  · rw [e.layout_set_other fun sub hs same => isSub ⟨sub, hs, same⟩]

theorem getElem?_of_isPrefix {l l' : List FieldSpec} {spec : FieldSpec} {j : Nat} (isPrefix : l <+: l')
    (here : l[j]? = some spec) : l'[j]? = some spec := by
  obtain ⟨more, rfl⟩ := isPrefix
  rw [List.getElem?_append_left (List.getElem?_eq_some_iff.mp here).1, here]

/-- After a fixed field there is a next one. -/
theorem CatalogEntry.lt_length_of_fixed {e : CatalogEntry} (legal : e.legal = true) {fs : Fields}
    {spec : FieldSpec} {j : Nat} (here : (e.layout fs)[j]? = some spec) (fixed : spec.kind.isFixed = true)
    (absent : Fields.get fs spec.name = none) (v : Nat) :
    j + 1 < (e.layout (Fields.set fs spec.name v)).length := by
  have here' := getElem?_of_isPrefix (e.layout_isPrefix_set absent v) here
  obtain ⟨last, hlast, pending⟩ := CatalogEntry.layout_getLast legal (Fields.set fs spec.name v)
  have le : j + 1 ≤ _ := (List.getElem?_eq_some_iff.mp here').1
  refine lt_of_le_of_ne le fun atEnd => ?_
  rw [List.getLast?_eq_getElem?, ← atEnd, Nat.add_sub_cancel, here'] at hlast
  cases hlast
  obtain ⟨sub, -, same, notReceived⟩ := pending fixed
  simp [same] at notReceived

/-- `fieldBound` bounds the fields of every layout. -/
theorem CatalogEntry.layout_length_le (e : CatalogEntry) (fs : Fields) : (e.layout fs).length ≤ e.fieldBound := by
  unfold CatalogEntry.fieldBound
  obtain ⟨-, l, mem, isPrefix⟩ := e.layout_prefix fs
  refine isPrefix.length_le.trans ?_
  unfold CatalogEntry.layouts at mem
  cases hs : e.sub with
  | none => simp_all
  | some sub =>
    rw [hs] at mem
    rcases List.mem_cons.mp mem with rfl | mem
    · simp
    · obtain ⟨row, hrow, rfl⟩ := List.mem_map.mp mem
      have := List.le_sum_of_mem (List.mem_map_of_mem (f := fun row : Nat × List FieldSpec => row.2.length) hrow)
      simp only [List.length_append]
      omega

/-! ### The active field -/

/-- The registers of a message in progress under a legal entry: what `FramerOk` says of them. -/
structure InField (cat : Catalog) (e : CatalogEntry) (f : Framer) : Prop where
  entry : cat.byKind f.kind = some e
  legal : e.legal = true
  exists_active : f.fidx < (e.layout f.fields).length
  names : ∀ name, (Fields.get f.fields name).isSome = true ↔
    name = .TCODE ∨ ∃ j spec, j < f.fidx ∧ (e.layout f.fields)[j]? = some spec ∧ spec.name = name
  room : ∀ spec w, (e.layout f.fields)[f.fidx]? = some spec → spec.kind = .fixed w →
    f.accBits < w ∨ (w = 0 ∧ f.accBits = 0)

theorem framerOk_iff {cat : Catalog} {f : Framer} (legal : cat.legal = true) (framing : f.fstate = .framing) :
    FramerOk cat f ↔ ∃ e, InField cat e f := by
  constructor
  · intro h
    obtain ⟨e, entry, exists_active, names, room⟩ := h framing
    exact ⟨e, entry, Catalog.legal_of_byKind legal entry, exists_active, names, room⟩
  · rintro ⟨e, h⟩ -
    exact ⟨e, h.entry, h.exists_active, h.names, h.room⟩

section
variable {cat : Catalog} {e : CatalogEntry} {f : Framer} {spec : FieldSpec}

theorem layout_eq_of_entry (entry : cat.byKind f.kind = some e) : f.layout cat = e.layout f.fields := by
  simp only [Framer.layout, entry]

theorem active_eq_of_entry (entry : cat.byKind f.kind = some e) : f.active cat = (e.layout f.fields)[f.fidx]? := by
  rw [Framer.active, layout_eq_of_entry entry]

/-- A message with an active field is of a kind the catalog has. -/
theorem entry_of_active (active : f.active cat = some spec) :
    ∃ e, cat.byKind f.kind = some e ∧ f.fidx < e.fieldBound := by
  cases entry : cat.byKind f.kind with
  | none => simp [Framer.active, Framer.layout, entry] at active
  | some e =>
    rw [active_eq_of_entry entry] at active
    exact ⟨e, rfl, (List.getElem?_eq_some_iff.mp active).1.trans_le (e.layout_length_le _)⟩

theorem InField.active_isSome (h : InField cat e f) : ∃ spec, f.active cat = some spec := by
  rw [active_eq_of_entry h.entry]
  exact ⟨_, List.getElem?_eq_getElem h.exists_active⟩

/-- The active field was not received. -/
theorem InField.absent (h : InField cat e f) (active : f.active cat = some spec) :
    Fields.get f.fields spec.name = none := by
  rw [active_eq_of_entry h.entry] at active
  rw [← Option.not_isSome_iff_eq_none, h.names]
  have distinct := CatalogEntry.layout_nodup h.legal f.fields
  obtain ⟨notTcode, distinct⟩ := List.nodup_cons.mp distinct
  rintro (same | ⟨j, other, before, earlier, same⟩)
  · exact notTcode (same ▸ List.mem_map_of_mem (List.mem_of_getElem? active))
  · have again := (List.getElem?_inj (j := f.fidx) (by simpa using (List.getElem?_eq_some_iff.mp earlier).1)
      distinct).mp (by simp [earlier, active, same])
    exact absurd again before.ne

/-- Completing the active field, where a next one exists. -/
theorem InField.complete (h : InField cat e f) (active : f.active cat = some spec) (v : BitVec 64)
    (next : f.fidx + 1 < (e.layout (Fields.set f.fields spec.name v.toNat)).length) :
    InField cat e (f.complete spec.name v) where
  entry := h.entry
  legal := h.legal
  exists_active := next
  names name := by
    have here := active
    rw [active_eq_of_entry h.entry] at here
    obtain ⟨more, layout⟩ := e.layout_isPrefix_set (h.absent active) v.toNat
    have sameUpTo : ∀ j ≤ f.fidx, (e.layout (Fields.set f.fields spec.name v.toNat))[j]? = (e.layout f.fields)[j]? :=
      fun j hj => by rw [← layout, List.getElem?_append_left (hj.trans_lt h.exists_active)]
    simp only [Framer.complete, Fields.get_set]
    constructor
    · intro received
      split at received
      next same => exact .inr ⟨f.fidx, spec, f.fidx.lt_succ_self, by rw [sameUpTo _ le_rfl, here], same⟩
      · refine ((h.names name).mp received).imp_right ?_
        rintro ⟨j, earlier, hj, at_j, same⟩
        exact ⟨j, earlier, hj.trans f.fidx.lt_succ_self, by rw [sameUpTo j hj.le, at_j], same⟩
    · intro listed
      split
      · rfl
      next other =>
        refine (h.names name).mpr (listed.imp_right ?_)
        rintro ⟨j, earlier, hj, at_j, rfl⟩
        rw [sameUpTo j (Nat.le_of_lt_succ hj)] at at_j
        refine ⟨j, earlier, lt_of_le_of_ne (Nat.le_of_lt_succ hj) ?_, at_j, rfl⟩
        rintro rfl
        exact other (congrArg FieldSpec.name (Option.some.inj (here.symm.trans at_j)))
  room _ w _ _ := by
    show 0 < w ∨ w = 0 ∧ 0 = 0
    omega

/-- A fixed field always has a next one. -/
theorem InField.complete_fixed (h : InField cat e f) (active : f.active cat = some spec)
    (fixed : spec.kind.isFixed = true) (v : BitVec 64) : InField cat e (f.complete spec.name v) :=
  h.complete active v (CatalogEntry.lt_length_of_fixed h.legal (active_eq_of_entry h.entry ▸ active) fixed
    (h.absent active) _)

/-- A variable field that is not the last of the layout has a next one. -/
theorem InField.complete_variable (h : InField cat e f) (active : f.active cat = some spec)
    (notFixed : spec.kind.isFixed = false) (notLast : f.fidx + 1 ≠ (f.layout cat).length) :
    InField cat e (f.complete spec.name f.acc) := by
  refine h.complete active _ ?_
  have mem := List.mem_of_getElem? (active_eq_of_entry h.entry ▸ active)
  rw [CatalogEntry.layout_set_notFixed h.legal mem notFixed]
  rw [layout_eq_of_entry h.entry] at notLast
  have := h.exists_active
  omega

/-- More bits in the accumulator, where an active fixed field has room for them. -/
theorem InField.accumulate (h : InField cat e f) (active : f.active cat = some spec) (acc : BitVec 64) {n : Nat}
    (room : ∀ w, spec.kind = .fixed w → n < w) : InField cat e { f with acc := acc, accBits := n } where
  entry := h.entry
  legal := h.legal
  exists_active := h.exists_active
  names := h.names
  room spec' w here fixed := by
    have same : spec = spec' := Option.some.inj ((active_eq_of_entry h.entry ▸ active).symm.trans here)
    exact .inl (room w (same ▸ fixed))

theorem InField.start (legal : cat.legal = true) (mem : e ∈ cat) (p : Payload) :
    ∃ first, InField cat first (Framer.start e p) := by
  obtain ⟨first, found⟩ : ∃ first, cat.byKind e.kind = some first :=
    Option.isSome_iff_exists.mp (List.find?_isSome.mpr ⟨e, mem, beq_self_eq_true _⟩)
  have firstLegal := Catalog.legal_of_byKind legal found
  refine ⟨first, found, firstLegal, ?_, fun name => ?_, fun _ w _ _ => ?_⟩
  · obtain ⟨last, hlast, -⟩ := CatalogEntry.layout_getLast firstLegal (Framer.start e p).fields
    exact List.length_pos_of_mem (List.mem_of_getLast? hlast)
  · by_cases same : FieldName.TCODE = name
    · simp [Framer.start, same]
    · simp [Framer.start, same, Ne.symm same, Fields.get]
  · show 0 < w ∨ w = 0 ∧ 0 = 0
    omega

/-! ### One turn of `Distribute` (40_framer_ops.md R96) -/

theorem distributeLoop_noBits (fuel g : Nat) (f : Framer) : distributeLoop cat fuel g 0 f = .ok f := by
  cases fuel <;> rfl

/-- A variable field takes all the bits there are, unless one of them is past the accumulator. -/
theorem distributeLoop_variable {avail : Nat} (active : f.active cat = some spec) (notFixed : spec.kind.isFixed = false)
    (bits : 0 < avail) (fuel g : Nat) :
    distributeLoop cat (fuel + 1) g avail f =
      if (g <<< f.accBits) >>> accWidth = 0 then
        .ok { f with acc := f.acc ||| BitVec.ofNat 64 (g <<< f.accBits), accBits := f.accBits + avail }
      else .overflow f := by
  obtain ⟨name, kind⟩ := spec
  cases kind <;> simp_all [distributeLoop, FieldKind.isFixed, Nat.ne_of_gt bits]

/-- The bits of the group a fixed field takes in one turn, put above those it has. -/
def Framer.accWith (f : Framer) (g k : Nat) : BitVec 64 := f.acc ||| (BitVec.ofNat 64 (g % 2 ^ k) <<< f.accBits)

/-- A fixed field takes the bits it has room for, and is completed by its last one. -/
theorem distributeLoop_fixed {avail w : Nat} (active : f.active cat = some spec) (fixed : spec.kind = .fixed w)
    (bits : 0 < avail) (fuel g : Nat) :
    distributeLoop cat (fuel + 1) g avail f =
      if f.accBits + min (w - f.accBits) avail = w then
        distributeLoop cat fuel (g >>> min (w - f.accBits) avail) (avail - min (w - f.accBits) avail)
          (f.complete spec.name (f.accWith g (min (w - f.accBits) avail)))
      else
        distributeLoop cat fuel (g >>> min (w - f.accBits) avail) (avail - min (w - f.accBits) avail)
          { f with acc := f.accWith g (min (w - f.accBits) avail), accBits := f.accBits + min (w - f.accBits) avail } := by
  obtain ⟨name, kind⟩ := spec
  cases fixed
  simp only [distributeLoop, active, Nat.ne_of_gt bits, if_false, Framer.accWith]

/-- What distributing a group leaves under a legal catalog: registers whose active field exists, or an overflow. -/
def DistributedOk (cat : Catalog) (e : CatalogEntry) : Distributed → Prop
  | .ok g => InField cat e g
  | .overflow _ => True
  | .illegal => False

/-- Distributing meets no missing field, if the turns suffice for the fields to come. -/
theorem distributeLoop_ok {fuel g avail : Nat} (h : InField cat e f) (enough : e.fieldBound < fuel + f.fidx) :
    DistributedOk cat e (distributeLoop cat fuel g avail f) := by
  induction fuel generalizing g avail f with
  | zero =>
    have := h.exists_active
    have := e.layout_length_le f.fields
    omega
  | succ fuel ih =>
    rcases Nat.eq_zero_or_pos avail with rfl | bits
    · exact h
    obtain ⟨spec, active⟩ := h.active_isSome
    cases hk : spec.kind with
    | fixed w =>
      rw [distributeLoop_fixed active hk bits]
      have room := h.room spec w (active_eq_of_entry h.entry ▸ active) hk
      split
      next full =>
        refine ih (h.complete_fixed active (by rw [hk]; rfl) _) ?_
        simp only [Framer.complete]
        omega
      next notFull =>
        have none : avail - min (w - f.accBits) avail = 0 := by omega
        rw [none, distributeLoop_noBits]
        exact h.accumulate active _ fun w' hw' => by
          obtain rfl : w = w' := FieldKind.fixed.inj (hk.symm.trans hw')
          omega
    | _ =>
      rw [distributeLoop_variable active (by rw [hk]; rfl) bits]
      split
      · exact h.accumulate active _ (by simp [hk])
      · trivial

theorem distribute_ok (h : InField cat e f) (p : Payload) : DistributedOk cat e (distribute cat p f) := by
  simp only [distribute, h.entry]
  exact distributeLoop_ok h (by omega)

/-! ### A byte (40_framer_ops.md R97, R98) -/

/-- What a byte does under a legal catalog: no missing field, and a message that goes on has an active field. -/
def FrameStepOk (cat : Catalog) : FrameStep → Prop
  | .more g => ∃ e, InField cat e g
  | .illegal => False
  | _ => True

theorem endOfByte_ok (h : InField cat e f) (m : Marker) : FrameStepOk cat (endOfByte cat m f) := by
  obtain ⟨spec, active⟩ := h.active_isSome
  cases m with
  | more => exact ⟨e, h⟩
  | invalid => trivial
  | endField =>
    simp only [endOfByte, endField, active]
    split
    · trivial
    next notMisplaced =>
      simp only [not_or, Bool.not_eq_true] at notMisplaced
      obtain ⟨notFixed, -, notLast⟩ := notMisplaced
      exact ⟨e, h.complete_variable active notFixed notLast⟩
  | endMessage =>
    simp only [endOfByte, endMessage, active]
    split
    · trivial
    · split <;> trivial

/-- Under a legal catalog no byte meets a missing field, and the framer's invariant is kept. -/
theorem frameByte_ok (legal : cat.legal = true) (inv : FramerOk cat f) (b : Byte) :
    FrameStepOk cat (frameByte cat f b) := by
  unfold frameByte
  split
  · trivial
  split
  next idle =>
    split
    next =>
      split <;> trivial
    next e found =>
      obtain ⟨first, h⟩ := InField.start legal (List.mem_of_find?_eq_some found) (mdo b)
      exact endOfByte_ok h _
  next framing =>
    obtain ⟨e, h⟩ := (framerOk_iff legal framing).mp inv
    have distributed := distribute_ok h (mdo b)
    cases hd : distribute cat (mdo b) f <;> rw [hd] at distributed
    · exact endOfByte_ok distributed _
    · trivial
    · exact distributed

end

/-- Settles O12: under a legal catalog by the framer's invariant, and under another by the sequencer's first test. -/
theorem legalCatalogIsNeverRefused : Obligations.LegalCatalogIsNeverRefused := by
  refine ⟨fun cat f b legal inv => ?_, fun s tolerance illegal => step_illegal tolerance illegal⟩
  have stepOk := frameByte_ok legal inv b
  refine ⟨fun missing => ?_, fun f' more framing => ?_⟩
  · rwa [missing] at stepOk
  · rw [more] at stepOk
    exact (framerOk_iff legal framing).mpr stepOk framing

end Sys2Proof
end

section
/-! PROOF. One byte step of a session that fetches (40_framer_ops.md R90 to R101): what the framer makes of the byte, per
marker and framer state, and from that the step. -/

namespace Sys2Proof

/-! ### Markers (30_encoding.md R62) -/

theorem marker_eq_more {b : Byte} : marker b = .more ↔ mseo b = 0#2 := by
  unfold marker
  split_ifs <;> simp_all

theorem marker_eq_endField {b : Byte} : marker b = .endField ↔ mseo b = 1#2 := by
  unfold marker
  split_ifs <;> simp_all

theorem marker_eq_endMessage {b : Byte} : marker b = .endMessage ↔ mseo b = 3#2 := by
  unfold marker
  split_ifs <;> simp_all

theorem marker_eq_invalid {b : Byte} : marker b = .invalid ↔ mseo b = 2#2 := by
  unfold marker
  generalize mseo b = m
  revert m
  decide

/-! ### The framer on one byte -/

section
variable {cat : Catalog} {f g : Framer} {b : Byte} {spec : FieldSpec}

theorem frameByte_of_invalid (hm : marker b = .invalid) : frameByte cat f b = .error .invalidMseo .empty f := if_pos hm

/-- An idle byte (40_framer_ops.md R93). -/
theorem frameByte_of_noTcode (idle : f.fstate = .idle) (hm : marker b = .endMessage)
    (noTcode : cat.byTcode (mdo b).toNat = none) : frameByte cat f b = .idle (mdo b) := by
  simp [frameByte, hm, idle, noTcode]

/-- A byte whose bits were taken goes on to the end-of-byte test. -/
theorem frameByte_of_taken (taken : Taken cat f b g) (valid : marker b ≠ .invalid) :
    frameByte cat f b = endOfByte cat (marker b) g := by
  rcases taken with ⟨idle, e, found, rfl⟩ | ⟨framing, hd⟩
  · simp [frameByte, valid, idle, found]
  · simp [frameByte, valid, framing, hd]

theorem frameByte_of_overflow (framing : f.fstate = .framing) (valid : marker b ≠ .invalid)
    (hd : distribute cat (mdo b) f = .overflow g) : frameByte cat f b = .error .fieldOverflow .empty g := by
  simp [frameByte, valid, framing, hd]

/-- Marker `01` where it may not stand (40_framer_ops.md R97). -/
theorem endField_of_misplaced (active : f.active cat = some spec)
    (misplaced : spec.kind.isFixed = true ∨ f.accBits = 0 ∨ f.fidx + 1 = (f.layout cat).length) :
    endField cat f = .error .frameSeq .empty f := by
  simp [endField, active, misplaced]

/-- Marker `01` ends a variable field (40_framer_ops.md R97). -/
theorem endField_of_variable (active : f.active cat = some spec) (notFixed : spec.kind.isFixed = false)
    (received : 0 < f.accBits) (notLast : f.fidx + 1 ≠ (f.layout cat).length) :
    endField cat f = .more (f.complete spec.name f.acc) := by
  simp [endField, active, notFixed, Nat.ne_of_gt received, notLast]

/-- Marker `11` before every fixed field is complete (40_framer_ops.md R98). -/
theorem endMessage_of_fixed (active : f.active cat = some spec)
    (fixed : spec.kind.isFixed = true ∨
      ∃ j later, f.fidx < j ∧ (f.layout cat)[j]? = some later ∧ later.kind.isFixed = true) :
    ∃ f', endMessage cat f = .error .fixedTruncated .empty f' := by
  by_cases here : spec.kind.isFixed = true
  · exact ⟨f, by simp [endMessage, active, here]⟩
  · obtain ⟨j, later, after, at_j, laterFixed⟩ := fixed.resolve_left here
    have mem : later ∈ (f.layout cat).drop (f.fidx + 1) := by
      refine List.mem_of_getElem? (i := j - (f.fidx + 1)) ?_
      rw [List.getElem?_drop, Nat.add_sub_cancel' after, at_j]
    have some : ((f.layout cat).drop (f.fidx + 1)).any (fun later => later.kind.isFixed) = true :=
      List.any_eq_true.mpr ⟨later, mem, laterFixed⟩
    exact ⟨f.storeLast spec.name, by simp only [endMessage, active, here, some]; rfl⟩

/-- Marker `11` completes a message (40_framer_ops.md R98). -/
theorem endMessage_of_variable (active : f.active cat = some spec) (notFixed : spec.kind.isFixed = false)
    (laterNotFixed : ∀ later ∈ (f.layout cat).drop (f.fidx + 1), later.kind.isFixed = false) :
    endMessage cat f = .message (f.storeLast spec.name) := by
  have none : ((f.layout cat).drop (f.fidx + 1)).any (fun later => later.kind.isFixed) = false := by
    simpa using laterNotFixed
  simp only [endMessage, active, notFixed, none]
  rfl

end

/-! ### A byte of a variable field (40_framer_ops.md R96, 30_encoding.md R80) -/

/-- No bit of a group is past the accumulator exactly if none of its ones stands there. -/
theorem shift_fits_iff (p : Payload) (n : Nat) :
    (p.toNat <<< n) >>> accWidth = 0 ↔ ∀ j < 6, p.getLsbD j = true → n + j < 64 := by
  constructor
  · intro fits j _ one
    by_contra past
    have bit := congrArg (fun x => x.testBit (n + j - 64)) fits
    have same : accWidth + (n + j - 64) - n = j := by simp only [accWidth]; omega
    have above : n ≤ accWidth + (n + j - 64) := by simp only [accWidth]; omega
    simp [Nat.testBit_shiftRight, Nat.testBit_shiftLeft, same, above,
      BitVec.testBit_toNat, one] at bit
  · intro low
    refine Nat.zero_of_testBit_eq_false fun i => ?_
    rw [Nat.testBit_shiftRight, Nat.testBit_shiftLeft, BitVec.testBit_toNat, Bool.and_eq_false_imp]
    intro above
    by_contra one
    rw [Bool.not_eq_false] at one
    have := low _ (BitVec.lt_of_getLsbD one) one
    simp only [accWidth] at *
    omega

theorem ofNat_shiftLeft_toNat (p : Payload) (n : Nat) : BitVec.ofNat 64 (p.toNat <<< n) = p.setWidth 64 <<< n := by
  have fits : p.toNat % 2 ^ 64 = p.toNat := Nat.mod_eq_of_lt (p.isLt.trans (by decide))
  refine BitVec.eq_of_toNat_eq ?_
  rw [BitVec.toNat_ofNat, BitVec.toNat_shiftLeft, BitVec.toNat_setWidth, fits]

/-- The registers with a group put above the bits a variable field has. -/
def Framer.withGroup (f : Framer) (p : Payload) : Framer :=
  { f with acc := f.acc ||| (p.setWidth 64 <<< f.accBits), accBits := f.accBits + 6 }

theorem distribute_variable {cat : Catalog} {f : Framer} {spec : FieldSpec} (p : Payload)
    (active : f.active cat = some spec) (notFixed : spec.kind.isFixed = false) :
    distribute cat p f =
      if (p.toNat <<< f.accBits) >>> accWidth = 0 then .ok (f.withGroup p) else .overflow f := by
  obtain ⟨e, entry, -⟩ := entry_of_active active
  simp only [distribute, entry, distributeLoop_variable active notFixed (by decide : 0 < mdoBits),
    ofNat_shiftLeft_toNat]
  rfl

/-- The end-of-byte test raises no overflow. -/
theorem endOfByte_error_ne_overflow {cat : Catalog} {m : Marker} {f f' : Framer} {e : Err} {detail : Detail}
    (h : endOfByte cat m f = .error e detail f') : e ≠ .fieldOverflow := by
  cases m with
  | more => cases h
  | endField => simp [Machine.endField_error h]
  | endMessage => simp [Machine.endMessage_error h]
  | invalid => cases h; simp

/-! ### Where the first byte of an instruction leaves the decoder -/

theorem Framer.instr_ne_idle (f : Framer) (p : Payload) : f.instr ≠ .idle p := by
  intro same
  have kind := Instr.ofFields_kind f.kind f.fields
  rw [← Framer.instr, same] at kind
  cases kind

theorem decodeFrom_cons_eq_instr {cat : Catalog} {f : Framer} {b : Byte} {bytes rest : List Byte} {i : Instr} :
    decodeFrom cat f (b :: bytes) = .instr i rest ↔
      (∃ p, frameByte cat f b = .idle p ∧ i = .idle p ∧ rest = bytes) ∨
      (∃ g, frameByte cat f b = .message g ∧ i = g.instr ∧ rest = bytes) ∨
      (∃ g, frameByte cat f b = .more g ∧ decodeFrom cat g bytes = .instr i rest) := by
  cases h : frameByte cat f b <;> simp [decodeFrom, h, eq_comm]

theorem decodeFrom_nil_ne_instr {cat : Catalog} {f : Framer} {rest : List Byte} {i : Instr} :
    decodeFrom cat f [] ≠ .instr i rest := by
  cases h : f.fstate <;> simp [decodeFrom, h]

end Sys2Proof

namespace Sys2Proof.Machine

open Sys2Proof

/-! ### The step on one byte -/

section
variable {s : State} {b : Byte}

theorem step_of_error {e : Err} {detail : Detail} {f : Framer} (hf : Fetching s) (hb : s.wire.read s.pos = some b)
    (h : frameByte s.cfg.catalog s.framer b = .error e detail f) :
    step s = .next (State.raise e detail { s with pos := s.pos + 1, framer := f }) := by
  rw [step_byte hf hb, h]

theorem step_of_more {f : Framer} (hf : Fetching s) (hb : s.wire.read s.pos = some b)
    (h : frameByte s.cfg.catalog s.framer b = .more f) : step s = .next { s with pos := s.pos + 1, framer := f } := by
  rw [step_byte hf hb, h]

theorem step_of_idle {p : Payload} (hf : Fetching s) (hb : s.wire.read s.pos = some b)
    (h : frameByte s.cfg.catalog s.framer b = .idle p) : step s = exec (.idle p) { s with pos := s.pos + 1 } := by
  rw [step_byte hf hb, h]

theorem step_of_message {f : Framer} (hf : Fetching s) (hb : s.wire.read s.pos = some b)
    (h : frameByte s.cfg.catalog s.framer b = .message f) :
    step s = exec f.instr (State.completeMessage f { s with pos := s.pos + 1 }) := by
  rw [step_byte hf hb, h]

/-- The step ends in ERROR with this error at the offset of the byte just read (60_exceptions.md R202). -/
def RaisesAtByte (s : State) (e : Err) : Prop :=
  ∃ t, step s = .next t ∧ t.status = .error ∧ t.errCode = some e ∧ t.errInfo.byteOffset = s.pos

theorem raisesAtByte_of_error {e : Err} {detail : Detail} {f : Framer} (hf : Fetching s)
    (hb : s.wire.read s.pos = some b) (h : frameByte s.cfg.catalog s.framer b = .error e detail f) :
    RaisesAtByte s e := by
  refine ⟨_, step_of_error hf hb h, rfl, rfl, ?_⟩
  simp [frameByte_error_onByte h]

/-- Settles O5: marker `10` is the first test on a byte. -/
theorem invalidMarkerRaises : Obligations.InvalidMarkerRaises :=
  fun _ _ hf hb hm => step_of_error hf hb (frameByte_of_invalid (marker_eq_invalid.mpr hm))

theorem exec_idle (p : Payload) (s : State) : exec (.idle p) s = .next { s with idleCount := s.idleCount + 1 } := rfl

/-- Settles O7: the step runs the idle instruction, whose meaning counts. -/
theorem idleByteOnlyCounts : Obligations.IdleByteOnlyCounts := by
  refine ⟨fun s b hf idle hb hm noTcode => ?_, exec_idle⟩
  rw [step_of_idle hf hb (frameByte_of_noTcode idle (marker_eq_endMessage.mpr hm) noTcode), exec_idle]

/-- Settles O8: both framer states of the end of the stream. -/
theorem endOfStreamEndsRun : Obligations.EndOfStreamEndsRun := by
  intro s hf noByte
  rw [step_endOfStream hf noByte]
  refine ⟨fun idle => ?_, fun framing => ?_⟩
  · simp only [endOfStream, idle]
  · simp only [endOfStream, framing]
    rfl

/-- Settles O10: under a legal catalog the TCODE byte leaves a field with no bit; inside a message the two cases are
those of the end-of-field test. -/
theorem misplacedEndFieldRaises : Obligations.MisplacedEndFieldRaises := by
  intro s b hf hb hm
  have ends : marker b = .endField := marker_eq_endField.mpr hm
  have frame : ∀ f, Taken s.cfg.catalog s.framer b f →
      frameByte s.cfg.catalog s.framer b = endField s.cfg.catalog f := by
    intro f taken
    rw [frameByte_of_taken taken (by simp [ends]), ends]
    rfl
  refine ⟨fun e idle found => ?_, fun f spec framing hd active => ⟨fun misplaced => ?_, ?_⟩⟩
  · obtain ⟨first, started⟩ := InField.start hf.catalog (List.mem_of_find?_eq_some found) (mdo b)
    obtain ⟨spec, active⟩ := started.active_isSome
    have placed := frame _ (.inl ⟨idle, e, found, rfl⟩)
    rw [endField_of_misplaced active (.inr (.inl rfl))] at placed
    exact raisesAtByte_of_error hf hb placed
  · exact raisesAtByte_of_error hf hb
      ((frame f (.inr ⟨framing, hd⟩)).trans (endField_of_misplaced active misplaced))
  · rintro ⟨notFixed, received, notLast⟩
    exact step_of_more hf hb
      ((frame f (.inr ⟨framing, hd⟩)).trans (endField_of_variable active notFixed received notLast))

/-- Settles O11: the TCODE byte and a byte inside a message both come to the end-of-message test. -/
theorem truncatedFixedFieldRaises : Obligations.TruncatedFixedFieldRaises := by
  intro s b hf hb hm f spec taken active fixed
  have ends : marker b = .endMessage := marker_eq_endMessage.mpr hm
  obtain ⟨f', truncated⟩ := endMessage_of_fixed active fixed
  have frame := frameByte_of_taken taken (by simp [ends])
  rw [ends] at frame
  exact raisesAtByte_of_error hf hb (frame.trans truncated)

/-! ### The byte that completes an instruction (40_framer_ops.md R99) -/

/-- Settles O13: the byte is idle or completes a message, and which of the two the instruction tells. -/
theorem stepRunsDecodedInstr : Obligations.StepRunsDecodedInstr := by
  intro s b i hf hb hd
  rcases decodeFrom_cons_eq_instr.mp hd with ⟨p, hp, rfl, -⟩ | ⟨g, hg, rfl, -⟩ | ⟨g, -, hnil⟩
  · exact ⟨fun _ _ => step_of_idle hf hb hp, fun notIdle => absurd rfl (notIdle p)⟩
  · exact ⟨fun p same => absurd same (Framer.instr_ne_idle g p),
      fun _ => ⟨{ g with fstate := .idle }, rfl, rfl, step_of_message hf hb hg⟩⟩
  · exact absurd hnil decodeFrom_nil_ne_instr

/-! ### The overflow of a variable field (30_encoding.md R80, 60_exceptions.md R208) -/

/-- Running an instruction raises no error of the framer. -/
theorem exec_error_not_onByte {i : Instr} {s t : State} (running : s.status = .run) (h : exec i s = .next t)
    (failed : t.status = .error) : ∃ e, t.errCode = some e ∧ Err.onByte e = false := by
  obtain ⟨t', h', result⟩ := exec_result i s
  obtain rfl : t = t' := Host.Outcome.next.inj (h.symm.trans h')
  cases result with
  | raised e _ onMessage => exact ⟨e, rfl, onMessage⟩
  | _ => simp [running, State.finish, State.adoptAddr] at failed

/-- A step whose byte is distributed does not end in an overflow: the end-of-byte test raises another error, and so do
the meanings. -/
theorem step_not_overflow {t : State} {g : Framer} (hf : Fetching s) (hb : s.wire.read s.pos = some b)
    (frame : frameByte s.cfg.catalog s.framer b = endOfByte s.cfg.catalog (marker b) g) (h : step s = .next t)
    (failed : t.status = .error) : t.errCode ≠ some .fieldOverflow := by
  have ofExec : ∀ {i u}, u.status = .run → exec i u = .next t → t.errCode ≠ some .fieldOverflow := by
    intro i u running hx
    obtain ⟨e, code, notOnByte⟩ := exec_error_not_onByte running hx failed
    rintro overflow
    cases code.symm.trans overflow
    cases notOnByte
  cases hr : endOfByte s.cfg.catalog (marker b) g with
  | idle p =>
    rw [step_of_idle hf hb (frame.trans hr)] at h
    exact ofExec (by exact hf.running) h
  | more f =>
    rw [step_of_more hf hb (frame.trans hr)] at h
    cases h
    simp [hf.running] at failed
  | message f =>
    rw [step_of_message hf hb (frame.trans hr)] at h
    exact ofExec (by exact hf.running) h
  | error e detail f =>
    rw [step_of_error hf hb (frame.trans hr)] at h
    cases h
    simpa using endOfByte_error_ne_overflow hr
  | illegal =>
    rw [step_byte hf hb, frame, hr] at h
    cases h

/-- Settles O9: the group is distributed exactly if none of its ones is past the accumulator; then the end-of-byte test
decides. -/
theorem fieldOverflowExactlyOnHighOnes : Obligations.FieldOverflowExactlyOnHighOnes := by
  intro s b spec hf framing hb hm active notFixed
  have valid : marker b ≠ .invalid := fun h => hm (marker_eq_invalid.mp h)
  have hd := distribute_variable (mdo b) active notFixed
  refine ⟨fun ⟨j, hj, one, high⟩ => ?_, fun low => ?_⟩
  · have past : ¬ ((mdo b).toNat <<< s.framer.accBits) >>> accWidth = 0 := fun fits =>
      absurd ((shift_fits_iff _ _).mp fits j hj one) (Nat.not_lt.mpr high)
    rw [if_neg past] at hd
    exact step_of_error hf hb (frameByte_of_overflow framing valid hd)
  · rw [if_pos ((shift_fits_iff _ _).mpr low)] at hd
    have frame := frameByte_of_taken (.inr ⟨framing, hd⟩) valid
    refine ⟨hd, fun t next failed => ?_, fun goesOn => ?_, fun ends laterNotFixed => ?_⟩
    · exact step_not_overflow hf hb frame next failed
    · rw [marker_eq_more.mpr goesOn] at frame
      exact step_of_more hf hb frame
    · have completes : endMessage s.cfg.catalog (s.framer.withGroup (mdo b)) = _ :=
        endMessage_of_variable active notFixed fun later mem => by
          obtain ⟨j, at_j⟩ := List.mem_iff_getElem?.mp mem
          rw [List.getElem?_drop] at at_j
          exact laterNotFixed _ later (by show s.framer.fidx < s.framer.fidx + 1 + j; omega) at_j
      rw [marker_eq_endMessage.mpr ends] at frame
      have run := step_of_message hf hb (frame.trans completes)
      refine ⟨{ (s.framer.withGroup (mdo b)).storeLast spec.name with fstate := .idle }, rfl, ?_, run⟩
      simp [Framer.storeLast, Framer.instr, Framer.withGroup]

end

end Sys2Proof.Machine
end

section
/-! PROOF. The bits of a group (30_encoding.md R61, R64): how the packer puts them into the last byte, and how `Distribute`
takes them back, a whole run for a variable field and one after another for a fixed one. -/

namespace Sys2Proof

/-! ### Bytes put together -/

theorem mdo_wireByte (p : Payload) (m : BitVec 2) : mdo (wireByte p m) = p := BitVec.extractLsb'_append_eq_left

theorem mseo_wireByte (p : Payload) (m : BitVec 2) : mseo (wireByte p m) = m := BitVec.extractLsb'_append_eq_right

theorem mdo_or (b c : Byte) : mdo (b ||| c) = mdo b ||| mdo c := BitVec.extractLsb'_or

theorem mseo_or (b c : Byte) : mseo (b ||| c) = mseo b ||| mseo c := BitVec.extractLsb'_or

theorem or_shiftLeft_eq_add {x y n : Nat} (fits : x < 2 ^ n) : x ||| y <<< n = x + y * 2 ^ n := by
  rw [Nat.or_comm, ← Nat.shiftLeft_add_eq_or_of_lt fits, Nat.shiftLeft_eq, Nat.add_comm]

/-- Bits put into the payload above the `used` bits that are taken. -/
theorem mdo_or_shift {last : Byte} {x used : Nat} (clear : (mdo last).toNat < 2 ^ used) (fits : x * 2 ^ used < 64) :
    (mdo (last ||| BitVec.ofNat 8 x <<< (2 + used))).toNat = (mdo last).toNat + x * 2 ^ used := by
  have shifted : (mdo (BitVec.ofNat 8 x <<< (2 + used))).toNat = x <<< used := by
    have small : x < 64 := (Nat.le_mul_of_pos_right x (Nat.two_pow_pos used)).trans_lt fits
    have split : x * 2 ^ (2 + used) = x * 2 ^ used * 4 := by rw [Nat.pow_add]; ring
    simp only [mdo, BitVec.extractLsb'_toNat, BitVec.toNat_shiftLeft, BitVec.toNat_ofNat, Nat.shiftLeft_eq,
      Nat.shiftRight_eq_div_pow]
    rw [Nat.mod_eq_of_lt (by omega : x < 2 ^ 8), split]
    omega
  rw [mdo_or, BitVec.toNat_or, shifted, or_shiftLeft_eq_add clear]

theorem mseo_or_shift (last x : Byte) (used : Nat) : mseo (last ||| x <<< (2 + used)) = mseo last := by
  have none : mseo (x <<< (2 + used)) = 0#2 := by
    refine BitVec.eq_of_getLsbD_eq fun i hi => ?_
    simp [mseo, hi, Nat.lt_add_right used hi]
  rw [mseo_or, none, BitVec.or_zero]

/-! ### The low bits of a value -/

theorem low_or_shiftLeft (v n k : Nat) : v % 2 ^ n ||| (v / 2 ^ n % 2 ^ k) <<< n = v % 2 ^ (n + k) := by
  rw [or_shiftLeft_eq_add (Nat.mod_lt _ (Nat.two_pow_pos n)), Nat.pow_add, Nat.mod_mul, Nat.mul_comm (2 ^ n)]

theorem ofNat_shiftLeft (x n : Nat) : BitVec.ofNat 64 x <<< n = BitVec.ofNat 64 (x <<< n) := by
  refine BitVec.eq_of_toNat_eq ?_
  simp [Nat.shiftLeft_eq]

/-- The registers after the low `n` bits of `v` reached the active field. -/
def Framer.filled (f : Framer) (v n : Nat) : Framer := { f with acc := BitVec.ofNat 64 (v % 2 ^ n), accBits := n }

section
variable {cat : Catalog} {f : Framer} {spec : FieldSpec} {v n : Nat}

theorem Framer.filled_active : (f.filled v n).active cat = f.active cat := rfl

/-- A run of bits of a value that fits the accumulator goes to a variable field. -/
theorem distributeLoop_filled_variable {avail : Nat} (active : f.active cat = some spec)
    (notFixed : spec.kind.isFixed = false) (fits : v < 2 ^ accWidth) (bits : 0 < avail) (fuel : Nat) :
    distributeLoop cat (fuel + 1) (v / 2 ^ n % 2 ^ avail) avail (f.filled v n) = .ok (f.filled v (n + avail)) := by
  have noneHigh : ((v / 2 ^ n % 2 ^ avail) <<< n) >>> accWidth = 0 := by
    rw [Nat.shiftRight_eq_div_pow, Nat.shiftLeft_eq]
    refine Nat.div_eq_of_lt (lt_of_le_of_lt ?_ fits)
    exact (Nat.mul_le_mul_right _ (Nat.mod_le ..)).trans (Nat.div_mul_le_self v (2 ^ n))
  rw [distributeLoop_variable (Framer.filled_active.trans active) notFixed bits]
  simp only [Framer.filled, noneHigh, if_true, ← BitVec.ofNat_or, low_or_shiftLeft]

theorem bit_add_div_two (b : Bool) (y : Nat) : (b.toNat + 2 * y) / 2 = y := by
  have := Bool.toNat_lt b
  omega

/-- Taking one bit and then `k` more is taking `k + 1` at once. -/
theorem Framer.filled_accWith (y k : Nat) :
    (f.filled v n).accWith ((v.testBit n).toNat + 2 * y) (k + 1) = (f.filled v (n + 1)).accWith y k := by
  have group : ((v.testBit n).toNat + 2 * y) % 2 ^ (k + 1) = (v / 2 ^ n % 2 ^ 1) ||| (y % 2 ^ k) <<< 1 := by
    rw [or_shiftLeft_eq_add (Nat.mod_lt _ Nat.two_pos), Nat.pow_one, ← Nat.toNat_testBit, Nat.pow_succ', Nat.mod_mul,
      bit_add_div_two]
    have := Bool.toNat_lt (v.testBit n)
    omega
  simp only [Framer.accWith, Framer.filled, ofNat_shiftLeft, ← BitVec.ofNat_or, group, Nat.shiftLeft_or_distrib,
    ← Nat.or_assoc, low_or_shiftLeft, ← Nat.shiftLeft_add, Nat.add_comm 1 n]

theorem bit_add_shiftRight (b : Bool) (y k : Nat) : (b.toNat + 2 * y) >>> (k + 1) = y >>> k := by
  rw [Nat.add_comm k 1, Nat.shiftRight_add, Nat.shiftRight_one, bit_add_div_two]

/-- A turn of a fixed field that takes `k` bits. -/
theorem distributeLoop_filled_fixed {w avail k : Nat} (active : f.active cat = some spec) (fixed : spec.kind = .fixed w)
    (bits : 0 < avail) (taken : min (w - n) avail = k) (fuel g : Nat) :
    distributeLoop cat (fuel + 1) g avail (f.filled v n) =
      if n + k = w then
        distributeLoop cat fuel (g >>> k) (avail - k) (f.complete spec.name ((f.filled v n).accWith g k))
      else
        distributeLoop cat fuel (g >>> k) (avail - k)
          { f with acc := (f.filled v n).accWith g k, accBits := n + k } := by
  subst taken
  exact distributeLoop_fixed (Framer.filled_active.trans active) fixed bits fuel g

/-- The last bit of a fixed field. -/
theorem distributeLoop_filled_lastBit {w : Nat} (active : f.active cat = some spec) (fixed : spec.kind = .fixed w)
    (last : n + 1 = w) (fuel y avail : Nat) :
    distributeLoop cat (fuel + 1) ((v.testBit n).toNat + 2 * y) (avail + 1) (f.filled v n) =
      distributeLoop cat fuel y avail (f.complete spec.name (BitVec.ofNat 64 (v % 2 ^ w))) := by
  have acc : (f.filled v (n + 1)).accWith y 0 = BitVec.ofNat 64 (v % 2 ^ w) := by
    simp [Framer.accWith, Framer.filled, Nat.mod_one, last]
  rw [distributeLoop_filled_fixed active fixed avail.succ_pos (by omega : _ = 0 + 1), if_pos last,
    Framer.filled_accWith, acc, bit_add_shiftRight]
  rfl

/-- One bit of a fixed field that needs more. -/
theorem distributeLoop_filled_bit {w : Nat} (active : f.active cat = some spec) (fixed : spec.kind = .fixed w)
    (more : n + 1 < w) (fuel y avail : Nat) :
    distributeLoop cat (fuel + 1) ((v.testBit n).toNat + 2 * y) (avail + 1) (f.filled v n) =
      distributeLoop cat (fuel + 1) y avail (f.filled v (n + 1)) := by
  rw [distributeLoop_filled_fixed active fixed avail.succ_pos (by omega : _ = min (w - (n + 1)) avail + 1),
    Framer.filled_accWith, bit_add_shiftRight, Nat.succ_sub_succ]
  rcases Nat.eq_zero_or_pos avail with rfl | bits
  · rw [Nat.min_zero, if_neg more.ne, Nat.sub_zero, distributeLoop_noBits, distributeLoop_noBits]
    simp [Framer.accWith, Framer.filled, Nat.mod_one]
  · rw [distributeLoop_filled_fixed active fixed bits rfl, Nat.add_right_comm n 1, Nat.add_assoc n]

end

end Sys2Proof
end

section
/-! PROOF. The packer against the framer (40_framer_ops.md R96 to R98, R103). The packer ORs bits and markers into the byte
it emitted last, so what the framer makes of that byte is said for every byte that agrees with it in the payload bits
taken so far: each operation of the packer then takes some more of them. -/

namespace Sys2Proof

theorem marker_congr {b c : Byte} (same : mseo b = mseo c) : marker b = marker c := by
  unfold marker
  rw [same]

/-! ### The byte emitted last -/

/-- The framer reads the byte after the one in `g`. The first `used` bits of the payload of `last` bring it to `f`: a byte
with the same bits there distributes the rest of its payload from `f`, in turns that suffice for the fields to come. -/
structure LastByte (cat : Catalog) (g f : Framer) (last : Byte) (used fuel : Nat) : Prop where
  noMarker : mseo last = 0#2
  clear : (mdo last).toNat < 2 ^ used
  enough : ∀ e, cat.byKind f.kind = some e → e.fieldBound < fuel + f.fidx
  reads : ∀ b f', marker b ≠ .invalid → (mdo b).toNat % 2 ^ used = (mdo last).toNat →
    distributeLoop cat fuel ((mdo b).toNat / 2 ^ used) (6 - used) f = .ok f' →
    frameByte cat g b = endOfByte cat (marker b) f'

theorem payload_split {q low x used count : Nat} (clear : low < 2 ^ used)
    (h : q % 2 ^ (used + count) = low + x * 2 ^ used) :
    q % 2 ^ used = low ∧ q / 2 ^ used = x + 2 ^ count * (q / 2 ^ (used + count)) := by
  refine ((Nat.div_mod_unique (Nat.two_pow_pos used)).mpr ⟨?_, clear⟩).symm
  calc low + 2 ^ used * (x + 2 ^ count * (q / 2 ^ (used + count)))
      = (low + x * 2 ^ used) + 2 ^ (used + count) * (q / 2 ^ (used + count)) := by rw [Nat.pow_add]; ring
    _ = q := by rw [← h, Nat.mod_add_div]

section
variable {cat : Catalog} {g f : Framer} {last : Byte} {used fuel : Nat} {spec : FieldSpec} {v n w : Nat}

/-- A byte is begun. -/
theorem LastByte.fresh (framing : f.fstate = .framing) (active : f.active cat = some spec) :
    ∃ fuel, LastByte cat f f 0#8 0 fuel := by
  obtain ⟨e, entry, -⟩ := entry_of_active active
  refine ⟨e.fieldBound + mdoBits + 1, rfl, by decide, fun e' he' => ?_, fun b f' valid _ hd => ?_⟩
  · cases entry.symm.trans he'
    omega
  · rw [Nat.pow_zero, Nat.div_one] at hd
    have taken : distribute cat (mdo b) f = .ok f' := by
      simp only [distribute, entry]
      exact hd
    exact frameByte_of_taken (.inr ⟨framing, taken⟩) valid

/-- The TCODE byte leaves no bit to distribute. -/
theorem LastByte.tcode {e : CatalogEntry} {p : Payload} (found : cat.byTcode p.toNat = some e) :
    ∃ fuel, LastByte cat Framer.reset (Framer.start e p) (wireByte p 0#2) 6 fuel := by
  obtain ⟨bound, hb⟩ : ∃ bound, ∀ e', cat.byKind e.kind = some e' → e'.fieldBound < bound := by
    cases cat.byKind e.kind with
    | none => exact ⟨0, by simp⟩
    | some e' => exact ⟨e'.fieldBound + 1, by simp⟩
  refine ⟨bound, mseo_wireByte .., by simpa only [mdo_wireByte] using p.isLt, hb, fun b f' valid same hd => ?_⟩
  rw [mdo_wireByte, Nat.mod_eq_of_lt (mdo b).isLt] at same
  obtain rfl : mdo b = p := BitVec.eq_of_toNat_eq same
  rw [Nat.sub_self, distributeLoop_noBits] at hd
  cases hd
  exact frameByte_of_taken (.inl ⟨rfl, e, found, rfl⟩) valid

/-- More bits of the byte, where distributing them goes on from other registers. -/
theorem LastByte.extend {f₁ : Framer} {fuel₁ x count : Nat} (h : LastByte cat g f last used fuel)
    (room : used + count ≤ 6) (bits : x < 2 ^ count)
    (enough : ∀ e, cat.byKind f₁.kind = some e → e.fieldBound < fuel₁ + f₁.fidx)
    (goesOn : ∀ y f', y < 2 ^ (6 - (used + count)) → distributeLoop cat fuel₁ y (6 - (used + count)) f₁ = .ok f' →
      distributeLoop cat fuel (x + 2 ^ count * y) (6 - used) f = .ok f') :
    LastByte cat g f₁ (last ||| BitVec.ofNat 8 x <<< (2 + used)) (used + count) fuel₁ := by
  have taken : x * 2 ^ used + 2 ^ used ≤ 2 ^ (used + count) := by
    rw [Nat.pow_add, Nat.mul_comm x, ← Nat.mul_succ]
    exact Nat.mul_le_mul_left _ bits
  have whole : 2 ^ (used + count) ≤ 2 ^ 6 := Nat.pow_le_pow_right Nat.two_pos room
  have pos := Nat.two_pow_pos used
  have payload := mdo_or_shift (x := x) h.clear (by omega)
  refine ⟨(mseo_or_shift ..).trans h.noMarker, ?_, enough, fun b f' valid same hd => ?_⟩
  · have clear := h.clear
    omega
  · obtain ⟨low, high⟩ := payload_split h.clear (same.trans payload)
    refine h.reads b f' valid low ?_
    rw [high]
    refine goesOn _ f' (Nat.div_lt_of_lt_mul ?_) hd
    rw [← Nat.pow_add, Nat.add_sub_cancel' room]
    exact (mdo b).isLt

/-- A variable field takes the rest of the byte. -/
theorem LastByte.take_variable (h : LastByte cat g (f.filled v n) last used fuel) (room : used < 6)
    (active : f.active cat = some spec) (notFixed : spec.kind.isFixed = false) (fits : v < 2 ^ accWidth) :
    LastByte cat g (f.filled v (n + (6 - used)))
      (last ||| BitVec.ofNat 8 (v / 2 ^ n % 2 ^ (6 - used)) <<< (2 + used)) 6 fuel := by
  have whole : used + (6 - used) = 6 := Nat.add_sub_cancel' room.le
  have extended := h.extend (f₁ := f.filled v (n + (6 - used))) (fuel₁ := fuel) (x := v / 2 ^ n % 2 ^ (6 - used)) whole.le
    (Nat.mod_lt _ (Nat.two_pow_pos _)) h.enough
  rw [whole] at extended
  refine extended fun y f' small hd => ?_
  obtain rfl : y = 0 := Nat.lt_one_iff.mp small
  rw [distributeLoop_noBits] at hd
  obtain ⟨e, entry, index⟩ := entry_of_active active
  have enough := h.enough e entry
  obtain ⟨fuel, rfl⟩ : ∃ k, fuel = k + 1 := ⟨fuel - 1, by simp only [Framer.filled] at enough; omega⟩
  simp only [Nat.mul_zero, Nat.add_zero]
  rw [distributeLoop_filled_variable active notFixed fits (Nat.sub_pos_of_lt room), hd]

/-- The registers after bit `n` of a fixed field of width `w`. -/
def Framer.nextBit (f : Framer) (name : FieldName) (w v n : Nat) : Framer :=
  if n + 1 = w then f.complete name (BitVec.ofNat 64 (v % 2 ^ w)) else f.filled v (n + 1)

/-- A fixed field takes its next bit. -/
theorem LastByte.take_bit (h : LastByte cat g (f.filled v n) last used fuel) (room : used < 6)
    (active : f.active cat = some spec) (fixed : spec.kind = .fixed w) (inField : n < w) :
    ∃ fuel', LastByte cat g (f.nextBit spec.name w v n)
      (last ||| BitVec.ofNat 8 (v.testBit n).toNat <<< (2 + used)) (used + 1) fuel' := by
  obtain ⟨e, entry, index⟩ := entry_of_active active
  have enough := h.enough e entry
  simp only [Framer.filled] at enough
  obtain ⟨fuel, rfl⟩ : ∃ k, fuel = k + 1 := ⟨fuel - 1, by omega⟩
  have avail : 6 - used = 6 - (used + 1) + 1 := by omega
  by_cases lastBit : n + 1 = w
  · refine ⟨fuel, h.extend room (Bool.toNat_lt _) (fun e' he' => ?_) fun y f' _ hd => ?_⟩
    · rw [Framer.nextBit, if_pos lastBit] at he' ⊢
      cases entry.symm.trans he'
      simp only [Framer.complete]
      omega
    · rw [avail, Nat.pow_one, distributeLoop_filled_lastBit active fixed lastBit]
      rwa [Framer.nextBit, if_pos lastBit] at hd
  · refine ⟨fuel + 1, h.extend room (Bool.toNat_lt _) (fun e' he' => ?_) fun y f' _ hd => ?_⟩
    · rw [Framer.nextBit, if_neg lastBit] at he' ⊢
      exact h.enough e' he'
    · rw [avail, Nat.pow_one, distributeLoop_filled_bit active fixed (by omega)]
      rwa [Framer.nextBit, if_neg lastBit] at hd

/-- A whole payload goes to the end-of-byte test with the marker that is ORed in. -/
theorem LastByte.closed (h : LastByte cat g f last 6 fuel) {m : Byte} (noPayload : mdo m = 0#6)
    (valid : marker m ≠ .invalid) : frameByte cat g (last ||| m) = endOfByte cat (marker m) f := by
  have same : marker (last ||| m) = marker m := marker_congr (by rw [mseo_or, h.noMarker, BitVec.zero_or])
  rw [← same]
  refine h.reads _ f (same ▸ valid) ?_ (distributeLoop_noBits ..)
  rw [mdo_or, noPayload, BitVec.or_zero, Nat.mod_eq_of_lt (mdo last).isLt]

/-! ### The bytes packed so far -/

/-- The framer takes these bytes, the last one first in the list, and is then in `f`. -/
def Fed (cat : Catalog) (out : List Byte) (f : Framer) : Prop :=
  ∀ bytes, decode cat (out.reverse ++ bytes) = decodeFrom cat f bytes

/-- With the end marker in the last of these bytes, the decoder reads the message that `f` holds. -/
def Ends (cat : Catalog) (out : List Byte) (f : Framer) : Prop :=
  ∀ rest, decode cat ((orLast 3#8 out).reverse ++ rest) = .instr f.instr rest

/-- The bytes packed so far, with `used` payload bits of the last one taken, bring the framer to `f`. -/
def Reached (cat : Catalog) (out : List Byte) (used : Nat) (f : Framer) : Prop :=
  ∃ g last before fuel, out = last :: before ∧ Fed cat before g ∧ LastByte cat g f last used fuel

theorem Fed.fresh {out : List Byte} (h : Fed cat out f) (framing : f.fstate = .framing)
    (active : f.active cat = some spec) : Reached cat (0#8 :: out) 0 f := by
  obtain ⟨fuel, byte⟩ := LastByte.fresh framing active
  exact ⟨f, 0#8, out, fuel, rfl, h, byte⟩

theorem Reached.take_variable {out : List Byte} (h : Reached cat out used (f.filled v n)) (room : used < 6)
    (active : f.active cat = some spec) (notFixed : spec.kind.isFixed = false) (fits : v < 2 ^ accWidth) :
    Reached cat (orLast (BitVec.ofNat 8 (v / 2 ^ n % 2 ^ (6 - used)) <<< (2 + used)) out) 6
      (f.filled v (n + (6 - used))) := by
  obtain ⟨g, last, before, fuel, rfl, fed, byte⟩ := h
  exact ⟨g, _, before, fuel, rfl, fed, byte.take_variable room active notFixed fits⟩

theorem Reached.take_bit {out : List Byte} (h : Reached cat out used (f.filled v n)) (room : used < 6)
    (active : f.active cat = some spec) (fixed : spec.kind = .fixed w) (inField : n < w) :
    Reached cat (orLast (BitVec.ofNat 8 (v.testBit n).toNat <<< (2 + used)) out) (used + 1)
      (f.nextBit spec.name w v n) := by
  obtain ⟨g, last, before, fuel, rfl, fed, byte⟩ := h
  obtain ⟨fuel', byte'⟩ := byte.take_bit room active fixed inField
  exact ⟨g, _, before, fuel', rfl, fed, byte'⟩

/-- A marker goes into a full byte. -/
theorem Reached.closed {out : List Byte} (h : Reached cat out 6 f) {m : Byte} (noPayload : mdo m = 0#6)
    (valid : marker m ≠ .invalid) :
    ∃ g b, frameByte cat g b = endOfByte cat (marker m) f ∧
      ∀ bytes, decode cat ((orLast m out).reverse ++ bytes) = decodeFrom cat g (b :: bytes) := by
  obtain ⟨g, last, before, fuel, rfl, fed, byte⟩ := h
  refine ⟨g, last ||| m, byte.closed noPayload valid, fun bytes => ?_⟩
  rw [orLast, List.reverse_cons, List.append_assoc]
  exact fed _

theorem Reached.fed_of_more {out : List Byte} (h : Reached cat out 6 f) {m : Byte} (noPayload : mdo m = 0#6)
    (valid : marker m ≠ .invalid) {f' : Framer} (goesOn : endOfByte cat (marker m) f = .more f') :
    Fed cat (orLast m out) f' := by
  obtain ⟨g, b, frame, decoded⟩ := h.closed noPayload valid
  intro bytes
  rw [decoded, decodeFrom, frame, goesOn]

theorem Reached.fed {out : List Byte} (h : Reached cat out 6 f) : Fed cat out f := by
  have same : orLast 0#8 out = out := by
    obtain ⟨g, last, before, fuel, rfl, -, -⟩ := h
    simp [orLast]
  exact same ▸ h.fed_of_more (m := 0#8) rfl (by decide) rfl

/-- The end marker in a full byte, with a variable field active and no fixed one to come. -/
theorem Reached.ends {out : List Byte} (h : Reached cat out 6 f) (active : f.active cat = some spec)
    (notFixed : ∀ later ∈ (f.layout cat).drop f.fidx, later.kind.isFixed = false) :
    Ends cat out (f.storeLast spec.name) := by
  obtain ⟨inLayout, here⟩ := List.getElem?_eq_some_iff.mp active
  rw [List.drop_eq_getElem_cons inLayout, here] at notFixed
  obtain ⟨hereNotFixed, laterNotFixed⟩ := List.forall_mem_cons.mp notFixed
  obtain ⟨g, b, frame, decoded⟩ := h.closed (m := 3#8) rfl (by decide)
  have completes : frameByte cat g b = .message (f.storeLast spec.name) :=
    frame.trans (endMessage_of_variable active hereNotFixed laterNotFixed)
  intro rest
  rw [decoded, decodeFrom, completes]

/-! ### Between fields -/

/-- The bytes packed so far end at a group boundary, with the framer at the start of a field: another byte may follow if
there is a next field, and the message may end if no fixed field is to come. -/
structure Boundary (cat : Catalog) (out : List Byte) (f : Framer) : Prop where
  fed : ∀ spec, f.active cat = some spec → Fed cat out f
  ends : (∀ later ∈ (f.layout cat).drop f.fidx, later.kind.isFixed = false) → Ends cat out f

/-- A full byte, with a fixed field active or a variable one that has no bit. -/
theorem Reached.boundary {out : List Byte} (h : Reached cat out 6 f) (active : f.active cat = some spec)
    (noBits : spec.kind.isFixed = false → f.accBits = 0) : Boundary cat out f where
  fed _ _ := h.fed
  ends notFixed := by
    have hereNotFixed : spec.kind.isFixed = false := by
      refine notFixed spec (List.mem_of_getElem? (i := 0) ?_)
      rw [List.getElem?_drop, Nat.add_zero]
      exact active
    have stored : f.storeLast spec.name = f := by simp [Framer.storeLast, noBits hereNotFixed]
    exact stored ▸ h.ends active notFixed

theorem orLast_orLast (x y : Byte) (out : List Byte) : orLast x (orLast y out) = orLast (y ||| x) out := by
  cases out with
  | nil => rfl
  | cons b rest => simp [orLast, BitVec.or_assoc]

/-- The byte that ends a variable field. -/
theorem Reached.boundary_of_variable {out : List Byte} (h : Reached cat out 6 f) (active : f.active cat = some spec)
    (notFixed : spec.kind.isFixed = false) (received : 0 < f.accBits)
    (sameLayout : (f.complete spec.name f.acc).layout cat = f.layout cat) :
    Boundary cat (orLast 1#8 out) (f.complete spec.name f.acc) where
  fed next hnext := by
    have notLast : f.fidx + 1 ≠ (f.layout cat).length := by
      rw [Framer.active, sameLayout] at hnext
      exact (List.getElem?_eq_some_iff.mp hnext).1.ne
    exact h.fed_of_more rfl (by decide) (endField_of_variable active notFixed received notLast)
  ends laterNotFixed := by
    rw [sameLayout] at laterNotFixed
    obtain ⟨inLayout, here⟩ := List.getElem?_eq_some_iff.mp active
    have ended := h.ends active (by
      rw [List.drop_eq_getElem_cons inLayout, here]
      exact List.forall_mem_cons.mpr ⟨notFixed, laterNotFixed⟩)
    have sameInstr : (f.storeLast spec.name).instr = (f.complete spec.name f.acc).instr := by
      simp [Framer.storeLast, received, Framer.instr, Framer.complete]
    intro rest
    rw [orLast_orLast, ← sameInstr]
    exact ended rest

/-- The packer's registers, with the framer at the same place: at a group boundary, or inside a byte. -/
inductive Standing (cat : Catalog) (p : Packer) (f : Framer) : Prop where
  | boundary (full : p.used = 0) (h : Boundary cat p.out f)
  | inside (taken : 0 < p.used) (room : p.used < 6) (h : Reached cat p.out p.used f)

/-- The bytes packed so far and, at a group boundary, one more that is begun. -/
def Packer.opened (p : Packer) : List Byte := if p.used = 0 then 0#8 :: p.out else p.out

theorem Standing.opened {p : Packer} (h : Standing cat p f) (framing : f.fstate = .framing)
    (active : f.active cat = some spec) : p.used < 6 ∧ Reached cat p.opened p.used f := by
  cases h with
  | boundary full h =>
    rw [Packer.opened, if_pos full, full]
    exact ⟨by decide, (h.fed spec active).fresh framing active⟩
  | inside taken room h =>
    rw [Packer.opened, if_neg taken.ne']
    exact ⟨room, h⟩

/-! ### Packing a fixed field -/

theorem packBit_eq (bit : Bool) (p : Packer) :
    packBit bit p =
      { out := orLast (BitVec.ofNat 8 bit.toNat <<< (2 + p.used)) p.opened, used := (p.used + 1) % 6 } := by
  cases bit <;> rfl

theorem Standing.packBit {p : Packer} (h : Standing cat p (f.filled v n)) (framing : f.fstate = .framing)
    (active : f.active cat = some spec) (fixed : spec.kind = .fixed w) (inField : n < w)
    (next : ∃ spec', (f.complete spec.name (BitVec.ofNat 64 (v % 2 ^ w))).active cat = some spec') :
    Standing cat (packBit (v.testBit n) p) (f.nextBit spec.name w v n) := by
  obtain ⟨room, opened⟩ := h.opened framing (Framer.filled_active.trans active)
  have reached := opened.take_bit room active fixed inField
  rw [packBit_eq]
  by_cases full : p.used + 1 = 6
  · rw [full] at reached ⊢
    refine .boundary rfl ?_
    by_cases lastBit : n + 1 = w
    · obtain ⟨spec', hspec'⟩ := next
      rw [Framer.nextBit, if_pos lastBit] at reached ⊢
      exact reached.boundary hspec' fun _ => rfl
    · rw [Framer.nextBit, if_neg lastBit] at reached ⊢
      exact reached.boundary (Framer.filled_active.trans active) (by simp [fixed, FieldKind.isFixed])
  · rw [Nat.mod_eq_of_lt (by omega : p.used + 1 < 6)]
    exact .inside (Nat.succ_pos _) (by show p.used + 1 < 6; omega) reached

/-- The rest of a fixed field, bit by bit. -/
theorem Standing.packFixed {p : Packer} {count : Nat} (h : Standing cat p (f.filled v n)) (framing : f.fstate = .framing)
    (active : f.active cat = some spec) (fixed : spec.kind = .fixed w) (rest : n + (count + 1) = w)
    (next : ∃ spec', (f.complete spec.name (BitVec.ofNat 64 (v % 2 ^ w))).active cat = some spec') :
    Standing cat (packFixed v n (count + 1) p) (f.complete spec.name (BitVec.ofNat 64 (v % 2 ^ w))) := by
  induction count generalizing n p with
  | zero =>
    have stepped := h.packBit framing active fixed (by omega) next
    rw [Framer.nextBit, if_pos rest] at stepped
    exact stepped
  | succ count ih =>
    have stepped := h.packBit framing active fixed (by omega) next
    rw [Framer.nextBit, if_neg (by omega)] at stepped
    exact ih stepped (by omega)

/-! ### Packing a variable field -/

theorem groupByte_eq (v : Nat) (out : List Byte) :
    groupByte v :: out = orLast (BitVec.ofNat 8 (v % 2 ^ 6) <<< 2) (0#8 :: out) := by
  have same : groupByte v = 0#8 ||| BitVec.ofNat 8 (v % 2 ^ 6) <<< 2 := by
    refine BitVec.eq_of_toNat_eq ?_
    rw [groupByte, wireByte, BitVec.toNat_append, BitVec.zero_or]
    simp only [BitVec.toNat_ofNat, BitVec.toNat_shiftLeft, Nat.shiftLeft_eq, Nat.zero_mod, Nat.or_zero]
    omega
  rw [same]
  rfl

theorem packVar_eq (v : Nat) (p : Packer) :
    packVar v p =
      { out := orLast 1#8 (packGroups (v.log2 + 1) (v / 2 ^ (6 - p.used))
          (orLast (BitVec.ofNat 8 (v % 2 ^ (6 - p.used)) <<< (2 + p.used)) p.opened)), used := 0 } := by
  by_cases full : p.used = 0
  · simp [packVar, full, Packer.opened, groupByte_eq]
  · simp [packVar, full, Packer.opened, mdoBits]

/-- The further groups of a variable field, until no bit of its value is left. -/
theorem Reached.packGroups {out : List Byte} (h : Reached cat out 6 (f.filled v n)) (framing : f.fstate = .framing)
    (active : f.active cat = some spec) (notFixed : spec.kind.isFixed = false) (fits : v < 2 ^ accWidth)
    (enough : v / 2 ^ n < 2 ^ fuel) :
    ∃ m, n ≤ m ∧ v < 2 ^ m ∧ Reached cat (packGroups fuel (v / 2 ^ n) out) 6 (f.filled v m) := by
  induction fuel generalizing n out with
  | zero => exact ⟨n, le_rfl, Nat.lt_of_div_eq_zero (Nat.two_pow_pos n) (Nat.lt_one_iff.mp enough), h⟩
  | succ fuel ih =>
    unfold Sys2Proof.packGroups
    split
    next none => exact ⟨n, le_rfl, Nat.lt_of_div_eq_zero (Nat.two_pow_pos n) none, h⟩
    · have begun := h.fed.fresh (f := f.filled v n) framing (Framer.filled_active.trans active)
      have group := begun.take_variable (by decide) active notFixed fits
      have shift : v / 2 ^ n / 64 = v / 2 ^ (n + 6) := by rw [Nat.div_div_eq_div_mul, Nat.pow_add]
      have enough' : v / 2 ^ (n + 6) < 2 ^ fuel := by
        rw [Nat.pow_succ] at enough
        omega
      rw [groupByte_eq, shift]
      obtain ⟨m, hm, last, reached⟩ := ih group enough'
      exact ⟨m, by omega, last, reached⟩

/-- A variable field from its first bit to the marker that ends it. -/
theorem Standing.packVar {p : Packer} (h : Standing cat p (f.filled v 0)) (framing : f.fstate = .framing)
    (active : f.active cat = some spec) (notFixed : spec.kind.isFixed = false) (fits : v < 2 ^ accWidth)
    (sameLayout : (f.complete spec.name (BitVec.ofNat 64 v)).layout cat = f.layout cat) :
    Standing cat (packVar v p) (f.complete spec.name (BitVec.ofNat 64 v)) := by
  obtain ⟨room, opened⟩ := h.opened framing (Framer.filled_active.trans active)
  have first := opened.take_variable room active notFixed fits
  rw [Nat.pow_zero, Nat.div_one, Nat.zero_add] at first
  have enough : v / 2 ^ (6 - p.used) < 2 ^ (v.log2 + 1) := (Nat.div_le_self ..).trans_lt Nat.lt_log2_self
  obtain ⟨m, hm, whole, reached⟩ := first.packGroups framing active notFixed fits enough
  have acc : (f.filled v m).acc = BitVec.ofNat 64 v := by rw [Framer.filled, Nat.mod_eq_of_lt whole]
  have ended := reached.boundary_of_variable (Framer.filled_active.trans active) notFixed
    (by show 0 < m; omega) (by rw [acc]; exact sameLayout)
  rw [packVar_eq]
  rw [acc] at ended
  exact .boundary rfl ended

end

end Sys2Proof
end

section
/-! PROOF. Decoding what was packed (40_framer_ops.md R102, R103, R105): the packer walks through the layout field by field
with the framer at its side, until the first field left out; the framer then holds the message's field map. -/

namespace Sys2Proof

/-! ### The framer between fields -/

/-- The registers once the fields `done` of a message with the field map `vals` were received, and no other. -/
structure Holds (cat : Catalog) (e : CatalogEntry) (vals : Fields) (done : List FieldSpec) (f : Framer) : Prop where
  entry : cat.byKind f.kind = some e
  legal : e.legal = true
  framing : f.fstate = .framing
  index : f.fidx = done.length
  acc : f.acc = 0
  accBits : f.accBits = 0
  same : ∀ spec ∈ done, Fields.get f.fields spec.name = Fields.get vals spec.name
  only : ∀ name, name ∉ FieldName.TCODE :: done.map FieldSpec.name → Fields.get f.fields name = none

section
variable {cat : Catalog} {e : CatalogEntry} {vals : Fields} {done todo rest : List FieldSpec} {f : Framer}
  {spec : FieldSpec} {p : Packer}

theorem Holds.filled_zero (h : Holds cat e vals done f) (v : Nat) : f.filled v 0 = f := by
  have acc := h.acc
  have accBits := h.accBits
  cases f
  simp_all [Framer.filled, Nat.mod_one]

/-- The layout the framer knows is the message's, or its base while the sub-code is to come. -/
theorem Holds.layout_cases (h : Holds cat e vals done f) :
    e.layout f.fields = e.layout vals ∨ (e.layout f.fields = e.base ∧ ∃ code ∈ e.base, code ∉ done) := by
  by_cases settled : ∀ sub, e.sub = some sub → Fields.get f.fields sub.field = Fields.get vals sub.field
  · exact .inl (e.layout_congr settled)
  · simp only [not_forall] at settled
    obtain ⟨sub, hs, differs⟩ := settled
    obtain ⟨code, inBase, -, name⟩ := CatalogEntry.subcode_fixed h.legal hs
    have notDone : ∀ spec ∈ done, spec.name ≠ sub.field := fun spec mem same =>
      differs (same ▸ h.same spec mem)
    have notTcode : FieldName.TCODE ≠ sub.field := by
      obtain ⟨notMem, -⟩ := List.nodup_cons.mp (CatalogEntry.layout_nodup h.legal vals)
      have mem := (e.layout_prefix vals).1.subset inBase
      exact fun same => notMem (same.trans name.symm ▸ List.mem_map_of_mem mem)
    have absent : Fields.get f.fields sub.field = none := by
      refine h.only _ ?_
      simp only [List.mem_cons, List.mem_map, not_or, not_exists, not_and]
      exact ⟨notTcode.symm, notDone⟩
    refine .inr ⟨?_, code, inBase, fun mem => notDone code mem name⟩
    simp [CatalogEntry.layout, hs, absent]

theorem Holds.layout_isPrefix (h : Holds cat e vals done f) : e.layout f.fields <+: e.layout vals := by
  rcases h.layout_cases with same | ⟨base, -⟩
  · rw [same]
  · rw [base]
    exact (e.layout_prefix vals).1

/-- The first field to come is active. -/
theorem Holds.active (h : Holds cat e vals done f) (split : e.layout vals = done ++ spec :: rest) :
    f.active cat = some spec := by
  have known : done.length < (e.layout f.fields).length := by
    rcases h.layout_cases with same | ⟨base, code, inBase, notDone⟩
    · simp [same, split]
    · rw [base]
      by_contra short
      have inDone : e.base <+: done := List.prefix_of_prefix_length_le (e.layout_prefix vals).1
        (split ▸ List.prefix_append ..) (Nat.le_of_not_lt short)
      exact notDone (inDone.subset inBase)
  have here := getElem?_of_isPrefix h.layout_isPrefix (List.getElem?_eq_getElem known)
  rw [active_eq_of_entry h.entry, h.index, List.getElem?_eq_getElem known, ← here, split]
  simp

/-- The fields the framer still expects are fields to come. -/
theorem Holds.mem_todo {later : FieldSpec} (h : Holds cat e vals done f) (split : e.layout vals = done ++ todo)
    (mem : later ∈ (f.layout cat).drop f.fidx) : later ∈ todo := by
  rw [layout_eq_of_entry h.entry, h.index] at mem
  have inVals := (h.layout_isPrefix.drop done.length).subset mem
  simpa [split] using inVals

/-- The active field's value is received. -/
theorem Holds.complete {x : BitVec 64} (h : Holds cat e vals done f)
    (value : Fields.get vals spec.name = some x.toNat) :
    Holds cat e vals (done ++ [spec]) (f.complete spec.name x) where
  entry := h.entry
  legal := h.legal
  framing := h.framing
  index := by simp [Framer.complete, h.index]
  acc := rfl
  accBits := rfl
  same other mem := by
    simp only [Framer.complete, Fields.get_set]
    split
    next same => rw [← same, value]
    next differs =>
      rcases List.mem_append.mp mem with before | here
      · exact h.same other before
      · exact absurd (congrArg FieldSpec.name (List.mem_singleton.mp here)).symm differs
  only name notMem := by
    simp only [List.map_append, List.mem_cons, List.mem_append, List.map_cons, List.map_nil, not_or] at notMem
    obtain ⟨notTcode, notDone, notHere, -⟩ := notMem
    simp only [Framer.complete, Fields.get_set, if_neg (Ne.symm notHere)]
    exact h.only name (by simp only [List.mem_cons, not_or]; exact ⟨notTcode, notDone⟩)

theorem Holds.complete_layout (h : Holds cat e vals done f) (split : e.layout vals = done ++ spec :: rest)
    (notFixed : spec.kind.isFixed = false) (x : BitVec 64) :
    (f.complete spec.name x).layout cat = f.layout cat := by
  have active := h.active split
  rw [active_eq_of_entry h.entry] at active
  have same := CatalogEntry.layout_set_notFixed h.legal (List.mem_of_getElem? active) notFixed x.toNat
  simpa [Framer.layout, Framer.complete, h.entry] using same

/-- A fixed field of a message is not its last. -/
theorem CatalogEntry.fixed_not_last {v : Nat} (legal : e.legal = true) (split : e.layout vals = done ++ spec :: rest)
    (fixed : spec.kind.isFixed = true) (value : Fields.get vals spec.name = some v) : rest ≠ [] := by
  rintro rfl
  obtain ⟨last, hlast, pending⟩ := CatalogEntry.layout_getLast legal vals
  rw [split, List.getLast?_concat] at hlast
  cases hlast
  obtain ⟨sub, -, name, absent⟩ := pending fixed
  rw [← name, value] at absent
  cases absent

/-! ### The packer's walk through the layout -/

theorem packFixed_used (v n count : Nat) (room : p.used < 6) :
    (packFixed v n count p).used = (p.used + count) % 6 := by
  induction count generalizing n p with
  | zero => exact (Nat.mod_eq_of_lt room).symm
  | succ count ih =>
    rw [packFixed, ih (p := packBit (v.testBit n) p) _ (Nat.mod_lt _ (by decide)), packBit_eq]
    simp only
    omega

theorem Standing.room (h : Standing cat p f) : p.used < 6 := by
  cases h with
  | boundary full => rw [full]; decide
  | inside _ room => exact room

/-- The message may end at a group boundary before fields none of which is fixed. -/
theorem Standing.ends (st : Standing cat p f) (h : Holds cat e vals done f) (split : e.layout vals = done ++ todo)
    (full : p.used = 0) (notFixed : ∀ later ∈ todo, later.kind.isFixed = false) : Ends cat p.out f := by
  cases st with
  | boundary _ boundary => exact boundary.ends fun later mem => notFixed later (h.mem_todo split mem)
  | inside taken => exact absurd full taken.ne'

/-- A fixed field has a bit, and fits the accumulator. -/
def FieldKind.usable : FieldKind → Bool
  | .fixed w => decide (0 < w) && decide (w ≤ accWidth)
  | _ => true

theorem Standing.packField_fixed {w v : Nat} (st : Standing cat p f) (h : Holds cat e vals done f)
    (split : e.layout vals = done ++ spec :: rest) (fixed : spec.kind = .fixed w) (usable : spec.kind.usable = true)
    (value : Fields.get vals spec.name = some v) (fits : v < 2 ^ w) :
    Holds cat e vals (done ++ [spec]) (f.complete spec.name (BitVec.ofNat 64 v)) ∧
      Standing cat (packField spec v p) (f.complete spec.name (BitVec.ofNat 64 v)) := by
  simp only [fixed, FieldKind.usable, Bool.and_eq_true, decide_eq_true_eq] at usable
  obtain ⟨pos, narrow⟩ := usable
  have exact64 : (BitVec.ofNat 64 v).toNat = v :=
    Nat.mod_eq_of_lt (fits.trans_le (Nat.pow_le_pow_right Nat.two_pos narrow))
  have completed := h.complete (x := BitVec.ofNat 64 v) (by rw [exact64, value])
  refine ⟨completed, ?_⟩
  obtain ⟨next, rest, rfl⟩ := List.exists_cons_of_ne_nil
    (CatalogEntry.fixed_not_last h.legal split (by rw [fixed]; rfl) value)
  have hnext := completed.active (split.trans (List.append_cons ..))
  obtain ⟨count, rfl⟩ : ∃ k, w = k + 1 := ⟨w - 1, by omega⟩
  rw [← h.filled_zero v] at st
  have packed := st.packFixed h.framing (h.active split) fixed (Nat.zero_add _)
  rw [Nat.mod_eq_of_lt fits] at packed
  simpa only [packField, fixed] using packed ⟨next, hnext⟩

theorem packField_eq_packVar (notFixed : spec.kind.isFixed = false) (v : Nat) (p : Packer) :
    packField spec v p = packVar v p := by
  unfold packField
  split
  next fixed => simp [fixed, FieldKind.isFixed] at notFixed
  · rfl
  · rfl

theorem Standing.packField_variable {v : Nat} (st : Standing cat p f) (h : Holds cat e vals done f)
    (split : e.layout vals = done ++ spec :: rest) (notFixed : spec.kind.isFixed = false)
    (value : Fields.get vals spec.name = some v) (fits : v < 2 ^ accWidth) :
    Holds cat e vals (done ++ [spec]) (f.complete spec.name (BitVec.ofNat 64 v)) ∧
      Standing cat (packField spec v p) (f.complete spec.name (BitVec.ofNat 64 v)) := by
  have exact64 : (BitVec.ofNat 64 v).toNat = v := Nat.mod_eq_of_lt fits
  refine ⟨h.complete (by rw [exact64, value]), ?_⟩
  rw [← h.filled_zero v] at st
  rw [packField_eq_packVar notFixed]
  exact st.packVar h.framing (h.active split) notFixed fits (h.complete_layout split notFixed _)

/-- From any place in the layout the packer comes to the end of the message: the framer has then received the fields
before the first one left out. -/
theorem Standing.packFields (st : Standing cat p f) (h : Holds cat e vals done f) (split : e.layout vals = done ++ todo)
    (fits : operandsFit todo p.used vals = true) (usable : ∀ spec ∈ todo, spec.kind.usable = true)
    (atEnd : todo = [] → p.used = 0) :
    ∃ f' sent left, e.layout vals = sent ++ left ∧ Holds cat e vals sent f' ∧
      (∀ spec ∈ left, Fields.get vals spec.name = none) ∧ Ends cat (packFields todo vals p).out f' := by
  induction todo generalizing p done f with
  | nil => exact ⟨f, done, [], split, h, nofun, st.ends h split (atEnd rfl) nofun⟩
  | cons spec rest ih =>
    obtain ⟨usableHere, usableRest⟩ := List.forall_mem_cons.mp usable
    have split' : e.layout vals = (done ++ [spec]) ++ rest := split.trans (List.append_cons ..)
    rcases operandsFit_cons.mp fits with ⟨w, v, fixed, value, bound, fitsRest⟩ | ⟨v, notFixed, value, bound, fitsRest⟩ |
      ⟨notFixed, absent, full, later⟩
    · obtain ⟨h', st'⟩ := st.packField_fixed h split fixed usableHere value bound
      have used : (packField spec v p).used = (p.used + w) % 6 := by
        simp only [packField, fixed, packFixed_used v 0 w st.room]
      have notLast := CatalogEntry.fixed_not_last h.legal split (by rw [fixed]; rfl) value
      simp only [Sys2Proof.packFields, value]
      exact ih st' h' split' (used ▸ fitsRest) usableRest fun none => absurd none notLast
    · obtain ⟨h', st'⟩ := st.packField_variable h split notFixed value bound
      have used : (packField spec v p).used = 0 := by rw [packField_eq_packVar notFixed]; rfl
      simp only [Sys2Proof.packFields, value]
      exact ih st' h' split' (used ▸ fitsRest) usableRest fun _ => used
    · simp only [Sys2Proof.packFields, absent]
      refine ⟨f, done, spec :: rest, split, h, List.forall_mem_cons.mpr ⟨absent, fun s mem => (later s mem).2⟩, ?_⟩
      exact st.ends h split full (List.forall_mem_cons.mpr ⟨notFixed, fun s mem => (later s mem).1⟩)

/-! ### A packed message -/

theorem Catalog.byTcode_of_mem (legal : cat.legal = true) (mem : e ∈ cat) :
    cat.byTcode e.tcode = some e ∧ e.tcode < 64 := by
  simp only [Catalog.legal, Bool.and_eq_true, List.all_eq_true, decide_eq_true_eq] at legal
  obtain ⟨⟨distinct, -⟩, entries⟩ := legal
  have entryLegal := entries e mem
  simp only [CatalogEntry.legal, Bool.and_eq_true, decide_eq_true_eq] at entryLegal
  obtain ⟨⟨small, -⟩, -⟩ := entryLegal
  refine ⟨?_, small⟩
  obtain ⟨e', found⟩ : ∃ e', cat.byTcode e.tcode = some e' :=
    Option.isSome_iff_exists.mp (List.find?_isSome.mpr ⟨e, mem, beq_self_eq_true _⟩)
  have sameTcode : e'.tcode = e.tcode := by simpa using List.find?_some found
  rw [found, List.inj_on_of_nodup_map distinct (List.mem_of_find?_eq_some found) mem sameTcode]

theorem Catalog.kind_of_byKind {k : Kind} (found : cat.byKind k = some e) : e.kind = k := by
  simpa using List.find?_some found

/-- The packer and the framer after the TCODE byte. -/
theorem standing_start (legal : cat.legal = true) (found : cat.byKind e.kind = some e) (vals : Fields) :
    Holds cat e vals [] (Framer.start e (BitVec.ofNat 6 e.tcode)) ∧
      Standing cat { out := [wireByte (BitVec.ofNat 6 e.tcode) 0#2], used := 0 }
        (Framer.start e (BitVec.ofNat 6 e.tcode)) := by
  have entryLegal := Catalog.legal_of_byKind legal found
  obtain ⟨byTcode, small⟩ := Catalog.byTcode_of_mem legal (List.mem_of_find?_eq_some found)
  have holds : Holds cat e vals [] (Framer.start e (BitVec.ofNat 6 e.tcode)) := by
    refine ⟨found, entryLegal, rfl, rfl, rfl, rfl, nofun, fun name notMem => ?_⟩
    have notTcode : FieldName.TCODE ≠ name := by simpa [eq_comm] using notMem
    simp [Framer.start, notTcode, Fields.get]
  obtain ⟨last, hlast, -⟩ := CatalogEntry.layout_getLast entryLegal vals
  obtain ⟨first, rest, split⟩ := List.exists_cons_of_ne_nil (List.ne_nil_of_mem (List.mem_of_getLast? hlast))
  have tcode : (BitVec.ofNat 6 e.tcode).toNat = e.tcode := Nat.mod_eq_of_lt small
  obtain ⟨fuel, byte⟩ := LastByte.tcode (p := BitVec.ofNat 6 e.tcode) (tcode.symm ▸ byTcode)
  have reached : Reached cat [wireByte (BitVec.ofNat 6 e.tcode) 0#2] 6 (Framer.start e (BitVec.ofNat 6 e.tcode)) :=
    ⟨Framer.reset, _, [], fuel, rfl, fun _ => rfl, byte⟩
  exact ⟨holds, .boundary rfl (reached.boundary (holds.active split) fun _ => rfl)⟩

/-- Unpack of pack, for every legal catalog with usable fixed fields: the message read has the kind and the field map
packed. -/
theorem decode_packMessage (legal : cat.legal = true) (found : cat.byKind e.kind = some e)
    (usable : ∀ spec ∈ e.layout vals, spec.kind.usable = true) (fits : operandsFit (e.layout vals) 0 vals = true) :
    ∃ f : Framer, f.kind = e.kind ∧
      (∀ spec ∈ e.layout vals, Fields.get f.fields spec.name = Fields.get vals spec.name) ∧
      (∀ name, name ∉ FieldName.TCODE :: (e.layout vals).map FieldSpec.name → Fields.get f.fields name = none) ∧
      ∀ rest, decode cat (packMessage e vals ++ rest) = .instr f.instr rest := by
  obtain ⟨holds, standing⟩ := standing_start legal found vals
  obtain ⟨f, sent, left, split, received, leftOut, ends⟩ := standing.packFields holds rfl fits usable fun _ => rfl
  have distinct := CatalogEntry.layout_nodup received.legal vals
  rw [split, List.map_append, ← List.cons_append] at distinct
  have apart := List.disjoint_of_nodup_append distinct
  refine ⟨f, (Catalog.kind_of_byKind received.entry).symm, ?_, ?_, ends⟩
  · rw [split]
    refine List.forall_mem_append.mpr ⟨received.same, fun spec mem => ?_⟩
    rw [leftOut spec mem]
    exact received.only _ fun before => apart before (List.mem_map_of_mem mem)
  · intro name notMem
    refine received.only name fun mem => notMem ?_
    rw [split, List.map_append, ← List.cons_append]
    exact List.mem_append_left _ mem

end

/-! ### Instructions of the default catalog -/

/-- Every message whose sub-code is its row's is the message its kind and field map stand for. -/
theorem ofFields_fields : ∀ i, Laws.FieldMap.Statement i
  | .ownership process tstamp => Laws.FieldMap.ownership process tstamp
  | .directBranch icnt tstamp => Laws.FieldMap.directBranch icnt tstamp
  | .indirectBranch btype icnt uaddr tstamp => Laws.FieldMap.indirectBranch btype icnt uaddr tstamp
  | .error etype pad tstamp => Laws.FieldMap.error etype pad tstamp
  | .progTraceSync sync icnt faddr tstamp => Laws.FieldMap.progTraceSync sync icnt faddr tstamp
  | .directBranchSync sync icnt faddr tstamp => Laws.FieldMap.directBranchSync sync icnt faddr tstamp
  | .indirectBranchSync sync btype icnt faddr tstamp => Laws.FieldMap.indirectBranchSync sync btype icnt faddr tstamp
  | .resourceFull0 rdata tstamp => Laws.FieldMap.resourceFull0 rdata tstamp
  | .resourceFull1 rdata tstamp => Laws.FieldMap.resourceFull1 rdata tstamp
  | .resourceFull2 rdata hrepeat tstamp => Laws.FieldMap.resourceFull2 rdata hrepeat tstamp
  | .resourceFullReserved rcode rdata tstamp => Laws.FieldMap.resourceFullReserved rcode rdata tstamp
  | .indirectBranchHist btype icnt uaddr hist tstamp => Laws.FieldMap.indirectBranchHist btype icnt uaddr hist tstamp
  | .indirectBranchHistSync sync btype icnt faddr hist tstamp => Laws.FieldMap.indirectBranchHistSync sync btype icnt faddr hist tstamp
  | .repeatBranch bcnt tstamp => Laws.FieldMap.repeatBranch bcnt tstamp
  | .progTraceCorrelation0 evcode icnt tstamp => Laws.FieldMap.progTraceCorrelation0 evcode icnt tstamp
  | .progTraceCorrelation1 evcode icnt hist tstamp => Laws.FieldMap.progTraceCorrelation1 evcode icnt hist tstamp
  | .progTraceCorrelationReserved evcode cdf icnt tstamp => Laws.FieldMap.progTraceCorrelationReserved evcode cdf icnt tstamp
  | .idle payload => Laws.FieldMap.idle payload

/-- A message is read from the values of the fields after TCODE. -/
theorem ofFields_congr {fs gs : Fields} (same : ∀ name, name ≠ .TCODE → Fields.get fs name = Fields.get gs name)
    (k : Kind) : Instr.ofFields k fs = Instr.ofFields k gs := by
  cases k <;> simp [Instr.ofFields, Fields.fixed, same]

/-- A message has no field but those of its layout. -/
theorem fields_get_eq_none {i : Instr} {k : Kind} {e : CatalogEntry} (kind : i.kind = some k)
    (found : defaultCatalog.byKind k = some e) {name : FieldName}
    (notMem : name ∉ (e.layout i.fields).map FieldSpec.name) : Fields.get i.fields name = none := by
  cases i with
  | idle => cases kind
  | resourceFullReserved code =>
    cases kind
    cases found
    by_cases own : 2 = code <;>
      simp_all [Instr.fields, CatalogEntry.layout, SubLayout.select, fixedField, varField, eq_comm (a := name)]
  | progTraceCorrelationReserved _ code =>
    cases kind
    cases found
    by_cases own : 1 = code <;>
      simp_all [Instr.fields, CatalogEntry.layout, SubLayout.select, fixedField, varField, eq_comm (a := name)]
  | _ =>
    cases kind
    cases found
    simp_all [Instr.fields, CatalogEntry.layout, SubLayout.select, fixedField, varField, addrField,
      eq_comm (a := name)]

/-- A well-formed message: its kind is in the catalog and its operands fit the kind's layout. -/
theorem Instr.wellFormed_message {cat : Catalog} {i : Instr} {k : Kind} (kind : i.kind = some k)
    (wf : i.wellFormed cat = true) :
    i.subcodeOk = true ∧ ∃ e, cat.byKind k = some e ∧ operandsFit (e.layout i.fields) 0 i.fields = true := by
  cases i with
  | idle => cases kind
  | _ => cases found : cat.byKind k <;> simp_all [Instr.wellFormed]

theorem encode_message {cat : Catalog} {i : Instr} {k : Kind} {e : CatalogEntry} (kind : i.kind = some k)
    (found : cat.byKind k = some e) : encode cat i = packMessage e i.fields := by
  cases i with
  | idle => cases kind
  | _ => simp [encode, kind, found]

theorem defaultCatalog_legal : defaultCatalog.legal = true := by decide

/-- The fixed fields of the default catalog are two or four bits wide. -/
theorem defaultCatalog_usable {e : CatalogEntry} (mem : e ∈ defaultCatalog) {vals : Fields} :
    ∀ spec ∈ e.layout vals, spec.kind.usable = true := by
  have listed : ∀ e ∈ defaultCatalog, ∀ l ∈ e.layouts, ∀ spec ∈ l, spec.kind.usable = true := by decide
  obtain ⟨-, l, hl, isPrefix⟩ := e.layout_prefix vals
  exact fun spec hspec => listed e mem l hl spec (isPrefix.subset hspec)

theorem decode_encode_idle {cat : Catalog} {p : Payload} (noTcode : cat.byTcode p.toNat = none) (rest : List Byte) :
    decode cat (encode cat (.idle p) ++ rest) = .instr (.idle p) rest := by
  have frame : frameByte cat Framer.reset (wireByte p 3#2) = .idle p := by
    have idle := frameByte_of_noTcode (cat := cat) (f := Framer.reset) (b := wireByte p 3#2) rfl
      (marker_eq_endMessage.mpr (mseo_wireByte ..)) (by rwa [mdo_wireByte])
    rwa [mdo_wireByte] at idle
  rw [encode, List.singleton_append, decode, decodeFrom, frame]

theorem decode_encode_message {i : Instr} {k : Kind} (kind : i.kind = some k)
    (wf : i.wellFormed defaultCatalog = true) (rest : List Byte) :
    decode defaultCatalog (encode defaultCatalog i ++ rest) = .instr i rest := by
  obtain ⟨subcode, e, found, fits⟩ := Instr.wellFormed_message kind wf
  obtain rfl := Catalog.kind_of_byKind found
  obtain ⟨f, sameKind, same, absent, decoded⟩ := decode_packMessage defaultCatalog_legal found
    (defaultCatalog_usable (List.mem_of_find?_eq_some found)) fits
  have sameFields : ∀ name, name ≠ .TCODE → Fields.get f.fields name = Fields.get i.fields name := by
    intro name notTcode
    by_cases listed : name ∈ (e.layout i.fields).map FieldSpec.name
    · obtain ⟨spec, mem, rfl⟩ := List.mem_map.mp listed
      exact same spec mem
    · rw [absent name (by simp only [List.mem_cons, not_or]; exact ⟨notTcode, listed⟩),
        fields_get_eq_none kind found listed]
  rw [encode_message kind found, decoded, Framer.instr, sameKind, ofFields_congr sameFields,
    ofFields_fields i _ subcode kind]

/-- Settles O1: an idle byte is one byte, and a message is unpacked as it was packed. -/
theorem decodeOfEncodeGivesInstr : Obligations.DecodeOfEncodeGivesInstr := by
  intro i rest wf
  cases kind : i.kind with
  | some k => exact decode_encode_message kind wf rest
  | none =>
    obtain ⟨p, rfl⟩ : ∃ p, i = .idle p := by
      cases i with
      | idle p => exact ⟨p, rfl⟩
      | _ => cases kind
    exact decode_encode_idle (by simpa [Instr.wellFormed, Instr.subcodeOk] using wf) rest

end Sys2Proof
end

section
/-! PROOF. The bytes of an instruction through the machine (40_framer_ops.md R99, R101, R105): one step a byte follows the
decoder's walk over them, and what was packed decodes to the instruction. -/

namespace Sys2Proof

/-- Between messages the framer reads no register but `fstate` (10_state.md R27). -/
theorem decodeFrom_of_idle {cat : Catalog} {f : Framer} (idle : f.fstate = .idle) (bytes : List Byte) :
    decodeFrom cat f bytes = decode cat bytes := by
  cases bytes with
  | nil => simp [decode, decodeFrom, idle, Framer.reset]
  | cons b rest =>
    by_cases invalid : marker b = .invalid
    · simp [decode, decodeFrom, frameByte_of_invalid invalid]
    cases found : cat.byTcode (mdo b).toNat with
    | some e =>
      have taken : ∀ g : Framer, g.fstate = .idle → Taken cat g b (Framer.start e (mdo b)) :=
        fun g hg => .inl ⟨hg, e, found, rfl⟩
      rw [decode, decodeFrom, decodeFrom, frameByte_of_taken (taken f idle) invalid,
        frameByte_of_taken (taken Framer.reset rfl) invalid]
    | none =>
      by_cases ends : marker b = .endMessage
      · rw [decode, decodeFrom, decodeFrom, frameByte_of_noTcode idle ends found,
          frameByte_of_noTcode (f := Framer.reset) rfl ends found]
      · simp [decode, decodeFrom, frameByte, invalid, idle, Framer.reset, found, ends]

end Sys2Proof

namespace Sys2Proof.Machine

open Sys2Proof

theorem run_one (s : State) : Sys2Proof.core.run 1 s = step s := by
  have unfolded : Sys2Proof.core.step s = step s := rfl
  simp only [Host.Core.run, unfolded]
  cases step s <;> rfl

theorem Fetching.framed {s : State} (hf : Fetching s) (f : Framer) :
    Fetching { s with pos := s.pos + 1, framer := f } :=
  ⟨hf.running, hf.tolerance, hf.catalog, hf.noDispatch, hf.noRepeat⟩

theorem wireHolds_cons {s : State} {b : Byte} {bytes : List Byte} (h : wireHolds s (b :: bytes)) (f : Framer) :
    s.wire.read s.pos = some b ∧ wireHolds { s with pos := s.pos + 1, framer := f } bytes := by
  refine ⟨h 0 b rfl, fun k c hk => ?_⟩
  have at_k := h (k + 1) c hk
  rwa [Nat.add_comm k, ← Nat.add_assoc] at at_k

/-- As many steps as a message has bytes left are the message's meaning. -/
theorem run_message {s : State} {bytes : List Byte} {i : Instr} (hf : Fetching s) (holds : wireHolds s bytes)
    (decoded : decodeFrom s.cfg.catalog s.framer bytes = .instr i []) (notIdle : ∀ p, i ≠ .idle p) :
    ∃ f : Framer, f.fstate = .idle ∧ f.instr = i ∧
      Sys2Proof.core.run bytes.length s =
        exec i { s with pos := s.pos + bytes.length, msgCount := s.msgCount + 1, framer := f } := by
  induction bytes generalizing s with
  | nil => exact absurd decoded decodeFrom_nil_ne_instr
  | cons b bytes ih =>
    obtain ⟨hb, -⟩ := wireHolds_cons holds s.framer
    rcases decodeFrom_cons_eq_instr.mp decoded with ⟨p, -, same, -⟩ | ⟨g, hg, rfl, rfl⟩ | ⟨g, hg, later⟩
    · exact absurd same (notIdle p)
    · exact ⟨{ g with fstate := .idle }, rfl, rfl, (run_one s).trans (step_of_message hf hb hg)⟩
    · obtain ⟨f, idle, instr, run⟩ := ih (hf.framed g) (wireHolds_cons holds g).2 later
      refine ⟨f, idle, instr, ?_⟩
      rw [List.length_cons, run_succ _ (step_of_more hf hb hg), run, Nat.add_comm bytes.length, ← Nat.add_assoc]

/-- Settles O14: an idle byte is one step, and a message decodes as it was packed, one step a byte. -/
theorem messageBytesRunInstr : Obligations.MessageBytesRunInstr := by
  intro s i hf idle catalog wf holds
  have decoded : decodeFrom s.cfg.catalog s.framer (encode defaultCatalog i) = .instr i [] := by
    have roundTrip := decodeOfEncodeGivesInstr i [] wf
    rw [List.append_nil, ← decodeFrom_of_idle idle] at roundTrip
    rw [catalog, roundTrip]
  refine ⟨?_, run_message hf holds decoded⟩
  rintro p rfl
  exact (run_one s).trans ((stepRunsDecodedInstr s _ _ hf (holds 0 _ rfl) decoded).1 p rfl)

end Sys2Proof.Machine
end

section
/-! PROOF. The call-stack ring as a bounded deque (41_callstack.md R112 to R114, R118): the ring's indices, what one push
and one pop do to the live entries and to the counter, and what many do. -/

namespace Sys2Proof.Machine

open Sys2Proof

/-! ### The ring's indices -/

/-- After the top has advanced, one entry further back is the slot that stood there before. -/
theorem slot_advance {depth top i : Nat} (hi : i < depth) :
    ((top + 1) % depth + depth - (i + 1)) % depth = (top + depth - i) % depth := by
  rw [Nat.add_sub_assoc hi, Nat.mod_add_mod, ← Nat.add_sub_assoc hi]
  congr 1
  omega

/-- After the top has retreated, each entry stands one slot less far back. -/
theorem slot_retreat {depth top i : Nat} (hi : i < depth) :
    ((top + depth - 1) % depth + depth - i) % depth = (top + depth - (i + 1)) % depth := by
  rw [Nat.add_sub_assoc hi.le, Nat.mod_add_mod]
  have wraps : top + depth - 1 + (depth - i) = top + depth - (i + 1) + depth := by omega
  rw [wraps, Nat.add_mod_right]

/-- The slot a push writes is none of the `depth - 1` newest entries' slots. -/
theorem slot_ne_next {depth top i : Nat} (hi : i + 1 < depth) :
    (top + 1) % depth ≠ (top + depth - i) % depth := by
  intro same
  have split : top + depth - i = (top + 1) + (depth - (i + 1)) := by omega
  rw [split] at same
  have divides : depth ∣ depth - (i + 1) := Nat.add_modEq_left_iff.mp same.symm
  have := Nat.le_of_dvd (by omega) divides
  omega

/-! ### One push and one pop -/

@[simp] theorem State.push_cfg (a : Addr) (s : State) : (s.push a).cfg = s.cfg := by rw [State.push_frame]
@[simp] theorem State.pop_cfg (s : State) : s.pop.2.cfg = s.cfg := by rw [State.pop_frame]

@[simp] theorem ringContents_length (s : State) : (ringContents s).length = s.csSize := by simp [ringContents]

theorem ringContents_of_empty {s : State} (empty : s.csSize = 0) : ringContents s = [] := by
  simp [ringContents, empty]

/-- In COUNTING mode a push of any address counts it, up to the depth (41_callstack.md R112). -/
theorem State.push_of_counting {s : State} (h : RingOk s) (mode : s.cfg.csMode = .counting) (a : Addr) :
    s.push a = { s with csSize := min (s.csSize + 1) s.cfg.csDepth } := by
  rcases State.push_cases a s with ⟨noRing, e⟩ | ⟨-, addressed, -⟩ | ⟨-, -, e⟩
  · have full : min (s.csSize + 1) s.cfg.csDepth = s.csSize := by have := h.size; omega
    rw [e, full]
  · simp [mode] at addressed
  · exact e

/-- In COUNTING mode a pop answers NONE and counts down, floor 0 (41_callstack.md R113). -/
theorem State.pop_of_counting {s : State} (mode : s.cfg.csMode = .counting) :
    s.pop = (none, { s with csSize := s.csSize - 1 }) := by
  rcases State.pop_cases s with ⟨empty, e⟩ | ⟨-, -, e⟩ | ⟨-, addressed, -⟩
  · have unchanged : s.csSize - 1 = s.csSize := by omega
    rw [e, unchanged]
  · exact e
  · simp [mode] at addressed

/-- In ADDRESSED mode a push puts the address first and keeps the newest entries (41_callstack.md R112). -/
theorem ringContents_push {s : State} (h : RingOk s) (mode : s.cfg.csMode = .addressed) (a : Addr) :
    ringContents (s.push a) = (a :: ringContents s).take s.cfg.csDepth := by
  rcases State.push_cases a s with ⟨noRing, e⟩ | ⟨hD, -, e⟩ | ⟨-, counting, -⟩
  · have empty : s.csSize = 0 := by have := h.size; omega
    rw [e, noRing, ringContents_of_empty empty, List.take_zero]
  · obtain ⟨d, depth⟩ : ∃ d, s.cfg.csDepth = d + 1 := ⟨_, (Nat.succ_pred_eq_of_pos hD).symm⟩
    have newest : (s.csMem.set ((s.csTop + 1) % (d + 1)) a).getD ((s.csTop + 1) % (d + 1)) 0 = a := by
      have inRange : (s.csTop + 1) % (d + 1) < s.csMem.length := by
        rw [h.length, depth]
        exact Nat.mod_lt _ d.succ_pos
      rw [List.getD_eq_getElem?_getD, List.getElem?_set_self inRange, Option.getD_some]
    have older : ∀ i ∈ List.range (min d s.csSize),
        (s.csMem.set ((s.csTop + 1) % (d + 1)) a).getD (((s.csTop + 1) % (d + 1) + (d + 1) - (i + 1)) % (d + 1)) 0 =
          s.csMem.getD ((s.csTop + (d + 1) - i) % (d + 1)) 0 := by
      intro i hi
      have hi : i < d := by rw [List.mem_range] at hi; omega
      rw [slot_advance (by omega), List.getD_eq_getElem?_getD, List.getD_eq_getElem?_getD,
        List.getElem?_set_ne (slot_ne_next (by omega))]
    rw [e, depth, List.take_succ_cons]
    simp only [ringContents, depth, Nat.add_min_add_right, List.range_succ_eq_map, List.map_cons, List.map_map,
      ← List.map_take, List.take_range, Nat.min_comm s.csSize d]
    congr 1
    · rwa [Nat.sub_zero, Nat.add_mod_right, Nat.mod_mod]
    · exact List.map_congr_left older
  · simp [mode] at counting

/-- In ADDRESSED mode a pop answers the newest entry, or NONE, and leaves the others (41_callstack.md R113). -/
theorem pop_of_addressed {s : State} (h : RingOk s) (mode : s.cfg.csMode = .addressed) :
    s.pop.1 = (ringContents s).head? ∧ ringContents s.pop.2 = (ringContents s).tail := by
  rcases State.pop_cases s with ⟨empty, e⟩ | ⟨-, counting, -⟩ | ⟨hpos, -, e⟩
  · simp [e, ringContents_of_empty empty]
  · simp [mode] at counting
  · obtain ⟨n, size⟩ : ∃ n, s.csSize = n + 1 := ⟨_, (Nat.succ_pred_eq_of_pos hpos).symm⟩
    have fits : n + 1 ≤ s.cfg.csDepth := size ▸ h.size
    have top : (s.csTop + s.cfg.csDepth) % s.cfg.csDepth = s.csTop := by
      rw [Nat.add_mod_right]
      rcases h.top with lt | zero
      · exact Nat.mod_eq_of_lt lt
      · rw [zero, Nat.zero_mod]
    have others : ∀ i ∈ List.range n,
        s.csMem.getD (((s.csTop + s.cfg.csDepth - 1) % s.cfg.csDepth + s.cfg.csDepth - i) % s.cfg.csDepth) 0 =
          s.csMem.getD ((s.csTop + s.cfg.csDepth - (i + 1)) % s.cfg.csDepth) 0 := by
      intro i hi
      rw [slot_retreat (by rw [List.mem_range] at hi; omega)]
    rw [e]
    simp only [ringContents, size, Nat.add_sub_cancel, List.range_succ_eq_map, List.map_cons, List.map_map,
      List.head?_cons, List.tail_cons, Nat.sub_zero, top, true_and]
    exact List.map_congr_left others

/-- Settles O45: the entries in ADDRESSED mode, the counter in COUNTING mode. -/
theorem ringIsBoundedDeque : Obligations.RingIsBoundedDeque :=
  fun _ h =>
    ⟨fun mode => ⟨ringContents_push h mode, pop_of_addressed h mode⟩,
      fun mode => ⟨State.push_of_counting h mode, State.pop_of_counting mode⟩⟩

/-! ### Many pushes and many pops (41_callstack.md R114) -/

@[simp] theorem pushAll_cfg (as : List Addr) (s : State) : (pushAll as s).cfg = s.cfg := by
  induction as generalizing s with
  | nil => rfl
  | cons a as ih => exact (ih (s.push a)).trans (State.push_cfg a s)

theorem RingOk.pushAll {s : State} (h : RingOk s) (as : List Addr) : RingOk (pushAll as s) := by
  induction as generalizing s with
  | nil => exact h
  | cons a as ih => exact ih (h.push a)

/-- Many pushes keep the `csDepth` newest of the entries pushed and of those that were there. -/
theorem ringContents_pushAll {s : State} (h : RingOk s) (mode : s.cfg.csMode = .addressed) (as : List Addr) :
    ringContents (pushAll as s) = (as.reverse ++ ringContents s).take s.cfg.csDepth := by
  induction as generalizing s with
  | nil => exact (List.take_of_length_le ((ringContents_length s).trans_le h.size)).symm
  | cons a as ih =>
    calc ringContents (pushAll as (s.push a))
        = (as.reverse ++ ringContents (s.push a)).take s.cfg.csDepth := by
          simpa using ih (h.push a) (by simpa using mode)
      _ = (as.reverse ++ (a :: ringContents s).take s.cfg.csDepth).take s.cfg.csDepth := by
          rw [ringContents_push h mode]
      _ = ((a :: as).reverse ++ ringContents s).take s.cfg.csDepth := by
          simp [List.take_append, List.take_take]

/-- `n` pops answer the `n` newest entries, the newest first, then NONE. -/
theorem popMany_of_addressed {s : State} (h : RingOk s) (mode : s.cfg.csMode = .addressed) (n : Nat) :
    (popMany n s).1 = ((ringContents s).take n).map some ++ List.replicate (n - (ringContents s).length) none := by
  induction n generalizing s with
  | zero => simp [popMany]
  | succ n ih =>
    obtain ⟨answer, left⟩ := pop_of_addressed h mode
    have later := ih h.pop (by simpa using mode)
    rw [left] at later
    rw [popMany]
    dsimp only
    rw [answer, later]
    cases ringContents s with
    | nil => simp [List.replicate_succ]
    | cons a rest => simp

/-- Many pushes in COUNTING mode count up to the depth. -/
theorem csSize_pushAll_of_counting {s : State} (h : RingOk s) (mode : s.cfg.csMode = .counting) (as : List Addr) :
    (pushAll as s).csSize = min (s.csSize + as.length) s.cfg.csDepth := by
  induction as generalizing s with
  | nil => exact (Nat.min_eq_left h.size).symm
  | cons a as ih =>
    have later := ih (h.push a) (by simpa using mode)
    rw [State.push_of_counting h mode] at later
    have counted : (pushAll (a :: as) s).csSize =
        min (min (s.csSize + 1) s.cfg.csDepth + as.length) s.cfg.csDepth := by
      rw [← later, ← State.push_of_counting h mode a]
      rfl
    rw [counted, List.length_cons]
    omega

/-- `n` pops in COUNTING mode answer NONE and count down, floor 0. -/
theorem popMany_of_counting {s : State} (mode : s.cfg.csMode = .counting) (n : Nat) :
    popMany n s = (List.replicate n none, { s with csSize := s.csSize - n }) := by
  induction n generalizing s with
  | zero => rfl
  | succ n ih =>
    have later := ih (s := s.pop.2) (by simpa using mode)
    rw [State.pop_of_counting mode] at later
    rw [popMany, State.pop_of_counting mode]
    dsimp only
    rw [later, List.replicate_succ, Nat.sub_sub, Nat.add_comm 1 n]

/-- Settles O46: `csDepth` pushes fill the ring, so the pops answer its entries, or count it down to 0. -/
theorem popsGiveMostRecentPushes : Obligations.PopsGiveMostRecentPushes := by
  intro s as h empty _ enough
  refine ⟨fun mode => ?_, fun mode => ?_⟩
  · have contents : ringContents (pushAll as s) = as.reverse.take s.cfg.csDepth := by
      rw [ringContents_pushAll h mode, ringContents_of_empty empty, List.append_nil]
    have full : (as.reverse.take s.cfg.csDepth).length = s.cfg.csDepth := by simpa using enough
    rw [popMany_of_addressed (h.pushAll as) (by simpa using mode), contents, full,
      List.take_of_length_le (full.trans_le (Nat.le_succ _)), Nat.add_sub_cancel_left, List.replicate_one]
  · have full : (pushAll as s).csSize = s.cfg.csDepth := by
      rw [csSize_pushAll_of_counting h mode, empty, Nat.zero_add, Nat.min_eq_right enough]
    rw [popMany_of_counting (by simpa using mode)]
    exact ⟨full, rfl, by simp [full]⟩

end Sys2Proof.Machine
end

section
/-! PROOF. A counted replay ends (42_replay.md R130): each step that replays an instruction charges the budget, and the
step after the budget is used up closes the replay. Also the configured tolerance the model refuses (R134). -/

namespace Sys2Proof.Machine

open Sys2Proof

/-- Once the replay loop is over, the step of the dispatch closes it (42_replay.md R121). -/
theorem step_closing {s : State} {d : Dispatch} (hd : Dispatching s d) (stops : d.goesOn = false) :
    step s = .next (closeReplay d s) :=
  (step_dispatching hd).trans (if_neg (by simp [stops]))

/-- A replay that is not to be repeated ends at its close, by an error or with the dispatch over. -/
theorem CloseResult.ends {s t : State} {d : Dispatch} (h : CloseResult d s t) (once : ∀ left, d.after ≠ .again left) :
    t.status = .error ∨ t.dispatch = none := by
  cases h with
  | raised => exact .inl rfl
  | again left pc h => exact absurd h (once _)
  | _ => exact .inr rfl

/-- A replayed instruction leaves the block running in the dispatch, with the working registers of `Replayed`. -/
theorem Dispatching.replayed {s : State} {d : Dispatch} (hd : Dispatching s d) (pc : Addr) (m : InstrMeta)
    (notStopped : d.stopped = .none) : ∃ d', Dispatching (replayInstr pc m d s) d' ∧ Replayed m d d' := by
  obtain ⟨d', inDispatch, replayed⟩ := replayInstr_dispatch pc m s notStopped
  obtain ⟨r, -, -, frame⟩ := replayInstr_frame pc m d s
  refine ⟨d', ⟨?_, ?_, ?_, inDispatch⟩, replayed⟩
  all_goals rw [frame]
  · exact hd.running
  · exact hd.tolerance
  · exact hd.catalog

theorem InstrMeta.units_pos (m : InstrMeta) : 0 < m.units := by
  unfold InstrMeta.units
  split <;> decide

theorem Budget.continues_count {k histLeft : Nat} : (Budget.count k).continues histLeft = true ↔ 0 < k := by
  simp [Budget.continues]

/-- A counted replay that goes on has budget left (42_replay.md R129). -/
theorem Dispatch.goesOn_count {d : Dispatch} {k : Nat} (count : d.n = .count k) :
    d.goesOn = true ↔ d.stopped = .none ∧ 0 < k := by
  simp [Dispatch.goesOn, count, Budget.continues_count]

/-- After `j` steps the dispatch is over, or the block is in ERROR, or the model has refused an oracle answer. -/
def EndedAfter (j : Nat) (s : State) : Prop :=
  Sys2Proof.core.run j s = .refused .illFormedOracleAnswer ∨
    ∃ t, Sys2Proof.core.run j s = .next t ∧ (t.status = .error ∨ t.dispatch = none)

theorem EndedAfter.of_refused {s : State} (h : step s = .refused .illFormedOracleAnswer) : EndedAfter 1 s :=
  .inl ((run_one s).trans h)

theorem EndedAfter.of_next {s t : State} (h : step s = .next t) (ended : t.status = .error ∨ t.dispatch = none) :
    EndedAfter 1 s :=
  .inr ⟨t, (run_one s).trans h, ended⟩

theorem EndedAfter.succ {s t : State} {j : Nat} (h : step s = .next t) (later : EndedAfter j t) :
    EndedAfter (j + 1) s := by
  unfold EndedAfter
  rw [run_succ j h]
  exact later

/-- Settles O59, by strong induction on the budget: a step that replays an instruction leaves a smaller one, and every
other step ends the replay. -/
theorem countedReplayEnds : Obligations.CountedReplayEnds := by
  intro s d k hd count once
  show ∃ j ≤ k + 1, EndedAfter j s
  induction k using Nat.strong_induction_on generalizing s d with
  | _ k ih =>
    have oneStep : EndedAfter 1 s → ∃ j ≤ k + 1, EndedAfter j s := fun ends => ⟨1, by omega, ends⟩
    cases goes : d.goesOn with
    | false => exact oneStep (.of_next (step_closing hd goes) ((closeReplay_result d s).ends once))
    | true =>
      obtain ⟨notStopped, budgetLeft⟩ := (Dispatch.goesOn_count count).mp goes
      have replaying := step_replaying hd goes
      rcases replayStep_cases d s with ⟨-, e⟩ | ⟨pc, -, ⟨-, e⟩ | ⟨m, -, ⟨-, e⟩ | ⟨-, -, e⟩ | ⟨-, -, -, e⟩ |
        ⟨-, -, -, e⟩⟩⟩ <;> rw [e] at replaying
      · exact oneStep (.of_next replaying (.inl rfl))
      · exact oneStep (.of_next replaying (.inl rfl))
      · exact oneStep (.of_refused replaying)
      · exact oneStep (.of_next replaying (.inl rfl))
      · exact oneStep (.of_next replaying (.inl rfl))
      · obtain ⟨d', hd', replayed⟩ := hd.replayed pc m notStopped
        have charged : d'.n = .count (k - m.units) := by rw [replayed.budget, count]; rfl
        have smaller : k - m.units < k := Nat.sub_lt budgetLeft m.units_pos
        obtain ⟨j, bound, later⟩ := ih _ smaller _ _ hd' charged (by rw [replayed.after]; exact once)
        exact ⟨j + 1, by omega, later.succ replaying⟩

/-- Settles O57: it is the first test of every step. -/
theorem toleranceIsRefused : Obligations.ToleranceIsRefused := fun _ tolerates => step_refused tolerates

end Sys2Proof.Machine
end

section
/-! PROOF. The checks on the operands of a replay (42_replay.md R133): the history field and the budget, each after the
fields before it are in range. -/

namespace Sys2Proof.Machine

open Sys2Proof

/-- An error that is not raised on a byte just read records `pos` as its offset (60_exceptions.md R202). -/
theorem State.raise_of_notOnByte {e : Err} (notOnByte : Err.onByte e = false) (detail : Detail) (s : State) :
    s.raise e detail = { s with
      status := .error
      errCode := some e
      errInfo := { byteOffset := s.pos, msgIndex := s.msgCount, instrIndex := s.instrCount, detail := detail }
      errCount := 1 } := by
  simp [State.raise, notOnByte]

theorem withAddr_of_inRange {v : Operand} (inRange : v.val < 2 ^ 63) (s : State) (k : Addr → State) :
    withAddr v s k = k (fieldAddr v.val) :=
  if_pos inRange

theorem withHist_of_inRange {v : Operand} (pos : 0 < v.val) (inRange : v.val < 2 ^ 32) (s : State)
    (k : Hist → State) : withHist v s k = k (.bits (BitVec.ofNat 32 v.val)) :=
  (if_neg (Nat.ne_of_gt pos)).trans (if_pos inRange)

/-- A history value that is not from 1 to 2^32 − 1, with the error it raises (42_replay.md R120). -/
def HistRaises (v : Operand) (e : Err) : Prop :=
  (v.val = 0 ∧ e = .histNoStop) ∨ (2 ^ 32 ≤ v.val ∧ e = .fieldRange)

theorem HistRaises.notOnByte {v : Operand} {e : Err} (h : HistRaises v e) : Err.onByte e = false := by
  rcases h with ⟨-, rfl⟩ | ⟨-, rfl⟩ <;> rfl

theorem HistRaises.withHist {v : Operand} {e : Err} (h : HistRaises v e) (s : State) (k : Hist → State) :
    withHist v s k = s.raise e .empty := by
  rcases h with ⟨zero, rfl⟩ | ⟨tooLarge, rfl⟩
  · exact if_pos zero
  · exact (if_neg (by omega)).trans (if_neg (Nat.not_lt.mpr tooLarge))

theorem withBudget_of_negative {icnt : Operand} {s : State} (negative : (icnt.val : Int) + s.pendingICNTAdjust < 0)
    (k : Nat → State → State) :
    withBudget icnt s k = State.raise .negBudget .empty { s with pendingICNTAdjust := 0 } :=
  if_pos negative

/-- Synchronized, a sync message takes its budget (44_msg_sync.md R151). -/
theorem syncFrom_of_synchronized {s : State} (synchronized : s.pc ≠ none) (m : Instr) (icnt : Operand) (a : Addr)
    (hist : Hist) (needIndirect : Bool) :
    syncFrom m icnt a hist needIndirect s =
      withBudget icnt s fun b s => s.openReplay m (.count b) hist true needIndirect (.adopt a) := by
  obtain ⟨pc, hpc⟩ := Option.ne_none_iff_exists'.mp synchronized
  simp only [syncFrom, hpc]

/-- Settles O28: the history is checked after the address and before the budget. -/
theorem historyOutOfRangeRaises : Obligations.HistoryOutOfRangeRaises := by
  intro n sync btype icnt addr hist more tstamp s addrInRange i e bad kinds
  have bad : HistRaises hist e := bad
  rw [← State.raise_of_notOnByte bad.notOnByte]
  rcases kinds with rfl | rfl | rfl | rfl | rfl
  · exact congrArg Host.Outcome.next ((withAddr_of_inRange addrInRange ..).trans (bad.withHist ..))
  · exact congrArg Host.Outcome.next ((withAddr_of_inRange addrInRange ..).trans (bad.withHist ..))
  · exact congrArg Host.Outcome.next (bad.withHist ..)
  · exact congrArg Host.Outcome.next (bad.withHist ..)
  · exact congrArg Host.Outcome.next (bad.withHist ..)

/-- Settles O29: with the fields before it in range, each kind comes to its budget, a sync kind only when synchronized. -/
theorem negativeBudgetRaises : Obligations.NegativeBudgetRaises := by
  intro n sync btype icnt addr hist tstamp s negative addrInRange histPos histInRange i kinds
  have budget := withBudget_of_negative negative
  rcases kinds with (rfl | rfl | rfl | rfl | rfl) | ⟨synchronized, kinds⟩
  · exact congrArg Host.Outcome.next (budget _)
  · exact congrArg Host.Outcome.next ((withAddr_of_inRange addrInRange ..).trans (budget _))
  · exact congrArg Host.Outcome.next
      ((withAddr_of_inRange addrInRange ..).trans ((withHist_of_inRange histPos histInRange ..).trans (budget _)))
  · exact congrArg Host.Outcome.next (budget _)
  · exact congrArg Host.Outcome.next ((withHist_of_inRange histPos histInRange ..).trans (budget _))
  have syncBudget : ∀ m a h needIndirect, syncFrom m icnt a h needIndirect s = _ := fun m a h needIndirect =>
    (syncFrom_of_synchronized synchronized m icnt a h needIndirect).trans (budget _)
  rcases kinds with rfl | rfl | rfl | rfl
  · exact congrArg Host.Outcome.next ((withAddr_of_inRange addrInRange ..).trans (syncBudget ..))
  · exact congrArg Host.Outcome.next ((withAddr_of_inRange addrInRange ..).trans (syncBudget ..))
  · exact congrArg Host.Outcome.next ((withAddr_of_inRange addrInRange ..).trans (syncBudget ..))
  · exact congrArg Host.Outcome.next
      ((withAddr_of_inRange addrInRange ..).trans ((withHist_of_inRange histPos histInRange ..).trans (syncBudget ..)))

end Sys2Proof.Machine
end

section
/-! PROOF. One replay step (42_replay.md R122 to R128): its checks in order, then what it does for each class of
instruction. -/

namespace Sys2Proof.Machine

open Sys2Proof

/-! ### The checks (42_replay.md R122) -/

theorem replayStep_of_unsync (d : Dispatch) {s : State} (unsync : s.pc = none) :
    replayStep d s = .next (s.raise .unsync .empty) := by
  simp [replayStep, unsync]

theorem replayStep_of_unknown (d : Dispatch) {s : State} {a : Addr} (hpc : s.pc = some a)
    (unknown : s.oracle.lookup a = none) : replayStep d s = .next (s.raise .unknownAddr (.address a)) := by
  simp [replayStep, hpc, unknown]

theorem InstrMeta.units_eq {m : InstrMeta} (h : twoOrFour m.size) : m.units = m.size / 2 := by
  unfold InstrMeta.units
  rcases h with size | size <;> simp [size]

theorem histExhausted_of_notBranch {cls : ClassFlags} (notBranch : cls.branch = false) (d : Dispatch) :
    histExhausted cls d = false := by
  simp [histExhausted, notBranch]

theorem histExhausted_of_noHist {d : Dispatch} (noHist : d.hist = .noHist) (cls : ClassFlags) :
    histExhausted cls d = false := by
  simp [histExhausted, noHist]

theorem histExhausted_of_bitsLeft {d : Dispatch} (bitsLeft : d.histLeft ≠ 0) (cls : ClassFlags) :
    histExhausted cls d = false := by
  simp [histExhausted, bitsLeft]

/-- The replay goes on, and the oracle has a well-formed answer for the even address in `pc`: the next step checks and
replays that instruction. -/
structure AtInstr (s : State) (d : Dispatch) (a : Addr) (m : InstrMeta) : Prop where
  dispatching : Dispatching s d
  goes : d.goesOn = true
  at_pc : s.pc = some a
  even : evenAddr a
  answer : s.oracle.lookup a = some m
  wf : m.wf = true

section
variable {s : State} {d : Dispatch} {a : Addr} {m : InstrMeta}

theorem AtInstr.units_eq (h : AtInstr s d a m) : m.units = m.size / 2 :=
  InstrMeta.units_eq (InstrMeta.tableRow_of_wf h.wf).1

/-- A budget that goes on is split only by a four-byte instruction on its last unit (42_replay.md R122). -/
theorem AtInstr.splits_iff (h : AtInstr s d a m) :
    d.n.splits m.units = true ↔ d.n = .count 1 ∧ m.size = 4 := by
  have sizes := (InstrMeta.tableRow_of_wf h.wf).1
  rw [h.units_eq]
  cases count : d.n with
  | untilHist => simp [Budget.splits]
  | count k =>
    obtain ⟨-, budgetLeft⟩ := (Dispatch.goesOn_count count).mp h.goes
    rcases sizes with size | size <;> simp [Budget.splits, size] <;> omega

/-- The two checks on the instruction, then its replay. -/
theorem AtInstr.step_eq (h : AtInstr s d a m) :
    step s =
      if d.n.splits m.units then .next (s.raise .icntSplit (.address a))
      else if histExhausted m.cls d then .next (s.raise .histExhausted (.address a))
      else .next (replayInstr a m d s) := by
  have wfAt : m.wfAt a = true := InstrMeta.wfAt_iff.mpr ⟨h.wf, h.even⟩
  rw [step_replaying h.dispatching h.goes]
  simp [replayStep, h.at_pc, h.answer, wfAt]

theorem AtInstr.step_of_split (h : AtInstr s d a m) (last : d.n = .count 1) (size : m.size = 4) :
    step s = .next (s.raise .icntSplit (.address a)) :=
  h.step_eq.trans (if_pos (h.splits_iff.mpr ⟨last, size⟩))

theorem AtInstr.step_of_exhausted (h : AtInstr s d a m) (fits : ¬ (d.n = .count 1 ∧ m.size = 4))
    (exhausted : histExhausted m.cls d = true) : step s = .next (s.raise .histExhausted (.address a)) :=
  h.step_eq.trans ((if_neg (mt h.splits_iff.mp fits)).trans (if_pos exhausted))

theorem AtInstr.step_replays (h : AtInstr s d a m) (fits : ¬ (d.n = .count 1 ∧ m.size = 4))
    (hasBit : histExhausted m.cls d = false) : step s = .next (replayInstr a m d s) :=
  h.step_eq.trans ((if_neg (mt h.splits_iff.mp fits)).trans (if_neg (by simp [hasBit])))

end

/-- Settles O32: each check is the first that fails. -/
theorem replayChecksRaiseInOrder : Obligations.ReplayChecksRaiseInOrder := by
  intro s d hd goes
  refine ⟨fun unsync => ?_, fun a hpc => ⟨fun unknown => ?_, fun m hm wf even => ?_⟩⟩
  · exact (step_replaying hd goes).trans (replayStep_of_unsync d unsync)
  · exact (step_replaying hd goes).trans (replayStep_of_unknown d hpc unknown)
  · have h : AtInstr s d a m := ⟨hd, goes, hpc, even, hm, wf⟩
    refine ⟨h.step_of_split, fun fits branch hasHist noBit => ?_⟩
    exact h.step_of_exhausted fits (by simp [histExhausted, branch, hasHist, noBit])

/-! ### Counting, the call's push and the return's pop -/

theorem countAndPush_of_notCall {m : InstrMeta} (notCall : m.cls.call = false) (a : Addr) (s : State) :
    countAndPush a m s = { s with instrCount := s.instrCount + 1 } := by
  simp [countAndPush, notCall]

/-- A push does not depend on the instruction counter. -/
theorem State.push_instrCount (a : Addr) (n : Nat) (s : State) :
    State.push a { s with instrCount := n } = { s.push a with instrCount := n } := by
  unfold State.push
  split
  · rfl
  · cases s.cfg.csMode <;> rfl

/-- A call is counted and pushes the address past it (42_replay.md R125). -/
theorem countAndPush_of_call {m : InstrMeta} (call : m.cls.call = true) (a : Addr) (s : State) :
    countAndPush a m s = { s with
      instrCount := s.instrCount + 1
      csMem := (s.push (m.nextAddr a)).csMem
      csTop := (s.push (m.nextAddr a)).csTop
      csSize := (s.push (m.nextAddr a)).csSize } := by
  simp only [countAndPush, call, if_true, State.push_instrCount]
  rw [State.push_frame]

/-- A pop that answers NONE counts down, floor 0 (41_callstack.md R113). -/
theorem State.pop_of_unresolved {s : State} (unresolved : s.cfg.csMode = .counting ∨ s.csSize = 0) :
    s.pop = (none, { s with csSize := s.csSize - 1 }) := by
  rcases unresolved with counting | empty
  · exact State.pop_of_counting counting
  · have floor : s.csSize - 1 = s.csSize := by omega
    rw [floor]
    exact if_pos empty

/-- In ADDRESSED mode a pop answers the entry at the top and retreats (41_callstack.md R113). -/
theorem State.pop_of_entry {s : State} (addressed : s.cfg.csMode = .addressed) (nonempty : 0 < s.csSize) :
    s.pop = (some (s.csMem.getD s.csTop 0),
      { s with csSize := s.csSize - 1, csTop := (s.csTop + s.cfg.csDepth - 1) % s.cfg.csDepth }) := by
  simp [State.pop, addressed, Nat.ne_of_gt nonempty]

/-! ### Indirect instructions (42_replay.md R126) -/

section
variable {m : InstrMeta} {s : State}

theorem replayIndirect_of_notReturn (notReturn : m.cls.ret = false) (a : Addr) (d : Dispatch) :
    replayIndirect a m d s = { s.emit ⟨a, m.cls, m.size, none, true⟩ with
      dispatch := some { d with lastIndirect := true, stopped := .other } } := by
  simp [replayIndirect, notReturn]

/-- A return with an entry to pop goes on there. -/
theorem replayIndirect_of_entry (ret : m.cls.ret = true) (addressed : s.cfg.csMode = .addressed)
    (nonempty : 0 < s.csSize) (a : Addr) (d : Dispatch) :
    replayIndirect a m d s = { s.emit ⟨a, m.cls, m.size, none, true⟩ with
      pc := some (s.csMem.getD s.csTop 0)
      csSize := s.csSize - 1
      csTop := (s.csTop + s.cfg.csDepth - 1) % s.cfg.csDepth
      dispatch := some { d with lastIndirect := true } } := by
  have popped := State.pop_of_entry (s := s.emit ⟨a, m.cls, m.size, none, true⟩) addressed nonempty
  simp [replayIndirect, ret, popped, addressed]

/-- A return with no address to pop stops the replay. -/
theorem replayIndirect_of_unresolved (ret : m.cls.ret = true)
    (unresolved : s.cfg.csMode = .counting ∨ s.csSize = 0) (a : Addr) (d : Dispatch) :
    replayIndirect a m d s = { s.emit ⟨a, m.cls, m.size, none, true⟩ with
      csSize := s.csSize - 1
      dispatch := some { d with lastIndirect := true, stopped := .ret } } := by
  have popped := State.pop_of_unresolved (s := s.emit ⟨a, m.cls, m.size, none, true⟩) unresolved
  simp [replayIndirect, ret, popped]

end

/-! ### Direct instructions (42_replay.md R124, R127) -/

/-- A direct jump or call is taken and consumes no history. -/
theorem replayDirect_of_jumpOrCall {m : InstrMeta} (notBranch : m.cls.branch = false)
    (jumps : (m.cls.jump || m.cls.call) = true) (a : Addr) (d : Dispatch) (s : State) :
    replayDirect a m d s = { s.emit ⟨a, m.cls, m.size, m.dest, true⟩ with
      pc := m.dest
      dispatch := some { d with lastIndirect := false } } := by
  simp [replayDirect, directTaken, directHistLeft, recordClass, notBranch, jumps]

/-- A branch's record and `pc` show whether it was taken. -/
theorem replayDirect_branch {d : Dispatch} {size : Nat} {dest : Addr} {taken : Bool}
    (outcome : directTaken (branchMeta size dest).cls d.hist d.histLeft d.n = taken) (a : Addr) (s : State) :
    replayDirect a (branchMeta size dest) d s =
      { s.emit ⟨a, ⟨!taken, false, true, false, false, false⟩, size, some dest, taken⟩ with
        pc := some (if taken = true then dest else a + BitVec.ofNat 64 size)
        dispatch := some { d with
          lastIndirect := false, histLeft := directHistLeft (branchMeta size dest).cls d.hist d.histLeft } } := by
  simp only [replayDirect, outcome]
  cases taken <;> rfl

/-! ### The step on each class of instruction -/

section
variable {s : State} {d : Dispatch} {a : Addr} {m : InstrMeta}

theorem AtInstr.of_row {size : Nat} (hd : Dispatching s d) (goes : d.goesOn = true) (hpc : s.pc = some a)
    (even : evenAddr a) (sizeOk : twoOrFour size) (hm : s.oracle.lookup a = some m) (row : TableRow size m) :
    AtInstr s d a m :=
  ⟨hd, goes, hpc, even, hm, row.wf sizeOk⟩

theorem AtInstr.step_direct (h : AtInstr s d a m) (fits : ¬ (d.n = .count 1 ∧ m.size = 4))
    (hasBit : histExhausted m.cls d = false) (direct : m.cls.indirect = false) :
    step s = .next (replayDirect a m { d with n := d.n.charge (m.size / 2) } (countAndPush a m s)) := by
  rw [h.step_replays fits hasBit, replayInstr, h.units_eq]
  simp [direct]

theorem AtInstr.step_indirect (h : AtInstr s d a m) (fits : ¬ (d.n = .count 1 ∧ m.size = 4))
    (notBranch : m.cls.branch = false) (indirect : m.cls.indirect = true) :
    step s = .next (replayIndirect a m { d with n := d.n.charge (m.size / 2) } (countAndPush a m s)) := by
  rw [h.step_replays fits (histExhausted_of_notBranch notBranch d), replayInstr, h.units_eq]
  simp [indirect]

end

/-- Settles O35. -/
theorem linearStepAdvances : Obligations.LinearStepAdvances := by
  intro s d a size hd goes hpc even sizeOk hm fits
  have h := AtInstr.of_row hd goes hpc even sizeOk hm (.inl rfl)
  rw [h.step_direct fits (histExhausted_of_notBranch rfl d) rfl, countAndPush_of_notCall rfl]
  rfl

/-- Settles O36: the charged budget is 0 exactly when the branch has as many units as the budget. -/
theorem branchWithoutHistoryTakenWhenLast : Obligations.BranchWithoutHistoryTakenWhenLast := by
  intro s d a dest size k hd notStopped count enough noHist hpc even sizeOk hm
  have unit : 0 < size / 2 := by rcases sizeOk with rfl | rfl <;> decide
  have goes : d.goesOn = true := (Dispatch.goesOn_count count).mpr ⟨notStopped, by omega⟩
  have fits : ¬ (d.n = .count 1 ∧ size = 4) := by
    rintro ⟨last, rfl⟩
    obtain rfl : k = 1 := Budget.count.inj (count.symm.trans last)
    omega
  have h := AtInstr.of_row hd goes hpc even sizeOk hm (.inr (.inl ⟨dest, rfl⟩))
  have outcome : directTaken (branchMeta size dest).cls d.hist d.histLeft (d.n.charge (size / 2)) =
      decide (k = size / 2) := by
    have usedUp : k - size / 2 = 0 ↔ k = size / 2 := by omega
    simp [directTaken, branchMeta, noHist, count, Budget.charge, usedUp]
  have kept : directHistLeft (branchMeta size dest).cls d.hist d.histLeft = d.histLeft := by
    simp [directHistLeft, noHist]
  have charged : d.n.charge ((branchMeta size dest).size / 2) = .count (k - size / 2) := by rw [count]; rfl
  rw [h.step_direct fits (histExhausted_of_noHist noHist _) rfl, countAndPush_of_notCall rfl,
    replayDirect_branch outcome]
  simp [kept, charged]

/-- Settles O37: the bit below those consumed decides. -/
theorem branchWithHistoryTakesNextBit : Obligations.BranchWithHistoryTakesNextBit := by
  intro s d a dest size left bits hd goes fits hist bitsLeft hpc even sizeOk hm
  have h := AtInstr.of_row hd goes hpc even sizeOk hm (.inr (.inl ⟨dest, rfl⟩))
  have hasBit : histExhausted (branchMeta size dest).cls d = false := histExhausted_of_bitsLeft (by omega) _
  have outcome : directTaken (branchMeta size dest).cls d.hist d.histLeft (d.n.charge (size / 2)) =
      bits.getLsbD left := by
    simp [directTaken, branchMeta, hist, bitsLeft]
  have consumed : directHistLeft (branchMeta size dest).cls d.hist d.histLeft = left := by
    simp [directHistLeft, branchMeta, hist, bitsLeft]
  rw [h.step_direct fits hasBit rfl, countAndPush_of_notCall rfl, replayDirect_branch outcome, consumed]
  rfl

/-- Settles O38: both are direct instructions that are taken; the call has pushed. -/
theorem jumpAndCallGoToDestination : Obligations.JumpAndCallGoToDestination := by
  intro s d a dest size j hd goes hpc even sizeOk fits
  refine ⟨fun hm => ?_, fun hm => ?_⟩
  · have h := AtInstr.of_row hd goes hpc even sizeOk hm (.inr (.inr (.inl ⟨dest, rfl⟩)))
    rw [h.step_direct fits (histExhausted_of_notBranch rfl d) rfl, countAndPush_of_notCall rfl,
      replayDirect_of_jumpOrCall rfl rfl]
    rfl
  · have h := AtInstr.of_row hd goes hpc even sizeOk hm (.inr (.inr (.inr (.inr (.inl ⟨j, dest, rfl⟩)))))
    rw [h.step_direct fits (histExhausted_of_notBranch rfl d) rfl, countAndPush_of_call rfl,
      replayDirect_of_jumpOrCall rfl (Bool.or_true j)]
    rfl

/-- Settles O39: neither is a return, so the replay stops. -/
theorem indirectStopsReplay : Obligations.IndirectStopsReplay := by
  intro s d a size j hd goes hpc even sizeOk fits
  refine ⟨fun hm => ?_, fun hm => ?_⟩
  · have h := AtInstr.of_row hd goes hpc even sizeOk hm (.inr (.inr (.inr (.inl rfl))))
    rw [h.step_indirect fits rfl rfl, countAndPush_of_notCall rfl, replayIndirect_of_notReturn rfl]
    rfl
  · have h := AtInstr.of_row hd goes hpc even sizeOk hm (.inr (.inr (.inr (.inr (.inr (.inl ⟨j, rfl⟩))))))
    rw [h.step_indirect fits rfl rfl, countAndPush_of_call rfl, replayIndirect_of_notReturn rfl]
    rfl

/-- Settles O40: whether the pop answers an address decides. -/
theorem returnPopsOrStops : Obligations.ReturnPopsOrStops := by
  intro s d a size hd goes hpc even sizeOk hm fits
  have h := AtInstr.of_row hd goes hpc even sizeOk hm (.inr (.inr (.inr (.inr (.inr (.inr rfl))))))
  have replays := h.step_indirect fits rfl rfl
  rw [countAndPush_of_notCall rfl] at replays
  refine ⟨fun addressed nonempty => ?_, fun unresolved => ?_⟩
  · rw [replays, replayIndirect_of_entry (s := { s with instrCount := s.instrCount + 1 }) rfl addressed nonempty]
    rfl
  · rw [replays, replayIndirect_of_unresolved (s := { s with instrCount := s.instrCount + 1 }) rfl unresolved]
    rfl

end Sys2Proof.Machine
end

section
/-! PROOF. The close of a replay (42_replay.md R132): the checks of `Settle` in order, then what ends the handler. -/

namespace Sys2Proof.Machine

open Sys2Proof

/-! ### `Settle` -/

theorem Budget.left_iff {n : Budget} : n.left = true ↔ n ≠ .count 0 := by
  cases n <;> simp [Budget.left, Nat.pos_iff_ne_zero]

section
variable {d : Dispatch} {s : State} (k : State → State)

theorem withSettled_of_return (stopped : d.stopped = .ret) (left : d.n ≠ .count 0) :
    withSettled d s k = s.raise .callstackUnderflow (pcDetail s) :=
  if_pos ⟨stopped, Budget.left_iff.mpr left⟩

theorem withSettled_of_stop (stopped : d.stopped = .other) (left : d.n ≠ .count 0) :
    withSettled d s k = s.raise .indirectUnresolved (pcDetail s) :=
  (if_neg (by simp [stopped])).trans (if_pos ⟨stopped, Budget.left_iff.mpr left⟩)

/-- With the stop resolved, or no budget left, the last two checks of `Settle` follow. -/
theorem withSettled_of_resolved (resolved : d.stopped = .none ∨ d.n = .count 0) :
    withSettled d s k =
      if 0 < d.histLeft then s.raise .histLeftover .empty
      else if d.needIndirect ∧ ¬ d.lastIndirect then s.raise .noIndirect .empty
      else if ¬ d.hasAddr ∧ d.stopped ≠ .none then k { s with pc := none }
      else k s := by
  have noStop : ∀ stop, stop ≠ .none → ¬ (d.stopped = stop ∧ d.n.left = true) := by
    rintro stop isStop ⟨stopped, left⟩
    rcases resolved with none | used
    · exact isStop (stopped.symm.trans none)
    · exact Budget.left_iff.mp left used
  exact (if_neg (noStop .ret nofun)).trans (if_neg (noStop .other nofun))

theorem withSettled_of_leftover (resolved : d.stopped = .none ∨ d.n = .count 0) (leftover : 0 < d.histLeft) :
    withSettled d s k = s.raise .histLeftover .empty :=
  (withSettled_of_resolved k resolved).trans (if_pos leftover)

theorem withSettled_of_noIndirect (resolved : d.stopped = .none ∨ d.n = .count 0) (used : d.histLeft = 0)
    (need : d.needIndirect = true) (missing : d.lastIndirect = false) :
    withSettled d s k = s.raise .noIndirect .empty :=
  (withSettled_of_resolved k resolved).trans ((if_neg (by omega)).trans (if_pos (by simp [need, missing])))

end

theorem pcDetail_of_pc {s : State} {a : Addr} (hpc : s.pc = some a) : pcDetail s = .address a := by
  simp only [pcDetail, hpc]

/-- Settles O41: each check is the first that fails. -/
theorem settleRaisesInOrder : Obligations.SettleRaisesInOrder := by
  intro s d hd stops e detail checks
  rw [step_closing hd stops]
  rcases checks with ⟨a, hpc, stopped, left, rfl, rfl⟩ | ⟨a, hpc, stopped, left, rfl, rfl⟩ |
    ⟨resolved, leftover, rfl, rfl⟩ | ⟨resolved, used, need, missing, rfl, rfl⟩
  · rw [← pcDetail_of_pc hpc]
    exact congrArg Host.Outcome.next (withSettled_of_return _ stopped left)
  · rw [← pcDetail_of_pc hpc]
    exact congrArg Host.Outcome.next (withSettled_of_stop _ stopped left)
  · exact congrArg Host.Outcome.next (withSettled_of_leftover _ resolved leftover)
  · exact congrArg Host.Outcome.next (withSettled_of_noIndirect _ resolved used need missing)

/-! ### The end of the handler -/

/-- No check of `Settle` fails at the close of this replay. -/
structure Settles (s : State) (d : Dispatch) : Prop where
  dispatching : Dispatching s d
  stops : d.goesOn = false
  resolved : d.stopped = .none ∨ d.n = .count 0
  used : d.histLeft = 0
  indirect : d.needIndirect = true → d.lastIndirect = true

section
variable {s : State} {d : Dispatch}

theorem Settles.step_eq (h : Settles s d) :
    step s = .next (if ¬ d.hasAddr ∧ d.stopped ≠ .none then runAfter d { s with pc := none } else runAfter d s) := by
  rw [step_closing h.dispatching h.stops, closeReplay, withSettled_of_resolved _ h.resolved,
    if_neg (by simp [h.used]), if_neg fun ⟨need, missing⟩ => missing (h.indirect need)]

theorem Settles.step_of_addr (h : Settles s d) (hasAddr : d.hasAddr = true) : step s = .next (runAfter d s) := by
  rw [h.step_eq, if_neg (by simp [hasAddr])]

/-- With no address field an unresolved stop leaves `pc` unknown. -/
theorem Settles.step_of_noAddr (h : Settles s d) (noAddr : d.hasAddr = false) :
    step s = .next (runAfter d { s with pc := if d.stopped = .none then s.pc else none }) := by
  rw [h.step_eq]
  by_cases notStopped : d.stopped = .none <;> simp [noAddr, notStopped]

theorem nextPrevMsg_of_retainable {m : Instr} (retained : retainable m = true) (prev : Option Instr) :
    nextPrevMsg m prev = some m := by
  cases m with
  | error => cases retained
  | repeatBranch => cases retained
  | idle => cases retained
  | _ => rfl

/-- The end of the handler of a message that `prevMsg` retains (40_framer_ops.md R99). -/
theorem State.finish_of_retainable {m : Instr} (retained : retainable m = true) (s : State) :
    s.finish m = { s with
      dispatch := none
      prevMsg := if s.repeatLeft.isSome then s.prevMsg else some m } := by
  simp only [State.finish, nextPrevMsg_of_retainable retained]

theorem runAfter_of_finish (h : d.after = .finish ∨ d.after = .again 0) (s : State) :
    runAfter d s = s.finish d.msg := by
  rcases h with h | h <;> simp only [runAfter, h]

end

/-- Settles O42: the close goes on with what follows `Settle`, one case for each. -/
theorem settledReplayEndsHandler : Obligations.SettledReplayEndsHandler := by
  intro s d hd stops resolved used indirect retained
  have h : Settles s d := ⟨hd, stops, resolved, used, indirect⟩
  have finish := State.finish_of_retainable retained
  refine ⟨fun noAddr after => ?_, fun left noAddr after => ?_, fun a hasAddr after once => ?_,
    fun a hasAddr after again => ?_, fun a hasAddr after => ?_⟩
  · rw [h.step_of_noAddr noAddr, runAfter_of_finish after, finish]
  · rw [h.step_of_noAddr noAddr]
    simp only [runAfter, after]
    rfl
  · rw [h.step_of_addr hasAddr]
    simp only [runAfter, after, finish]
    simp [State.applyDelta, State.rep, once]
  · obtain ⟨turns, repeating⟩ := Option.ne_none_iff_exists'.mp again
    rw [h.step_of_addr hasAddr]
    simp only [runAfter, after, finish]
    simp [State.applyDelta, State.rep, repeating]
  · rw [h.step_of_addr hasAddr]
    simp only [runAfter, after, finish]
    rfl

end Sys2Proof.Machine
end

section
/-! PROOF. The branch messages (43_msg_branch.md R140 to R143): the address field is checked first, then the history,
and the count opens the replay. -/

namespace Sys2Proof.Machine

open Sys2Proof

/-! ### The operand forms -/

theorem withAddr_of_outOfRange {v : Operand} (tooLarge : 2 ^ 63 ≤ v.val) (s : State) (k : Addr → State) :
    withAddr v s k = s.raise .fieldRange .empty :=
  if_neg (Nat.not_lt.mpr tooLarge)

theorem withBudget_of_nonneg {icnt : Operand} {s : State} (nonneg : 0 ≤ (icnt.val : Int) + s.pendingICNTAdjust)
    (k : Nat → State → State) :
    withBudget icnt s k = k ((icnt.val : Int) + s.pendingICNTAdjust).toNat { s with pendingICNTAdjust := 0 } :=
  if_neg (Int.not_lt.mpr nonneg)

/-- `UADDR << 1` (43_msg_branch.md R142). -/
theorem fieldAddr_eq_two_mul (v : Nat) : fieldAddr v = BitVec.ofNat 64 (2 * v) := by
  apply BitVec.eq_of_toNat_eq
  simp only [fieldAddr, BitVec.toNat_shiftLeft, BitVec.toNat_ofNat, Nat.shiftLeft_eq]
  omega

/-- An in-range history value has as many branch bits as there are below its stop bit (30_encoding.md R76). -/
theorem Hist.length_ofNat {v : Nat} (inRange : v < 2 ^ 32) : (Hist.bits (BitVec.ofNat 32 v)).length = v.log2 := by
  simp only [Hist.length, histLength, BitVec.toNat_ofNat, Nat.mod_eq_of_lt inRange]

/-! ### The meanings -/

/-- Settles O27: each of the six meanings begins with its address field. -/
theorem addressOutOfRangeRaises : Obligations.AddressOutOfRangeRaises := by
  intro sync btype icnt addr hist tstamp s tooLarge i kinds
  have addressFirst : ∃ k, exec i s = .next (withAddr addr s k) := by
    rcases kinds with rfl | rfl | rfl | rfl | rfl | rfl <;> exact ⟨_, rfl⟩
  obtain ⟨k, meaning⟩ := addressFirst
  rw [meaning, withAddr_of_outOfRange tooLarge, State.raise_of_notOnByte rfl]

/-- Settles O17: with a sum that is not negative, both kinds open the replay. -/
theorem countedBranchEntersReplay : Obligations.CountedBranchEntersReplay := by
  intro evcode icnt tstamp s nonneg i kinds
  have budget := withBudget_of_nonneg nonneg
  rcases kinds with rfl | rfl
  · exact congrArg Host.Outcome.next (budget _)
  · exact congrArg Host.Outcome.next (budget _)

/-- Settles O19: with every operand in range, both kinds come to their budget and open the replay. -/
theorem indirectBranchEntersReplay : Obligations.IndirectBranchEntersReplay := by
  intro btype icnt uaddr hist tstamp s nonneg addrInRange
  have budget := withBudget_of_nonneg nonneg
  rw [← fieldAddr_eq_two_mul]
  refine ⟨?_, fun histPos histInRange => ?_⟩
  · exact congrArg Host.Outcome.next ((withAddr_of_inRange addrInRange ..).trans (budget _))
  · rw [← Hist.length_ofNat histInRange]
    exact congrArg Host.Outcome.next
      ((withAddr_of_inRange addrInRange ..).trans ((withHist_of_inRange histPos histInRange ..).trans (budget _)))

end Sys2Proof.Machine
end

section
/-! PROOF. A replay over a run of linear instructions (42_replay.md R121, R123, R128): each step emits its record and
charges its two units, and the step after the last closes the replay. -/

namespace Sys2Proof.Machine

open Sys2Proof

/-! ### Even addresses -/

theorem evenAddr_iff {a : Addr} : evenAddr a ↔ a.toNat % 2 = 0 := by
  simp [evenAddr, BitVec.getLsbD, Nat.testBit_zero]

/-- An even distance keeps an address even, also where the sum wraps around. -/
theorem evenAddr.add_even {a : Addr} (even : evenAddr a) (n : Nat) : evenAddr (a + BitVec.ofNat 64 (2 * n)) := by
  simp only [evenAddr_iff, BitVec.toNat_add, BitVec.toNat_ofNat] at even ⊢
  omega

/-! ### Along the run -/

/-- The records of the first `j` instructions of a run of four-byte linear instructions from `a`. -/
def linearRecords (a : Addr) (j : Nat) : List Record :=
  (List.range j).map fun i => ⟨a + BitVec.ofNat 64 (4 * i), (linearMeta 4).cls, 4, none, false⟩

theorem linearRecords_succ (a : Addr) (j : Nat) :
    linearRecords a (j + 1) =
      linearRecords a j ++ [⟨a + BitVec.ofNat 64 (4 * j), (linearMeta 4).cls, 4, none, false⟩] := by
  simp [linearRecords, List.range_succ]

/-- The working registers of `Replay(Count(2 * left), NoHist)` with no address: the budget of `left` four-byte
instructions. -/
def linearDispatch (i : Instr) (left : Nat) : Dispatch :=
  openDispatch i (.count (2 * left)) .noHist false false .finish

theorem linearDispatch_goesOn (i : Instr) (left : Nat) : (linearDispatch i left).goesOn = decide (0 < left) := by
  simp [linearDispatch, openDispatch, Dispatch.goesOn, Budget.continues]

/-- The state after the first `j` instructions from `a` of such a replay, with the budget of `left` more. -/
def State.alongLinearRun (s : State) (i : Instr) (a : Addr) (j left : Nat) : State :=
  { s with
    instrCount := s.instrCount + j
    records := s.records ++ linearRecords a j
    pc := some (a + BitVec.ofNat 64 (4 * j))
    dispatch := some (linearDispatch i left) }

theorem State.alongLinearRun_zero {s : State} {a : Addr} (hpc : s.pc = some a) (i : Instr) (left : Nat) :
    s.alongLinearRun i a 0 left = s.openReplay i (.count (2 * left)) .noHist false false .finish := by
  simp [State.alongLinearRun, State.openReplay, linearDispatch, linearRecords, ← hpc]

section
variable {s : State} {a : Addr} (hf : Fetching s) (i : Instr)
include hf

theorem Fetching.dispatching_alongLinearRun (a : Addr) (j left : Nat) :
    Dispatching (s.alongLinearRun i a j left) (linearDispatch i left) :=
  ⟨hf.running, hf.tolerance, hf.catalog, rfl⟩

/-- One instruction of the run (42_replay.md R123, R128). -/
theorem step_alongLinearRun {j : Nat} (even : evenAddr a)
    (linear : s.oracle.lookup (a + BitVec.ofNat 64 (4 * j)) = some (linearMeta 4)) (left : Nat) :
    step (s.alongLinearRun i a j (left + 1)) = .next (s.alongLinearRun i a (j + 1) left) := by
  have evenPc : evenAddr (a + BitVec.ofNat 64 (4 * j)) := by
    rw [show 4 * j = 2 * (2 * j) by omega]
    exact even.add_even (2 * j)
  have fits : ¬ ((linearDispatch i (left + 1)).n = .count 1 ∧ 4 = 4) := by
    rintro ⟨last, -⟩
    have : 2 * (left + 1) = 1 := Budget.count.inj last
    omega
  have nextPc : a + BitVec.ofNat 64 (4 * j) + BitVec.ofNat 64 4 = a + BitVec.ofNat 64 (4 * (j + 1)) := by
    rw [BitVec.add_assoc, ← BitVec.ofNat_add, Nat.mul_succ]
  rw [linearStepAdvances _ _ _ 4 (hf.dispatching_alongLinearRun i a j (left + 1)) (by simp [linearDispatch_goesOn])
    rfl evenPc (.inr rfl) linear fits, nextPc]
  simp only [State.alongLinearRun, linearRecords_succ, List.append_assoc]
  rfl

/-- The first `j` instructions of a run, by induction on `j`. -/
theorem run_alongLinearRun (even : evenAddr a) (j left : Nat)
    (linear : ∀ k < j, s.oracle.lookup (a + BitVec.ofNat 64 (4 * k)) = some (linearMeta 4)) :
    Sys2Proof.core.run j (s.alongLinearRun i a 0 (j + left)) = .next (s.alongLinearRun i a j left) := by
  induction j generalizing left with
  | zero => simp [Host.Core.run]
  | succ j ih =>
    have before := ih (left + 1) fun k hk => linear k (Nat.lt_succ_of_lt hk)
    rw [show j + 1 + left = j + (left + 1) by omega, run_add j 1 before, run_one]
    exact step_alongLinearRun hf i even (linear j (Nat.lt_succ_self j)) left

/-! ### The close -/

/-- The close of the replay once its budget is used up (42_replay.md R132). -/
theorem step_endOfLinearRun (retained : retainable i = true) (a : Addr) (j : Nat) :
    step (s.alongLinearRun i a j 0) = .next { s with
      instrCount := s.instrCount + j
      records := s.records ++ linearRecords a j
      pc := some (a + BitVec.ofNat 64 (4 * j))
      prevMsg := some i } := by
  obtain ⟨finishes, -⟩ := settledReplayEndsHandler _ _ (hf.dispatching_alongLinearRun i a j 0)
    (linearDispatch_goesOn i 0) (.inl rfl) rfl nofun retained
  rw [finishes rfl (.inl rfl)]
  simp [State.alongLinearRun, linearDispatch, openDispatch, hf.noDispatch, hf.noRepeat]

/-- The whole of a counted replay over `m` four-byte linear instructions, and its close. -/
theorem run_linearRun (retained : retainable i = true) (hpc : s.pc = some a) (even : evenAddr a) (m : Nat)
    (linear : ∀ j < m, s.oracle.lookup (a + BitVec.ofNat 64 (4 * j)) = some (linearMeta 4)) :
    Sys2Proof.core.run (m + 1) (s.openReplay i (.count (2 * m)) .noHist false false .finish) = .next { s with
      instrCount := s.instrCount + m
      records := s.records ++ linearRecords a m
      pc := some (a + BitVec.ofNat 64 (4 * m))
      prevMsg := some i } := by
  have replayed := run_alongLinearRun hf i even m 0 linear
  rw [State.alongLinearRun_zero hpc] at replayed
  exact (run_add m 1 replayed).trans ((run_one _).trans (step_endOfLinearRun hf i retained a m))

end

/-- Settles O44: the message opens the replay with the adjustment cleared, and the replay runs to its close. -/
theorem directBranchReplaysLinearRun : Obligations.DirectBranchReplaysLinearRun := by
  intro s a m icnt tstamp hf hpc even linear sum
  have opens := countedBranchEntersReplay 0 icnt tstamp s (by omega) _ (.inl rfl)
  have budget : ((icnt.val : Int) + s.pendingICNTAdjust).toNat = 2 * m := by omega
  rw [budget] at opens
  have cleared : Fetching { s with pendingICNTAdjust := 0 } := { hf with }
  exact ⟨_, opens, run_linearRun cleared (.directBranch icnt tstamp) rfl hpc even m linear⟩

end Sys2Proof.Machine
end

section
/-! PROOF. The synchronisation messages (44_msg_sync.md): no other message gives an unsynchronized block its `pc`, and
what the four kinds do, each reduced to their common procedure (R151). -/

namespace Sys2Proof.Machine

open Sys2Proof

/-! ### Nothing else synchronizes the block -/

/-- Of the messages that arrive unsynchronized only a sync message gives `pc` a value (44_msg_sync.md R151). -/
theorem ExecResult.pc_of_unsync {i : Instr} {s t : State} (h : ExecResult i s t) (unsync : s.pc = none) :
    t.pc = none ∨ isSync i = true := by
  cases h with
  | adopted a _ sync => exact .inr sync
  | error => exact .inl rfl
  | _ => exact .inl unsync

/-- The close of a replay does not synchronize: a delta is applied only after an indirect instruction was replayed
(43_msg_branch.md R142), and none is while `pc` is NONE; nor does a sync message replay then (44_msg_sync.md R151). -/
theorem CloseResult.pc_of_unsync {d : Dispatch} {s t : State} (h : CloseResult d s t) (ok : DispatchOk s d)
    (unsync : s.pc = none) : t.pc = none := by
  obtain ⟨noIndirect, noAdopt⟩ := ok.unsync unsync
  cases h with
  | raised => exact unsync
  | finished pc _ hp => exact hp.elim (·.trans unsync) id
  | again left pc _ hp => exact hp.elim (·.trans unsync) id
  | delta a pc after indirect =>
    have afterOk := ok.afterOk
    simp only [AfterOk, after] at afterOk
    obtain ⟨-, needIndirect, -⟩ := afterOk
    exact absurd (indirect needIndirect) (by simp [noIndirect])
  | adopted a pc after => exact absurd after (noAdopt a)

/-- Settles O51: a dispatch in progress replays nothing and its close leaves `pc` NONE, and the message a step runs, from
the wire or in a `RepeatBranch` loop, must be a sync message. -/
theorem onlySyncSynchronizes : Obligations.OnlySyncSynchronizes := by
  intro s t inv unsync hstep synchronized
  cases step_result hstep with
  | closed d hd =>
    exact absurd ((closeReplay_result d s).pc_of_unsync (inv.working d hd.inDispatch) unsync) synchronized
  | replayed d pc m _ _ hpc => exact nomatch unsync.symm.trans hpc
  | repeated left m t _ _ _ _ hplan hx => exact ⟨m, _, hplan, (hx.pc_of_unsync unsync).resolve_left synchronized⟩
  | message hf b f t _ _ hplan hx => exact ⟨f.instr, _, hplan, (hx.pc_of_unsync unsync).resolve_left synchronized⟩
  | _ => exact absurd unsync synchronized

/-! ### The four kinds -/

/-- A sync message with the history it replays and whether it must end on an indirect instruction: the arguments its
kind gives to the common procedure (44_msg_sync.md R152 to R155). Only an in-range history is one. -/
inductive SyncMessage (icnt faddr : Operand) : Instr → Hist → Bool → Prop where
  | progTrace (sync : Nat) (tstamp : Operand) :
      SyncMessage icnt faddr (.progTraceSync sync icnt faddr tstamp) .noHist false
  | directBranch (sync : Nat) (tstamp : Operand) :
      SyncMessage icnt faddr (.directBranchSync sync icnt faddr tstamp) .noHist false
  | indirectBranch (sync btype : Nat) (tstamp : Operand) :
      SyncMessage icnt faddr (.indirectBranchSync sync btype icnt faddr tstamp) .noHist true
  | indirectBranchHist (sync btype : Nat) (hist tstamp : Operand) (pos : 0 < hist.val) (inRange : hist.val < 2 ^ 32) :
      SyncMessage icnt faddr (.indirectBranchHistSync sync btype icnt faddr hist tstamp)
        (.bits (BitVec.ofNat 32 hist.val)) true

section
variable {icnt faddr : Operand} {i : Instr} {hist : Hist} {needIndirect : Bool}

theorem SyncMessage.retainable (h : SyncMessage icnt faddr i hist needIndirect) : retainable i = true := by
  cases h <;> rfl

/-- With its address in range a sync message runs the common procedure from its test of `pc` on. -/
theorem SyncMessage.exec_eq (h : SyncMessage icnt faddr i hist needIndirect) (inRange : faddr.val < 2 ^ 63) (s : State) :
    exec i s = .next (syncFrom i icnt (BitVec.ofNat 64 (2 * faddr.val)) hist needIndirect s) := by
  rw [← fieldAddr_eq_two_mul]
  cases h with
  | indirectBranchHist sync btype hist tstamp histPos histInRange =>
    exact congrArg Host.Outcome.next
      ((withAddr_of_inRange inRange ..).trans (withHist_of_inRange histPos histInRange ..))
  | _ => exact congrArg Host.Outcome.next (withAddr_of_inRange inRange ..)

end

/-- Unsynchronized, a sync message adopts its address and ends (44_msg_sync.md R151). -/
theorem syncFrom_of_unsynchronized {s : State} (unsync : s.pc = none) (m : Instr) (icnt : Operand) (a : Addr)
    (hist : Hist) (needIndirect : Bool) :
    syncFrom m icnt a hist needIndirect s = (State.adoptAddr a { s with pendingICNTAdjust := 0 }).finish m := by
  simp only [syncFrom, unsync]

/-- Settles O20: the common procedure adopts the address, and the message is of a kind that `prevMsg` retains. -/
theorem syncWhileUnsynchronizedAdopts : Obligations.SyncWhileUnsynchronizedAdopts := by
  intro sync btype icnt faddr hist tstamp s unsync noDispatch inRange i kinds
  have message : ∃ h needIndirect, SyncMessage icnt faddr i h needIndirect := by
    rcases kinds with rfl | rfl | rfl | ⟨rfl, histPos, histInRange⟩
    · exact ⟨_, _, .progTrace ..⟩
    · exact ⟨_, _, .directBranch ..⟩
    · exact ⟨_, _, .indirectBranch ..⟩
    · exact ⟨_, _, .indirectBranchHist _ _ _ _ histPos histInRange⟩
  obtain ⟨h, needIndirect, message⟩ := message
  rw [message.exec_eq inRange, syncFrom_of_unsynchronized unsync, State.finish_of_retainable message.retainable,
    ← noDispatch]
  rfl

/-- Settles O21: the common procedure takes the budget and opens the replay. -/
theorem syncWhileSynchronizedEntersReplay : Obligations.SyncWhileSynchronizedEntersReplay := by
  intro sync btype icnt faddr hist tstamp s synchronized inRange nonneg i h left needIndirect kinds
  have message : SyncMessage icnt faddr i h needIndirect ∧ left = h.length := by
    rcases kinds with ⟨rfl, rfl, rfl, rfl⟩ | ⟨rfl, rfl, rfl, rfl⟩ | ⟨rfl, rfl, rfl, rfl⟩ |
      ⟨rfl, histPos, histInRange, rfl, rfl, rfl⟩
    · exact ⟨.progTrace .., rfl⟩
    · exact ⟨.directBranch .., rfl⟩
    · exact ⟨.indirectBranch .., rfl⟩
    · exact ⟨.indirectBranchHist _ _ _ _ histPos histInRange, (Hist.length_ofNat histInRange).symm⟩
  obtain ⟨message, rfl⟩ := message
  rw [message.exec_eq inRange, syncFrom_of_synchronized synchronized, withBudget_of_nonneg nonneg]
  rfl

end Sys2Proof.Machine
end

section
/-! PROOF. What ResourceFull, RepeatBranch, ProgTraceCorrelation with CDF 1, the reserved sub-codes, Error and Ownership
do in one step (45_msg_resource_repeat_misc.md R160 to R170), and each turn of a `RepeatBranch` loop (R165). -/

namespace Sys2Proof.Machine

open Sys2Proof

/-! ### The messages that end at once -/

/-- Settles O15: the handler ends, and `prevMsg` retains the message. -/
theorem ownershipCompletes : Obligations.OwnershipCompletes := by
  intro process tstamp s noDispatch
  rw [noDispatch]
  exact congrArg Host.Outcome.next (State.finish_of_retainable rfl s)

/-- Settles O16: the registers are cleared, and the handler ends with `prevMsg` cleared too. -/
theorem errorMessageDesynchronizes : Obligations.ErrorMessageDesynchronizes := by
  intro etype pad tstamp s noDispatch noRepeat
  refine congrArg Host.Outcome.next ?_
  simp [State.finish, nextPrevMsg, noDispatch, noRepeat]

/-- Settles O22: the adjustment grows, and the handler ends with `prevMsg` retaining the message. -/
theorem countOverflowAdds : Obligations.CountOverflowAdds := by
  intro rdata tstamp s noDispatch
  rw [noDispatch]
  exact congrArg Host.Outcome.next (State.finish_of_retainable rfl _)

/-- Settles O24: neither meaning reads an operand before it raises. -/
theorem reservedSubcodesRaise : Obligations.ReservedSubcodesRaise := by
  intro rcode evcode cdf v tstamp s i kinds
  have raises : exec i s = .next (s.raise .reserved .empty) := by
    rcases kinds with rfl | rfl
    · rfl
    · rfl
  rw [raises, State.raise_of_notOnByte rfl]

/-! ### The messages that open a history replay -/

/-- Settles O18: with its history in range and a sum that is not negative, the message opens the replay. -/
theorem correlationHistoryEntersReplay : Obligations.CorrelationHistoryEntersReplay := by
  intro evcode icnt hist tstamp s nonneg histPos histInRange
  rw [← Hist.length_ofNat histInRange]
  exact congrArg Host.Outcome.next
    ((withHist_of_inRange histPos histInRange ..).trans (withBudget_of_nonneg nonneg _))

theorem historyFull_of_inRange {rdata : Operand} (pos : 0 < rdata.val) (inRange : rdata.val < 2 ^ 32) (m : Instr)
    (left : Nat) (s : State) :
    historyFull m rdata left s =
      s.openReplay m .untilHist (.bits (BitVec.ofNat 32 rdata.val)) false false (.again left) :=
  withHist_of_inRange pos inRange ..

/-- Settles O23: both kinds open the same replay, each with its own number of repetitions. -/
theorem historyFullEntersReplay : Obligations.HistoryFullEntersReplay := by
  intro rdata hrepeat tstamp s pos inRange i more kinds
  have meaning : exec i s = .next (historyFull i rdata more s) := by
    rcases kinds with ⟨rfl, rfl⟩ | ⟨rfl, rfl⟩
    · rfl
    · rfl
  rw [meaning, historyFull_of_inRange pos inRange, ← Hist.length_ofNat inRange]
  rfl

/-! ### `RepeatBranch` -/

theorem execRepeatBranch_of_prev {s : State} {m : Instr} (prev : s.prevMsg = some m) (bcnt tstamp : Operand) :
    execRepeatBranch bcnt tstamp s = .next { s with repeatLeft := some bcnt.val } := by
  simp only [execRepeatBranch, prev]

theorem execRepeatBranch_of_noPrev {s : State} (noPrev : s.prevMsg = none) (bcnt tstamp : Operand) :
    execRepeatBranch bcnt tstamp s = .next (s.raise .repeatNoPrev .empty) := by
  simp only [execRepeatBranch, noPrev]

/-- Settles O25: whether a message is retained decides. -/
theorem repeatBranchStartsLoop : Obligations.RepeatBranchStartsLoop := by
  intro bcnt tstamp s
  refine ⟨fun m prev => execRepeatBranch_of_prev prev bcnt tstamp, fun noPrev => ?_⟩
  rw [← State.raise_of_notOnByte rfl]
  exact execRepeatBranch_of_noPrev noPrev bcnt tstamp

/-- Settles O26: a step of the loop is a turn while there are turns left, else its end. -/
theorem repeatTurnRunsPrevious : Obligations.RepeatTurnRunsPrevious := by
  intro s running tolerance catalog noDispatch
  refine ⟨fun left m turns prev => ?_, fun ended => ?_⟩
  · rw [step_repeating tolerance catalog running noDispatch turns, prev]
  · rw [step_repeating tolerance catalog running noDispatch ended]

end Sys2Proof.Machine
end

section
/-! PROOF. A history of taken bits replayed over a branch to itself (42_replay.md R121, R127, and
45_msg_resource_repeat_misc.md R163): each step emits the branch's record and consumes one bit, the step after the last
bit closes the pass, and a pass with repetitions left is followed by another over the whole history. -/

namespace Sys2Proof.Machine

open Sys2Proof

/-! ### A history of taken bits -/

/-- A history of `len` branch bits that are all 1. -/
structure AllTaken (h : BitVec 32) (len : Nat) : Prop where
  length : histLength h = len
  taken : ∀ left < len, h.getLsbD left = true

/-- A stop bit above at most 31 ones is a history value in range (42_replay.md R120). -/
theorem ones_inRange {len : Nat} (fits : len ≤ 31) : 0 < 2 ^ (len + 1) - 1 ∧ 2 ^ (len + 1) - 1 < 2 ^ 32 := by
  have lower : 2 ^ 1 ≤ 2 ^ (len + 1) := Nat.pow_le_pow_right (by decide) (by omega)
  have upper : 2 ^ (len + 1) ≤ 2 ^ 32 := Nat.pow_le_pow_right (by decide) (by omega)
  omega

/-- The ones below the stop bit are the branch bits (30_encoding.md R76). -/
theorem allTaken_ofNat {len : Nat} (fits : len ≤ 31) : AllTaken (BitVec.ofNat 32 (2 ^ (len + 1) - 1)) len where
  length := by
    obtain ⟨pos, inRange⟩ := ones_inRange fits
    have doubled : 2 ^ (len + 1) = 2 * 2 ^ len := Nat.pow_succ'
    rw [histLength, BitVec.toNat_ofNat, Nat.mod_eq_of_lt inRange, Nat.log2_eq_iff pos.ne']
    omega
  taken left isLeft := by
    simp only [BitVec.getLsbD_ofNat, Nat.testBit_two_pow_sub_one, Bool.and_eq_true, decide_eq_true_eq]
    omega

/-! ### Along the loop -/

/-- The record of a branch of the given size at `a` that is taken to itself. -/
def loopRecord (a : Addr) (size : Nat) : Record := ⟨a, (branchMeta size a).cls, size, some a, true⟩

/-- The working registers of `Replay(UntilHist, H(h))` with `left` bits to consume and `more` passes to follow. -/
def loopDispatch (i : Instr) (h : BitVec 32) (left more : Nat) : Dispatch :=
  { openDispatch i .untilHist (.bits h) false false (.again more) with histLeft := left }

theorem loopDispatch_goesOn (i : Instr) (h : BitVec 32) (left more : Nat) :
    (loopDispatch i h left more).goesOn = decide (0 < left) := rfl

/-- The state with `n` turns of the loop emitted. -/
def State.afterTurns (s : State) (a : Addr) (size n : Nat) : State :=
  { s with instrCount := s.instrCount + n, records := s.records ++ List.replicate n (loopRecord a size) }

theorem State.afterTurns_zero (s : State) (a : Addr) (size : Nat) : s.afterTurns a size 0 = s := by
  simp [State.afterTurns]

/-- The state after `n` turns of the loop, inside a pass with `left` bits to consume and `more` passes to follow. -/
def State.inLoop (s : State) (i : Instr) (h : BitVec 32) (a : Addr) (size n left more : Nat) : State :=
  { s.afterTurns a size n with dispatch := some (loopDispatch i h left more) }

section
variable {s : State} {a : Addr} {size len : Nat} {h : BitVec 32} (hf : Fetching s) (i : Instr)
include hf

theorem Fetching.dispatching_inLoop (h : BitVec 32) (a : Addr) (size n left more : Nat) :
    Dispatching (s.inLoop i h a size n left more) (loopDispatch i h left more) :=
  ⟨hf.running, hf.tolerance, hf.catalog, rfl⟩

/-- One turn of the loop: the branch is taken to itself (42_replay.md R127). -/
theorem step_inLoop (hpc : s.pc = some a) (even : evenAddr a) (sizeOk : twoOrFour size)
    (loops : s.oracle.lookup a = some (branchMeta size a)) (n more : Nat) {left : Nat}
    (taken : h.getLsbD left = true) :
    step (s.inLoop i h a size n (left + 1) more) = .next (s.inLoop i h a size (n + 1) left more) := by
  rw [branchWithHistoryTakesNextBit _ _ a a size left h (hf.dispatching_inLoop i h a size n (left + 1) more)
    (by simp [loopDispatch_goesOn]) (by rintro ⟨⟨⟩, -⟩) rfl rfl hpc even sizeOk loops, taken]
  simp [State.inLoop, State.afterTurns, loopDispatch, openDispatch, loopRecord, branchMeta, List.replicate_succ', hpc,
    Nat.add_assoc]

/-- The turns of a pass, by induction on the bits left. -/
theorem run_inLoop (hpc : s.pc = some a) (even : evenAddr a) (sizeOk : twoOrFour size)
    (loops : s.oracle.lookup a = some (branchMeta size a)) (n left more : Nat)
    (taken : ∀ k < left, h.getLsbD k = true) :
    Sys2Proof.core.run left (s.inLoop i h a size n left more) = .next (s.inLoop i h a size (n + left) 0 more) := by
  induction left generalizing n with
  | zero => rfl
  | succ left ih =>
    rw [run_succ _ (step_inLoop hf i hpc even sizeOk loops n more (taken left (Nat.lt_succ_self left))),
      ih (n + 1) fun k isLeft => taken k (Nat.lt_succ_of_lt isLeft), Nat.add_right_comm, Nat.add_assoc]

/-! ### The close of a pass -/

/-- With passes to follow, the close of a pass opens the next one over the whole history
(45_msg_resource_repeat_misc.md R163). -/
theorem step_nextPass (retained : retainable i = true) (length : histLength h = len) (a : Addr) (size n more : Nat) :
    step (s.inLoop i h a size n 0 (more + 1)) = .next (s.inLoop i h a size n len more) := by
  obtain ⟨-, again, -⟩ := settledReplayEndsHandler _ _ (hf.dispatching_inLoop i h a size n 0 (more + 1))
    (loopDispatch_goesOn i h 0 (more + 1)) (.inl rfl) rfl nofun retained
  rw [again more rfl rfl, ← length]
  rfl

/-- The close of the last pass ends the handler. -/
theorem step_lastPass (retained : retainable i = true) (h : BitVec 32) (a : Addr) (size n : Nat) :
    step (s.inLoop i h a size n 0 0) = .next { s.afterTurns a size n with prevMsg := some i } := by
  obtain ⟨finishes, -⟩ := settledReplayEndsHandler _ _ (hf.dispatching_inLoop i h a size n 0 0)
    (loopDispatch_goesOn i h 0 0) (.inl rfl) rfl nofun retained
  rw [finishes rfl (.inr rfl)]
  simp [State.inLoop, State.afterTurns, loopDispatch, openDispatch, hf.noDispatch, hf.noRepeat]

/-- All passes and their closes, by induction on the passes that follow the first. -/
theorem run_passes (retained : retainable i = true) (hpc : s.pc = some a) (even : evenAddr a)
    (sizeOk : twoOrFour size) (loops : s.oracle.lookup a = some (branchMeta size a)) (history : AllTaken h len)
    (n more : Nat) :
    Sys2Proof.core.run ((1 + more) * (len + 1)) (s.inLoop i h a size n len more) =
      .next { s.afterTurns a size (n + (1 + more) * len) with prevMsg := some i } := by
  induction more generalizing n with
  | zero =>
    have pass := run_inLoop hf i hpc even sizeOk loops n len 0 history.taken
    rw [Nat.one_mul, Nat.one_mul, run_add len 1 pass, run_one]
    exact step_lastPass hf i retained h a size (n + len)
  | succ more ih =>
    have pass := run_inLoop hf i hpc even sizeOk loops n len (more + 1) history.taken
    have steps : (1 + (more + 1)) * (len + 1) = len + ((1 + more) * (len + 1) + 1) := by ring
    have turns : n + (1 + (more + 1)) * len = n + len + (1 + more) * len := by ring
    rw [steps, run_add len _ pass, run_succ _ (step_nextPass hf i retained history.length a size (n + len) more),
      ih (n + len), turns]

end

/-- Settles O43: the message opens the first pass, and the passes run to the close of the last. -/
theorem historyFullReplaysOnePlusHrepeatTimes : Obligations.HistoryFullReplaysOnePlusHrepeatTimes := by
  intro s a size len more rdata hrepeat tstamp hf hpc even sizeOk loops lenFits ones repeats
  have history := allTaken_ofNat lenFits
  obtain ⟨pos, inRange⟩ := ones_inRange lenFits
  rw [← ones] at history pos inRange
  have opens : exec (.resourceFull2 rdata hrepeat tstamp) s = .next (s.inLoop (.resourceFull2 rdata hrepeat tstamp)
      (BitVec.ofNat 32 rdata.val) a size 0 len more) := by
    rw [historyFullEntersReplay rdata hrepeat tstamp s pos inRange _ more (.inr ⟨rfl, repeats.symm⟩),
      ← Hist.length_ofNat inRange, State.inLoop, State.afterTurns_zero, ← history.length]
    rfl
  refine ⟨_, opens, ?_⟩
  have passes := run_passes hf (.resourceFull2 rdata hrepeat tstamp) rfl hpc even sizeOk loops history 0 more
  rw [Nat.zero_add] at passes
  exact passes

end Sys2Proof.Machine
end

section
/-! PROOF. The errors of the block (60_exceptions.md): what entering ERROR writes and keeps, `E_UNKNOWN_TCODE`, and that
`E_NEG_BUDGET` is never reached. -/

namespace Sys2Proof

/-! ### `E_UNKNOWN_TCODE` (60_exceptions.md R206) -/

/-- A payload is unknown exactly when it is the TCODE of no entry. -/
theorem Catalog.byTcode_eq_none_iff {cat : Catalog} {t : Nat} :
    cat.byTcode t = none ↔ t ∉ cat.map CatalogEntry.tcode := by
  simp [Catalog.byTcode]

/-- The TCODEs of the default catalog (30_encoding.md R70). -/
theorem defaultCatalog_tcodes :
    defaultCatalog.map CatalogEntry.tcode = [2, 3, 4, 8, 9, 11, 12, 27, 28, 29, 30, 33] := rfl

/-- Any other marker makes an error of a payload that marker `11` makes idle (40_framer_ops.md R92). -/
theorem frameByte_of_unknown {cat : Catalog} {f : Framer} {b : Byte} (idle : f.fstate = .idle)
    (valid : marker b ≠ .invalid) (notEnd : marker b ≠ .endMessage) (noTcode : cat.byTcode (mdo b).toNat = none) :
    frameByte cat f b = .error .unknownTcode (.payload (mdo b)) f := by
  simp [frameByte, valid, notEnd, idle, noTcode]

/-- The markers `00` and `01` are neither the invalid one nor the end of a message (30_encoding.md R62). -/
theorem marker_goesOn {b : Byte} (hm : mseo b = 0#2 ∨ mseo b = 1#2) :
    marker b ≠ .invalid ∧ marker b ≠ .endMessage := by
  rcases hm with hm | hm
  · simp [marker_eq_more.mpr hm]
  · simp [marker_eq_endField.mpr hm]

end Sys2Proof

namespace Sys2Proof.Machine

open Sys2Proof

/-- Settles O6: the framer makes an error or an idle byte of the unknown payload by its marker, and the TCODEs of the
default catalog are read off it. -/
theorem unknownTcodeRaises : Obligations.UnknownTcodeRaises := by
  refine ⟨fun s b hf idle hb noTcode => ⟨fun goesOn => ?_, fun ends => ?_⟩, fun p => ?_⟩
  · obtain ⟨valid, notEnd⟩ := marker_goesOn goesOn
    exact step_of_error hf hb (frameByte_of_unknown idle valid notEnd noTcode)
  · have isIdle := step_of_idle hf hb (frameByte_of_noTcode idle (marker_eq_endMessage.mpr ends) noTcode)
    exact ⟨_, isIdle.trans (exec_idle _ _), hf.running, rfl⟩
  · rw [Catalog.byTcode_eq_none_iff, defaultCatalog_tcodes]

/-! ### Entering ERROR (60_exceptions.md R202, R222) -/

/-- The errors of a byte just read, as R202 lists them. -/
theorem Err.onByte_iff_mem {e : Err} :
    Err.onByte e = true ↔ e ∈ [Err.invalidMseo, .frameSeq, .fixedTruncated, .unknownTcode, .fieldOverflow] := by
  cases e <;> decide

/-- The registers a raising step keeps: the state `u` in which the error is raised agrees with the state `s` before the
step in them. -/
structure KeptByRaise (s u : State) : Prop where
  records : u.records = s.records
  instrCount : u.instrCount = s.instrCount
  idleCount : u.idleCount = s.idleCount
  pc : u.pc = s.pc
  lastAddr : u.lastAddr = s.lastAddr
  csMem : u.csMem = s.csMem
  csTop : u.csTop = s.csTop
  csSize : u.csSize = s.csSize
  prevMsg : u.prevMsg = s.prevMsg

theorem KeptByRaise.trans {s u v : State} (h : KeptByRaise s u) (h' : KeptByRaise u v) : KeptByRaise s v where
  records := h'.records.trans h.records
  instrCount := h'.instrCount.trans h.instrCount
  idleCount := h'.idleCount.trans h.idleCount
  pc := h'.pc.trans h.pc
  lastAddr := h'.lastAddr.trans h.lastAddr
  csMem := h'.csMem.trans h.csMem
  csTop := h'.csTop.trans h.csTop
  csSize := h'.csSize.trans h.csSize
  prevMsg := h'.prevMsg.trans h.prevMsg

/-- What precedes the raise in the same step: a byte is read, a message completed, a turn of a `RepeatBranch` loop
counted, the adjustment cleared. -/
theorem keptByRaise_of_prepared (s : State) (pos msgs : Nat) (f : Framer) (left : Option Nat) (adjust : Int) :
    KeptByRaise s { s with
      pos := pos, msgCount := msgs, framer := f, repeatLeft := left, pendingICNTAdjust := adjust } :=
  ⟨rfl, rfl, rfl, rfl, rfl, rfl, rfl, rfl, rfl⟩

/-- The state `t` is one where an error has just been raised, and the registers of `KeptByRaise` are those of `s`. -/
def RaisedFrom (s t : State) : Prop := ∃ e detail u, t = State.raise e detail u ∧ KeptByRaise s u

theorem RaisedFrom.of_kept {s u t : State} (h : KeptByRaise s u) (raised : RaisedFrom u t) : RaisedFrom s t := by
  obtain ⟨e, detail, v, rfl, kept⟩ := raised
  exact ⟨e, detail, v, rfl, h.trans kept⟩

theorem State.raise_raisedFrom (e : Err) (detail : Detail) (s : State) : RaisedFrom s (s.raise e detail) :=
  ⟨e, detail, s, rfl, keptByRaise_of_prepared s s.pos s.msgCount s.framer s.repeatLeft s.pendingICNTAdjust⟩

/-- An instruction that leaves a running block in ERROR raised, with at most the adjustment cleared before. -/
theorem ExecResult.raisedFrom {i : Instr} {s t : State} (h : ExecResult i s t) (running : s.status = .run)
    (failed : t.status = .error) : RaisedFrom s t := by
  cases h with
  | raised e adjust =>
    exact ⟨e, .empty, _, rfl, keptByRaise_of_prepared s s.pos s.msgCount s.framer s.repeatLeft adjust⟩
  | _ => simp [running, State.adoptAddr] at failed

/-- The close of a replay that leaves a running block in ERROR raised before it wrote anything. -/
theorem CloseResult.raisedFrom {d : Dispatch} {s t : State} (h : CloseResult d s t) (running : s.status = .run)
    (failed : t.status = .error) : RaisedFrom s t := by
  cases h with
  | raised e detail => exact s.raise_raisedFrom e detail
  | _ => simp [running, State.applyDelta, State.adoptAddr] at failed

theorem replayInstr_status (pc : Addr) (m : InstrMeta) (d : Dispatch) (s : State) :
    (replayInstr pc m d s).status = s.status := by
  obtain ⟨r, -, -, frame⟩ := replayInstr_frame pc m d s
  rw [frame]

/-- A step enters ERROR only by raising, from a state that differs from the one before in what was prepared. -/
theorem step_raisedFrom {s t : State} (h : step s = .next t) (failed : t.status = .error) : RaisedFrom s t := by
  cases step_result h with
  | closed d hd => exact (closeReplay_result d s).raisedFrom hd.running failed
  | replayRaised d e detail => exact s.raise_raisedFrom e detail
  | replayed d pc m hd => simp [replayInstr_status, hd.running] at failed
  | repeatEnded running => simp [running] at failed
  | repeated left m t running _ _ _ _ hx =>
    exact (hx.raisedFrom running failed).of_kept
      (keptByRaise_of_prepared s s.pos s.msgCount s.framer (some left) s.pendingICNTAdjust)
  | repeatRaised => exact s.raise_raisedFrom _ _
  | ended => simp at failed
  | truncated => exact s.raise_raisedFrom _ _
  | more hf => simp [hf.running] at failed
  | framingRaised hf b f e detail =>
    exact (State.raise_raisedFrom e detail _).of_kept
      (keptByRaise_of_prepared s (s.pos + 1) s.msgCount f s.repeatLeft s.pendingICNTAdjust)
  | idle hf => simp [hf.running] at failed
  | message hf b f t _ _ _ hx =>
    exact (hx.raisedFrom hf.running failed).of_kept
      (keptByRaise_of_prepared s (s.pos + 1) (s.msgCount + 1) { f with fstate := .idle } s.repeatLeft
        s.pendingICNTAdjust)

/-- Settles O58: the error registers are those of the raise, and the rest is kept up to it. -/
theorem raisingStepKeepsTheRest : Obligations.RaisingStepKeepsTheRest := by
  intro s t h failed
  obtain ⟨e, detail, u, rfl, kept⟩ := step_raisedFrom h failed
  refine ⟨e, detail, rfl, rfl, ?_, kept.records, kept.instrCount, kept.idleCount, kept.pc, kept.lastAddr, kept.csMem,
    kept.csTop, kept.csSize, kept.prevMsg⟩
  simp only [← Err.onByte_iff_mem]
  rfl

/-! ### `E_NEG_BUDGET` is unreachable (60_exceptions.md R211, 90_conflicts.md C9) -/

/-- A run of `k + 1` steps that ends in a state begins with a step and goes on from its next state. -/
theorem step_of_run_succ {k : Nat} {s t : State} (h : Sys2Proof.core.run (k + 1) s = .next t) :
    ∃ u, step s = .next u ∧ Sys2Proof.core.run k u = .next t := by
  have unfolded : Sys2Proof.core.step s = step s := rfl
  simp only [Host.Core.run, unfolded] at h
  cases hs : step s with
  | next u => exact ⟨u, rfl, by rwa [hs] at h⟩
  | fault r => rw [hs] at h; cases h
  | refused r => rw [hs] at h; cases h

/-- The invariant holds after every run from a state that has it, by induction on the steps. -/
theorem SessionInv.run {k : Nat} {s t : State} (h : SessionInv s) (hr : Sys2Proof.core.run k s = .next t) :
    SessionInv t := by
  induction k generalizing s with
  | zero => cases hr; exact h
  | succ k ih =>
    obtain ⟨u, first, later⟩ := step_of_run_succ hr
    exact ih (stepKeepsInvariant s u h first) later

/-- A created session has the invariant: nothing is in dispatch, nothing is retained, and the ring is empty. -/
theorem SessionInv.create (cfg : Config) (stream : List Byte) (oracle : Oracle) :
    SessionInv (State.create cfg stream oracle) where
  wireCanonical := State.create_wire_wf cfg stream oracle
  ringLength := List.length_replicate
  ringSize := Nat.zero_le _
  ringTop := .inr rfl
  recordCount := rfl
  recordsKnown := by simp [State.create]
  errorStatus := by simp [State.create]
  errorOnce := by simp [State.create]
  adjustNonneg := Int.le_refl 0
  noNegBudget := by simp [State.create]
  prevRetained := by simp [State.create]
  baseEven := by simp [evenAddr, State.create]
  dispatchIdle := fun _ => rfl
  repeatHasPrev := by simp [State.create]
  working := by simp [State.create]

/-- Settles O50: the invariant, which excludes the error, holds along every run. -/
theorem negBudgetIsUnreachable : Obligations.NegBudgetIsUnreachable :=
  fun cfg stream oracle _ _ hr => ((SessionInv.create cfg stream oracle).run hr).noNegBudget

end Sys2Proof.Machine
end

section
/-! PROOF. Reset and the hang (70_reset_and_hazards.md): what a created session holds (R230), and a history replay that
never ends (R243), since at a direct jump to itself a step consumes no history bit and moves nowhere. -/

namespace Sys2Proof.Machine

open Sys2Proof

/-! ### Reset (70_reset_and_hazards.md R230) -/

/-- Settles O47: each register by the definition of `State.create`, and the stream by the read of what was loaded. -/
theorem resetGivesTheTabledValues : Obligations.ResetGivesTheTabledValues :=
  fun cfg stream oracle => ⟨rfl, rfl, rfl, rfl, rfl, rfl, rfl, rfl, rfl, rfl, rfl, rfl, rfl, rfl, rfl, rfl, rfl,
    State.create_read cfg stream oracle⟩

/-- Settles O48: reset is itself a creation. -/
theorem createdSessionHasInvariant : Obligations.CreatedSessionHasInvariant :=
  ⟨SessionInv.create, SessionInv.create defaultConfig [] []⟩

/-! ### The hang (70_reset_and_hazards.md R243) -/

/-- The record of a direct jump of the given size at `a` to itself. -/
def selfJumpRecord (a : Addr) (size : Nat) : Record := ⟨a, (jumpMeta size a).cls, size, some a, true⟩

/-- A history replay with bits left is at a direct jump to itself. -/
structure AtSelfJump (s : State) (d : Dispatch) (a : Addr) (size : Nat) : Prop where
  dispatching : Dispatching s d
  notStopped : d.stopped = .none
  untilHist : d.n = .untilHist
  bitsLeft : 0 < d.histLeft
  at_pc : s.pc = some a
  even : evenAddr a
  sizeOk : twoOrFour size
  jumps : s.oracle.lookup a = some (jumpMeta size a)

/-- The state after one turn of the hang: the jump's record is emitted, and of the working registers only
`lastIndirect` is written. -/
def State.afterSelfJump (s : State) (d : Dispatch) (a : Addr) (size : Nat) : State :=
  { s with
    instrCount := s.instrCount + 1
    records := s.records ++ [selfJumpRecord a size]
    dispatch := some { d with lastIndirect := false } }

section
variable {s : State} {d : Dispatch} {a : Addr} {size : Nat}

/-- Bits left keep an `UntilHist` replay going (42_replay.md R129). -/
theorem AtSelfJump.goesOn (h : AtSelfJump s d a size) : d.goesOn = true := by
  simp [Dispatch.goesOn, Budget.continues, h.notStopped, h.untilHist, h.bitsLeft]

/-- One turn of the hang: the jump is taken to itself (42_replay.md R127), and an `UntilHist` budget is not charged
(R123). -/
theorem AtSelfJump.step_eq (h : AtSelfJump s d a size) : step s = .next (s.afterSelfJump d a size) := by
  have fits : ¬ (d.n = .count 1 ∧ size = 4) := by simp [h.untilHist]
  obtain ⟨jump, -⟩ := jumpAndCallGoToDestination s d a a size false h.dispatching h.goesOn h.at_pc h.even h.sizeOk fits
  rw [jump h.jumps]
  simp [State.afterSelfJump, selfJumpRecord, h.untilHist, h.at_pc]

/-- The hang's premises hold again after a turn. -/
theorem AtSelfJump.again (h : AtSelfJump s d a size) :
    AtSelfJump (s.afterSelfJump d a size) { d with lastIndirect := false } a size where
  dispatching := ⟨h.dispatching.running, h.dispatching.tolerance, h.dispatching.catalog, rfl⟩
  notStopped := h.notStopped
  untilHist := h.untilHist
  bitsLeft := h.bitsLeft
  at_pc := h.at_pc
  even := h.even
  sizeOk := h.sizeOk
  jumps := h.jumps

/-- `k` turns of the hang, by induction on `k`. -/
theorem AtSelfJump.run (h : AtSelfJump s d a size) (k : Nat) :
    ∃ t d', Sys2Proof.core.run k s = .next t ∧ AtSelfJump t d' a size ∧ t.instrCount = s.instrCount + k ∧
      t.records = s.records ++ List.replicate k (selfJumpRecord a size) := by
  induction k generalizing s d with
  | zero => exact ⟨s, d, rfl, h, rfl, by simp⟩
  | succ k ih =>
    obtain ⟨t, d', runs, still, instrCount, records⟩ := ih h.again
    refine ⟨t, d', (run_succ k h.step_eq).trans runs, still, ?_, ?_⟩
    · rw [instrCount]
      exact Nat.add_right_comm ..
    · rw [records, List.replicate_succ]
      exact List.append_assoc ..

end

/-- Settles O60: the premises are kept turn after turn. -/
theorem historyReplayCanHang : Obligations.HistoryReplayCanHang := by
  intro s d a size hd notStopped untilHist bitsLeft hpc even sizeOk jumps k
  have h : AtSelfJump s d a size := ⟨hd, notStopped, untilHist, bitsLeft, hpc, even, sizeOk, jumps⟩
  obtain ⟨t, d', runs, still, instrCount, records⟩ := h.run k
  exact ⟨t, runs, still.dispatching.running, still.at_pc, instrCount, records⟩

end Sys2Proof.Machine
end
